-- ==== Sys2Proof/Word.lean ====
section
/-! DEFINITION. The widths of the SLTC's values (spec/00_scope.md R9): u8, u32 and u64 are bit vectors whose
arithmetic wraps; `Hash8` is the eight-word SHA-256 chaining value (spec/10_state.md R34). -/

namespace Sys2Proof

/-- u8. -/
abbrev Byte := BitVec 8
/-- u32: a command word, an ARG register, one 32-bit bus value. -/
abbrev Word := BitVec 32
/-- u64 (and s64, as its two's-complement bits): timestamps, RES, CLK.PREV, CLK.OFF. -/
abbrev DWord := BitVec 64

/-- Eight u32 words: SHA.H[0..7] of R34, and the working variables a..h of spec/41_sha256.md R149. -/
structure Hash8 where
  h0 : Word
  h1 : Word
  h2 : Word
  h3 : Word
  h4 : Word
  h5 : Word
  h6 : Word
  h7 : Word
deriving DecidableEq, Repr

end Sys2Proof
end

