-- ==== Sys2Proof/Syntax.lean ====
section
/-! DEFINITION. The syntax: the ten commands of spec/opcode_table.json (one constructor of `Instr` a row), the errors a
command can raise (spec/60_exceptions.md R300), the bus accesses and the other agents' actions that reach the block
(spec/20_memory.md R60, R78), and the host's assembler statements (spec/30_encoding.md R101, R102). -/

namespace Sys2Proof

/-- A command of the block, one constructor per row of spec/opcode_table.json; the fields are the flag bits F0 and F1 of
the format CMD32 (spec/30_encoding.md R91, R93). The port a command runs on is the CMD register it was written to and no
part of the word; operands are in that port's ARG registers (R92). -/
inductive Instr where
  /-- OP 0x00 (spec/46_nop.md R280). -/
  | nop
  /-- OP 0x01 (spec/43_clock.md R195). -/
  | nowRaw
  /-- OP 0x02 (spec/43_clock.md R197). -/
  | wallSeconds
  /-- OP 0x10 (spec/45_dcf77.md R232): F0 = LVL, F1 = TSRC. -/
  | dcfSample (lvl tsrc : Bool)
  /-- OP 0x20 (spec/40_base64.md R125). -/
  | b64Decode
  /-- OP 0x30 (spec/41_sha256.md R143). -/
  | shaInit
  /-- OP 0x31 (spec/41_sha256.md R145). -/
  | shaUpdate
  /-- OP 0x32 (spec/41_sha256.md R147). -/
  | shaFinal
  /-- OP 0x40 (spec/42_hmac.md R172). -/
  | hmacCompute
  /-- OP 0x41 (spec/42_hmac.md R174): F0 = TAG32. -/
  | hmacVerify (tag32 : Bool)
deriving DecidableEq, Repr

/-- The error codes 0x01 to 0x08 of spec/60_exceptions.md R300; no other code is ever written. -/
inductive ErrCode where
  | illegalOp
  | badFlags
  | badRange
  | b64Length
  | b64Char
  | b64Pad
  | shaState
  | shaLength
deriving DecidableEq, Repr

/-- The two command ports P0 and P1 (spec/10_state.md R22). -/
inductive Port where
  | p0
  | p1
deriving DecidableEq, Repr

/-- The other port. -/
def Port.other : Port → Port
  | .p0 => .p1
  | .p1 => .p0

/-- An access is of n bytes, n one of 1, 2, 4 (spec/20_memory.md R60). -/
inductive Width where
  | w1
  | w2
  | w4
deriving DecidableEq, Repr

/-- n of an access. -/
def Width.bytes : Width → Nat
  | .w1 => 1
  | .w2 => 2
  | .w4 => 4

/-- A bus master: the host's main context HM, its interrupt context HI (spec/20_memory.md R78), or a further CPU
(spec/60_exceptions.md R313). All have equal rights (R72). -/
inductive Master where
  | main
  | interrupt
  | further (n : Nat)
deriving DecidableEq, Repr

/-- A bus access `MemRead(a, n)` or `MemWrite(a, n, v)` (R60) at bus address `addr`; the block offset a is
`addr - SLTC_BASE`. -/
inductive Access where
  | read (addr : Nat) (n : Width)
  | write (addr : Nat) (n : Width) (v : Word)
deriving DecidableEq, Repr

/-- One action of one of R78's agents, as the block meets it. -/
inductive Event where
  /-- HM, HI or a further master issues an access. -/
  | bus (m : Master) (a : Access)
  /-- TB: one Timebase tick (spec/43_clock.md R190). -/
  | tick
  /-- RS drives the input `rst` to this level (spec/70_reset_and_hazards.md R340). -/
  | rst (level : Bool)
  /-- Power is lost and comes back (spec/60_exceptions.md R315). -/
  | powerCycle
deriving DecidableEq, Repr

/-- A host statement of the assembler syntax (spec/30_encoding.md R101) or a pseudo-instruction (R102). Offsets are block
offsets. -/
inductive HostStmt where
  | st32 (off : Nat) (imm : Word)
  | st16 (off : Nat) (imm : BitVec 16)
  | st8 (off : Nat) (imm : Byte)
  /-- `ld32 var, off`: the host variable is the value of the reply. -/
  | ld32 (off : Nat)
  | cmd (p : Port) (i : Instr)
  | tick (n : Nat)
  /-- `arg64 P<p>, k, imm64`, k 0 or 2. -/
  | arg64 (p : Port) (k : Nat) (imm : DWord)
  | res64 (p : Port)
  /-- `bufstr i, text`: the text's bytes into BUF from i upward. -/
  | bufstr (i : Nat) (bytes : List Byte)
  | now (p : Port)
  | dcf (p : Port) (lvl : Bool) (t : DWord)
  | range (p : Port) (off len : Word)
deriving DecidableEq, Repr

end Sys2Proof
end

