-- ==== Sys2Proof/Config.lean ====
section
/-! DEFINITION. What an implementation fixes: the parameters of spec/00_scope.md R7 with the constraints R7 puts on
them, and the free values of spec/93_implementation_defined.md Part 1 (U1, U2), opaque constants that nothing can
evaluate. The widths R7 fixes outright (BUS_WIDTH 32, HWCNT_BITS 16, EXT_BITS 49, FRAME_BITS 60, KEY_BYTES 32,
HMAC_BLOCK 64) stand in the types of the state. -/

namespace Sys2Proof

/-- `UTC_CHECK` of R7: `strict` rejects a UTC-offset code outside 1 and 2, `none` accepts 0 to 3. -/
inductive UtcCheck where
  | strict
  | none
deriving DecidableEq, Repr

/-- The parameters of R7 that a platform or an implementation chooses; times are in microseconds. -/
structure Params where
  /-- SLTC_BASE: the bus address of offset 0. -/
  base : Nat
  /-- BUF_SIZE: bytes in the operand buffer. -/
  bufSize : Nat
  tGapLo : Nat
  tGapHi : Nat
  tMinLo : Nat
  tMinHi : Nat
  tBit0Lo : Nat
  tBit0Hi : Nat
  tBit1Lo : Nat
  tBit1Hi : Nat
  /-- LIVENESS_US. -/
  livenessUs : Nat
  /-- BASE_YEAR: the first century candidate's base. -/
  baseYear : Nat
  utcCheck : UtcCheck
deriving DecidableEq, Repr

/-- The parameter constraints a model checks at configuration (last paragraph of R7). -/
def Params.ok (p : Params) : Bool :=
  p.base % 0x400 == 0
  && decide (16 ≤ p.bufSize) && decide (p.bufSize ≤ 512) && p.bufSize % 4 == 0
  && decide (p.tGapLo ≤ p.tGapHi) && decide (p.tMinLo ≤ p.tMinHi)
  && decide (p.tBit0Lo ≤ p.tBit0Hi) && decide (p.tBit1Lo ≤ p.tBit1Hi)
  && decide (p.tGapHi < p.tMinLo) && decide (p.tBit0Hi < p.tBit1Lo)
  && decide (2000 ≤ p.baseYear)

/-- The default values of R7. SLTC_BASE is open there; 0 is this model's default (notes/assumptions/10.md). -/
def Params.standard : Params where
  base := 0
  bufSize := 256
  tGapLo := 700000
  tGapHi := 1000000
  tMinLo := 1700000
  tMinHi := 2000000
  tBit0Lo := 70000
  tBit0Hi := 130000
  tBit1Lo := 170000
  tBit1Hi := 230000
  livenessUs := 3600000000
  baseYear := 2000
  utcCheck := .strict

/-- A configuration: parameters together with the proof that they meet R7's constraints, so that no machine with
parameters outside them can be built. -/
structure Config extends Params where
  valid : toParams.ok = true
deriving DecidableEq, Repr

/-- The configuration with R7's default values. -/
def Config.standard : Config := { Params.standard with valid := by decide }

/-- U1, spec/10_state.md R37: what BUF[i] holds after the `draw`-th reset when nothing has written it since. Any value
per byte: DESIGN CHOICE, a free value, safe (notes/assumptions/2.md). -/
opaque Config.bufAtReset (draw i : Nat) : Byte

/-- U2, spec/43_clock.md R190: the external counter's value at the `draw`-th power-up. Any value: DESIGN CHOICE, a free
value, safe (notes/assumptions/3.md). -/
opaque Config.hwCntAtPowerUp (draw : Nat) : BitVec 16

end Sys2Proof
end

