-- ==== Sys2Proof/WellFormed.lean ====
section
/-! DEFINITION. Which terms of the syntax stand for something the spec has. Every `Instr` does (its flag fields are
Booleans, and R91 and R93 of spec/30_encoding.md admit both values); a command WORD need not: R99 and R100 are checked by
the decoder. A bus access is one of the block's only inside its window (spec/20_memory.md R60), and a host statement must
keep to the forms of spec/30_encoding.md R101 and R102. -/

namespace Sys2Proof

/-- Every combination of the flag fields is encodable (spec/30_encoding.md R93, R103). One arm per constructor, so that a
new command cannot slip past. -/
def Instr.wellFormed : Instr → Bool
  | .nop => true
  | .nowRaw => true
  | .wallSeconds => true
  | .dcfSample _ _ => true
  | .b64Decode => true
  | .shaInit => true
  | .shaUpdate => true
  | .shaFinal => true
  | .hmacCompute => true
  | .hmacVerify _ => true

/-- The bus address of an access. -/
def Access.addr : Access → Nat
  | .read a _ => a
  | .write a _ _ => a

/-- R60: an access of the block has its offset in the 0x400-byte window at SLTC_BASE. -/
def Access.wellFormed (c : Config) (a : Access) : Bool :=
  decide (c.base ≤ a.addr) && decide (a.addr < c.base + 0x400)

/-- The forms of R101 and R102: offsets name the window, `arg64` takes k = 0 or 2, a text fits in BUF. -/
def HostStmt.wellFormed (c : Config) : HostStmt → Bool
  | .st32 off _ => decide (off < 0x400)
  | .st16 off _ => decide (off < 0x400)
  | .st8 off _ => decide (off < 0x400)
  | .ld32 off => decide (off < 0x400)
  | .cmd _ i => i.wellFormed
  | .tick _ => true
  | .arg64 _ k _ => k == 0 || k == 2
  | .res64 _ => true
  | .bufstr i bytes => decide (i + bytes.length ≤ c.bufSize)
  | .now _ => true
  | .dcf _ _ _ => true
  | .range _ _ _ => true

end Sys2Proof
end

