-- ==== Sys2Proof/Decode.lean ====
section
/-! DEFINITION. Decoding a command word as spec/30_encoding.md R90 does (opcode first, then reserved bits and unused flags),
and the encoder from the table of R103. The decoder is total: a word that is no command is rejected with the error code
the block reports for it (R99, R100). -/

namespace Sys2Proof

/-- Field OP, bits 7:0 (R91). -/
def fieldOp (w : Word) : Byte := w.extractLsb' 0 8
/-- Field F0, bit 8 (R91). -/
def fieldF0 (w : Word) : Bool := w.getLsbD 8
/-- Field F1, bit 9 (R91). -/
def fieldF1 (w : Word) : Bool := w.getLsbD 9
/-- Field RSV, bits 31:10 (R91). -/
def fieldRsv (w : Word) : BitVec 22 := w.extractLsb' 10 22

/-- The opcode map of R93: the command of an opcode, with its flags; none for an illegal opcode (R99). -/
def opcodeMap (op : Byte) (f0 f1 : Bool) : Option Instr :=
  match op.toNat with
  | 0x00 => some .nop
  | 0x01 => some .nowRaw
  | 0x02 => some .wallSeconds
  | 0x10 => some (.dcfSample f0 f1)
  | 0x20 => some .b64Decode
  | 0x30 => some .shaInit
  | 0x31 => some .shaUpdate
  | 0x32 => some .shaFinal
  | 0x40 => some .hmacCompute
  | 0x41 => some (.hmacVerify f0)
  | _ => none

/-- The flag test of R90 and R100: reserved bits set, or a flag set on an opcode that does not use it. -/
def flagsBad (w : Word) : Bool :=
  fieldRsv w != 0
  || (fieldF0 w && !(fieldOp w == 0x10 || fieldOp w == 0x41))
  || (fieldF1 w && !(fieldOp w == 0x10))

/-- Decoding by R90: ILLEGAL_OP before BAD_FLAGS, then the command. -/
def decode (w : Word) : Except ErrCode Instr :=
  match opcodeMap (fieldOp w) (fieldF0 w) (fieldF1 w) with
  | none => .error .illegalOp
  | some i => if flagsBad w then .error .badFlags else .ok i

/-- The opcode a command's word holds in bits 7:0 (R93). -/
def opcode : Instr → Byte
  | .nop => 0x00
  | .nowRaw => 0x01
  | .wallSeconds => 0x02
  | .dcfSample _ _ => 0x10
  | .b64Decode => 0x20
  | .shaInit => 0x30
  | .shaUpdate => 0x31
  | .shaFinal => 0x32
  | .hmacCompute => 0x40
  | .hmacVerify _ => 0x41

/-- The command's flag F0 (R91): LVL of DCF_SAMPLE, TAG32 of HMAC_VERIFY, else 0. -/
def flag0 : Instr → Bool
  | .dcfSample lvl _ => lvl
  | .hmacVerify tag32 => tag32
  | .nop | .nowRaw | .wallSeconds | .b64Decode | .shaInit | .shaUpdate | .shaFinal | .hmacCompute => false

/-- The command's flag F1 (R91): TSRC of DCF_SAMPLE, else 0. -/
def flag1 : Instr → Bool
  | .dcfSample _ tsrc => tsrc
  | .nop | .nowRaw | .wallSeconds | .b64Decode | .shaInit | .shaUpdate | .shaFinal | .hmacCompute
  | .hmacVerify _ => false

/-- The word of a command: {RSV = 0, F1, F0, OP} (R91, R103). -/
def encode (i : Instr) : Word :=
  (0#22 ++ BitVec.ofBool (flag1 i) ++ BitVec.ofBool (flag0 i) ++ opcode i : BitVec 32)

/-- Column `match` of R103 and of spec/opcode_table.json. -/
def rowMatch : Instr → Word
  | .nop => 0x00000000
  | .nowRaw => 0x00000001
  | .wallSeconds => 0x00000002
  | .dcfSample _ _ => 0x00000010
  | .b64Decode => 0x00000020
  | .shaInit => 0x00000030
  | .shaUpdate => 0x00000031
  | .shaFinal => 0x00000032
  | .hmacCompute => 0x00000040
  | .hmacVerify _ => 0x00000041

/-- Column `mask` of R103 and of spec/opcode_table.json. -/
def rowMask : Instr → Word
  | .dcfSample _ _ => 0xFFFFFCFF
  | .hmacVerify _ => 0xFFFFFEFF
  | .nop | .nowRaw | .wallSeconds | .b64Decode | .shaInit | .shaUpdate | .shaFinal | .hmacCompute => 0xFFFFFFFF

/-- Bytes of a bus value, in address order, as one number: byte 0 in bits 7:0 (spec/20_memory.md R61). -/
def leNat : List Byte → Nat
  | [] => 0
  | b :: bs => b.toNat + 256 * leNat bs

/-- Up to four bytes in address order as a 32-bit bus value (R61). -/
def leWord (bs : List Byte) : Word := BitVec.ofNat 32 (leNat bs)

/-- Byte j of a 32-bit bus value: bits 8j+7:8j (R61, R62). -/
def wordByte (v : Word) (j : Nat) : Byte := v.extractLsb' (8 * j) 8

/-- The decoder on a command word given as the four bytes the bus carries, lowest address first (R61). -/
def decodeBytes (bs : List Byte) : Except ErrCode Instr := decode (leWord bs)

/-- The instruction the decoder reads from a table row's bits, numbered as spec/opcode_table.json numbers them: bit 0 is
the least significant; bits above `nbits` are 0. -/
def decodeTableWord (nbits w : Nat) : Option Instr :=
  let v : Word := BitVec.ofNat 32 (w % 2 ^ nbits)
  match decodeBytes [wordByte v 0, wordByte v 1, wordByte v 2, wordByte v 3] with
  | .ok i => some i
  | .error _ => none

end Sys2Proof
end

