-- ==== Sys2Proof/Machine/Const.lean ====
section
/-! DEFINITION. The constants the spec gives as tables: H_INIT and K of SHA-256 (spec/41_sha256.md R141, R142), the month
table (spec/44_calendar.md R212), the ID word (spec/10_state.md R40), the HMAC pads (spec/42_hmac.md R170). -/

namespace Sys2Proof.Machine

/-- H_INIT (R141). -/
def hInit : Hash8 where
  h0 := 0x6a09e667
  h1 := 0xbb67ae85
  h2 := 0x3c6ef372
  h3 := 0xa54ff53a
  h4 := 0x510e527f
  h5 := 0x9b05688c
  h6 := 0x1f83d9ab
  h7 := 0x5be0cd19

/-- K[0..63] (R142), a row of the rule a line. -/
def roundK : List Word :=
  [0x428a2f98, 0x71374491, 0xb5c0fbcf, 0xe9b5dba5, 0x3956c25b, 0x59f111f1, 0x923f82a4, 0xab1c5ed5] ++
  [0xd807aa98, 0x12835b01, 0x243185be, 0x550c7dc3, 0x72be5d74, 0x80deb1fe, 0x9bdc06a7, 0xc19bf174] ++
  [0xe49b69c1, 0xefbe4786, 0x0fc19dc6, 0x240ca1cc, 0x2de92c6f, 0x4a7484aa, 0x5cb0a9dc, 0x76f988da] ++
  [0x983e5152, 0xa831c66d, 0xb00327c8, 0xbf597fc7, 0xc6e00bf3, 0xd5a79147, 0x06ca6351, 0x14292967] ++
  [0x27b70a85, 0x2e1b2138, 0x4d2c6dfc, 0x53380d13, 0x650a7354, 0x766a0abb, 0x81c2c92e, 0x92722c85] ++
  [0xa2bfe8a1, 0xa81a664b, 0xc24b8b70, 0xc76c51a3, 0xd192e819, 0xd6990624, 0xf40e3585, 0x106aa070] ++
  [0x19a4c116, 0x1e376c08, 0x2748774c, 0x34b0bcb5, 0x391c0cb3, 0x4ed8aa4a, 0x5b9cca4f, 0x682e6ff3] ++
  [0x748f82ee, 0x78a5636f, 0x84c87814, 0x8cc70208, 0x90befffa, 0xa4506ceb, 0xbef9a3f7, 0xc67178f2]

/-- At most 2^61 - 1 bytes a stream (spec/41_sha256.md R154). -/
def shaMaxBytes : Nat := 2 ^ 61 - 1

/-- ipad (spec/42_hmac.md R170). -/
def ipad : Byte := 0x36
/-- opad (spec/42_hmac.md R170). -/
def opad : Byte := 0x5C

/-- CUM[0..11]: days before the month in a common year (spec/44_calendar.md R212). -/
def cumDays : List Nat := [0, 31, 59, 90, 120, 151, 181, 212, 243, 273, 304, 334]

/-- `epoch_unix_seconds`: the UNIX time of 2000-01-01T00:00:00Z (spec/44_calendar.md R216). -/
def epochUnixSeconds : Nat := 946684800

/-- ID (spec/10_state.md R40): "SLTC", least significant byte first. -/
def idWord : Word := 0x43544C53

/-- FRAME_BITS (spec/00_scope.md R7). -/
def frameBits : Nat := 60

/-- CENTURY_CANDIDATES (spec/00_scope.md R7). -/
def centuryCandidates : Nat := 4

end Sys2Proof.Machine
end

