-- ==== Sys2Proof/Machine/State.lean ====
section
/-! DEFINITION. The state: everything spec/10_state.md R20 gives the block, the input signals of R39, and the model's own
fields (INVENTORY.md, State), as plain data; and the state right after reset (spec/70_reset_and_hazards.md R340). -/

namespace Sys2Proof.Machine

/-- Reasons to stop with a fault. There is none: the spec has no trap and nothing in the block is fatal
(spec/60_exceptions.md R306, and the introduction of that file); an error of a command is a value of STATUS (R301), a
BusError is a reply to the host (R304). Nobody raises one: safe. -/
inductive Fault where
deriving DecidableEq, Repr

/-- Reasons to refuse a command. -/
inductive Refusal where
  /-- Raised by an arm of `exec` whose command has no meaning yet: safe, the model gives no behaviour. No arm raises it
  now. -/
  | notModelled (mnemonic : String)
deriving DecidableEq, Repr

/-- What a step of this machine answers. -/
abbrev Result (σ : Type) := Host.Outcome σ Fault Refusal

/-- The registers private to one port: ARG (R23), RES (R24), STATUS (R25). CMD is no storage (R26). -/
structure PortRegs where
  arg0 : Word
  arg1 : Word
  arg2 : Word
  arg3 : Word
  res : DWord
  status : Word
deriving DecidableEq, Repr

/-- CLK.E (R27), CLK.PREV (R28), CLK.OFF (R29). -/
structure ClockRegs where
  e : BitVec 49
  prev : DWord
  off : DWord
deriving DecidableEq, Repr

/-- DCF.EVENT (R32); codes 8 to 15 are never written and have no constructor (notes/assumptions/11.md). -/
inductive DcfEvent where
  | none
  | gap
  | minute
  | riseCorrupt
  | bit0
  | bit1
  | fallCorrupt
  | overflow
deriving DecidableEq, Repr

/-- DCF.RESULT (R33); codes 17 to 31 are never written and have no constructor (notes/assumptions/11.md). -/
inductive DcfResult where
  | none
  | ok
  | badCount
  | leapBit
  | startMarker
  | timeMarker
  | parityMin
  | parityHour
  | parityDate
  | bcdMin
  | bcdHour
  | bcdDay
  | bcdDow
  | bcdMonth
  | bcdYear
  | utcOffset
  | century
deriving DecidableEq, Repr

/-- The DCF77 unit's state elements (R30). -/
structure DcfRegs where
  bits : BitVec 60
  count : BitVec 7
  level : Bool
  lastT : DWord
  event : DcfEvent
  result : DcfResult
  syncErr : Bool
  synced : Bool
  lastOkT : DWord
  lastTs : DWord
deriving DecidableEq, Repr

/-- SHA.PHASE (R34); value 3 is never written and has no constructor (notes/assumptions/11.md). -/
inductive ShaPhase where
  | idle
  | active
  | finalized
deriving DecidableEq, Repr

/-- The SHA-256 streaming context (R34). -/
structure ShaCtx where
  phase : ShaPhase
  h : Hash8
  blk : Vector Byte 64
  fill : BitVec 6
  nbytes : DWord
deriving DecidableEq, Repr

/-- BUF as the bytes written since reset, addresses (BUF indices) strictly rising; an unlisted address has no value here
(notes/assumptions/2.md says what a read of it gives). -/
abbrev Memory := List Host.Cell

/-- The bus's response to an access. -/
inductive Response where
  /-- The value a completed read returns (spec/20_memory.md R60); a read of n bytes gives it in its low 8n bits. -/
  | data (v : Word)
  /-- A write completed. -/
  | written
  /-- `BusError` (R60): the block's state is unchanged. -/
  | busError
  /-- `rst` is asserted: the block accepts no access (spec/70_reset_and_hazards.md R340; notes/assumptions/7.md). -/
  | notAccepted
deriving DecidableEq, Repr

/-- A response and the master it goes to. -/
structure Reply where
  master : Master
  response : Response
deriving DecidableEq, Repr

/-- The machine. The fields from `p0` to `buf` are the block's state (R20); `hwCnt` and `rst` are its inputs (R39); the
others are the model's own. -/
structure State where
  p0 : PortRegs
  p1 : PortRegs
  clk : ClockRegs
  dcf : DcfRegs
  sha : ShaCtx
  /-- DIGEST[0..31] (R35). -/
  digest : Vector Byte 32
  /-- KEY[0..31] (R36). -/
  key : Vector Byte 32
  /-- BUF (R37): the bytes written since reset. -/
  buf : Memory
  /-- The input `hw_cnt` (spec/43_clock.md R190). -/
  hwCnt : BitVec 16
  /-- The input `rst`. -/
  rst : Bool
  /-- MODEL: the parameters of spec/00_scope.md R7; never written. -/
  cfg : Config
  /-- MODEL: which draw of the free values holds (notes/assumptions/2.md). -/
  draws : Nat
  /-- MODEL: the agents' pending actions, next first (notes/assumptions/1.md). -/
  inbox : List Event
  /-- MODEL: the response to the latest access (notes/assumptions/5.md). -/
  reply : Option Reply
  /-- MODEL: the port whose command runs (notes/assumptions/4.md). -/
  port : Port
deriving DecidableEq, Repr

/-- Reset values of one port's registers (R23, R24, R25). -/
def PortRegs.reset : PortRegs :=
  { arg0 := 0, arg1 := 0, arg2 := 0, arg3 := 0, res := 0, status := 0 }

/-- Reset values of the clock unit (R27, R28, R29). -/
def ClockRegs.reset : ClockRegs := { e := 0, prev := 0, off := 0 }

/-- Reset values of the DCF77 unit (R30). -/
def DcfRegs.reset : DcfRegs where
  bits := 0
  count := 0
  level := false
  lastT := 0
  event := .none
  result := .none
  syncErr := false
  synced := false
  lastOkT := 0
  lastTs := 0

/-- Reset values of the SHA-256 context (R34): IDLE, H_INIT, the rest 0. -/
def ShaCtx.reset : ShaCtx where
  phase := .idle
  h := hInit
  blk := Vector.replicate 64 0
  fill := 0
  nbytes := 0

/-- The machine right after its first power-up and reset (spec/70_reset_and_hazards.md R340), with R7's default
parameters. BUF lists nothing: each of its bytes is the free value of draw 0; `hw_cnt` is not reset by the block and is the
free value of power-up 0. -/
def State.reset : State where
  p0 := PortRegs.reset
  p1 := PortRegs.reset
  clk := ClockRegs.reset
  dcf := DcfRegs.reset
  sha := ShaCtx.reset
  digest := Vector.replicate 32 0
  key := Vector.replicate 32 0
  buf := []
  hwCnt := Config.hwCntAtPowerUp 0
  rst := false
  cfg := Config.standard
  draws := 0
  inbox := []
  reply := none
  port := .p0

end Sys2Proof.Machine
end

