-- ==== Sys2Proof/Machine/Flags.lean ====
section
/-! DEFINITION. Every flag and code word the spec gives: STATUS (spec/10_state.md R25, spec/60_exceptions.md R300), the views
DCF_STAT (R31 with the codes of R32 and R33) and SHA_STAT (R34). -/

namespace Sys2Proof.Machine

/-- The code of an error (spec/60_exceptions.md R300). -/
def errCode : ErrCode → Byte
  | .illegalOp => 0x01
  | .badFlags => 0x02
  | .badRange => 0x03
  | .b64Length => 0x04
  | .b64Char => 0x05
  | .b64Pad => 0x06
  | .shaState => 0x07
  | .shaLength => 0x08

/-- A STATUS word from its fields (R25): OP 23:16, ERR 15:8, DONE 2, MATCH 1, OK 0; every other bit 0. -/
def statusWord (op err : Byte) (done m ok : Bool) : Word :=
  (0#8 ++ op ++ err ++ 0#5 ++ BitVec.ofBool done ++ BitVec.ofBool m ++ BitVec.ofBool ok : BitVec 32)

/-- `{OP, ERR = code, DONE = 1, MATCH = 0, OK = 0}` (spec/30_encoding.md R97). -/
def statusError (op : Byte) (e : ErrCode) : Word := statusWord op (errCode e) true false false

/-- `Done(op, 0, m)` (spec/30_encoding.md R98). -/
def statusDone (op : Byte) (m : Bool) : Word := statusWord op 0 true m true

/-- STATUS.OK (R25). -/
def statusOk (w : Word) : Bool := w.getLsbD 0
/-- STATUS.MATCH (R25). -/
def statusMatch (w : Word) : Bool := w.getLsbD 1
/-- STATUS.DONE (R25). -/
def statusDoneBit (w : Word) : Bool := w.getLsbD 2
/-- STATUS.ERR (R25). -/
def statusErr (w : Word) : Byte := w.extractLsb' 8 8
/-- STATUS.OP (R25). -/
def statusOp (w : Word) : Byte := w.extractLsb' 16 8

/-- The code of DCF.EVENT (R32). -/
def eventCode : DcfEvent → BitVec 4
  | .none => 0
  | .gap => 1
  | .minute => 2
  | .riseCorrupt => 3
  | .bit0 => 4
  | .bit1 => 5
  | .fallCorrupt => 6
  | .overflow => 7

/-- The code of DCF.RESULT (R33). -/
def resultCode : DcfResult → BitVec 5
  | .none => 0
  | .ok => 1
  | .badCount => 2
  | .leapBit => 3
  | .startMarker => 4
  | .timeMarker => 5
  | .parityMin => 6
  | .parityHour => 7
  | .parityDate => 8
  | .bcdMin => 9
  | .bcdHour => 10
  | .bcdDay => 11
  | .bcdDow => 12
  | .bcdMonth => 13
  | .bcdYear => 14
  | .utcOffset => 15
  | .century => 16

/-- The code of SHA.PHASE (R34). -/
def phaseCode : ShaPhase → BitVec 2
  | .idle => 0
  | .active => 1
  | .finalized => 2

/-- DCF_STAT (R31): SYNCED 18, SYNC_ERR 17, RESULT 16:12, EVENT 11:8, LEVEL 7, COUNT 6:0. -/
def dcfStatWord (d : DcfRegs) : Word :=
  (0#13 ++ BitVec.ofBool d.synced ++ BitVec.ofBool d.syncErr ++ resultCode d.result ++ eventCode d.event
    ++ BitVec.ofBool d.level ++ d.count : BitVec 32)

/-- SHA_STAT (R34): FILL 13:8, PHASE 1:0. -/
def shaStatWord (c : ShaCtx) : Word := (0#18 ++ c.fill ++ 0#6 ++ phaseCode c.phase : BitVec 32)

end Sys2Proof.Machine
end

