-- ==== Sys2Proof/Machine/Ops.lean ====
section
/-! DEFINITION. The named operations over memory and registers: BUF's memory, the ports, the completion of a command
(`Done`), taking an error (`raise E(code)`, the block's only exception), and reset. The block has no return from an
exception: an error transfers no control and saves nothing (spec/60_exceptions.md R306, R307). -/

namespace Sys2Proof.Machine

/-! ### Memory in canonical form -/

/-- What the memory lists at an address; none for an unlisted one. -/
def Memory.read : Memory → Nat → Option Byte
  | [], _ => none
  | (b, w) :: m, a => if a = b then some w else Memory.read m a

/-- Write one byte, keeping the addresses strictly rising. -/
def Memory.write : Memory → Nat → Byte → Memory
  | [], a, v => [(a, v)]
  | (b, w) :: m, a, v =>
    if a < b then (a, v) :: (b, w) :: m
    else if a = b then (a, v) :: m
    else (b, w) :: Memory.write m a v

/-- `BufWrite(off, bytes)` (spec/00_scope.md R10) on the memory: byte j to address off + j. -/
def Memory.writeBytes : Memory → Nat → List Byte → Memory
  | m, _, [] => m
  | m, a, b :: bs => Memory.writeBytes (m.write a b) (a + 1) bs

/-- Strictly rising addresses from `lo` on, all below `limit`. -/
def Memory.wfFrom (lo limit : Nat) : Memory → Bool
  | [] => true
  | (a, _) :: m => decide (lo ≤ a) && decide (a < limit) && Memory.wfFrom (a + 1) limit m

/-- The canonical form of BUF's memory: addresses strictly rising and below BUF_SIZE. An unlisted address has no value,
so no entry can equal it, and equal memories are equal lists. -/
def Memory.wf (limit : Nat) (m : Memory) : Bool := m.wfFrom 0 limit

/-! ### BUF -/

/-- BUF[i] (spec/10_state.md R37): the byte written there since reset, else the free value of the current draw
(notes/assumptions/2.md). -/
def State.bufByte (s : State) (i : Nat) : Byte := (s.buf.read i).getD (Config.bufAtReset s.draws i)

/-- `BufRead(off, n)` (spec/00_scope.md R10). -/
def State.bufRead (s : State) (off n : Nat) : List Byte := (List.range n).map fun j => s.bufByte (off + j)

/-- `BufWrite(off, bytes)` (spec/00_scope.md R10). -/
def State.bufWrite (s : State) (off : Nat) (bytes : List Byte) : State :=
  { s with buf := s.buf.writeBytes off bytes }

/-! ### Ports -/

/-- Port p's registers (spec/10_state.md R22). -/
def State.regs (s : State) : Port → PortRegs
  | .p0 => s.p0
  | .p1 => s.p1

/-- Replace port p's registers. -/
def State.setRegs (s : State) (p : Port) (r : PortRegs) : State :=
  match p with
  | .p0 => { s with p0 := r }
  | .p1 => { s with p1 := r }

/-- `STATUS[p] <- w`. -/
def State.setStatus (s : State) (p : Port) (w : Word) : State := s.setRegs p { s.regs p with status := w }

/-- `RES[p] <- v` (spec/10_state.md R24). -/
def State.setRes (s : State) (p : Port) (v : DWord) : State := s.setRegs p { s.regs p with res := v }

/-- ARG[p][k] (spec/10_state.md R23); there are four, k = 0 to 3. -/
def PortRegs.arg (r : PortRegs) (k : Fin 4) : Word :=
  match k with
  | 0 => r.arg0
  | 1 => r.arg1
  | 2 => r.arg2
  | 3 => r.arg3

/-- `ARG[p][k] <- v`, a bus write (spec/10_state.md R23). -/
def PortRegs.setArg (r : PortRegs) (k : Fin 4) (v : Word) : PortRegs :=
  match k with
  | 0 => { r with arg0 := v }
  | 1 => { r with arg1 := v }
  | 2 => { r with arg2 := v }
  | 3 => { r with arg3 := v }

/-! ### Completing a command, and taking an error -/

/-- `STATUS[p] <- Done(op, 0, m)` on the port whose command runs (spec/30_encoding.md R98). -/
def State.done (s : State) (op : Byte) (m : Bool) : State := s.setStatus s.port (statusDone op m)

/-- `raise E(code)` on the port whose command runs (spec/30_encoding.md R97, spec/60_exceptions.md R301): STATUS of that
port, and nothing else. -/
def State.raise (s : State) (op : Byte) (e : ErrCode) : State := s.setStatus s.port (statusError op e)

/-! ### Reset -/

/-- Every state element of the block at its reset value (spec/70_reset_and_hazards.md R340); BUF is drawn anew; `hw_cnt`
is not reset; the parameters and the model's own fields but `draws` stay. -/
def State.loadReset (s : State) : State :=
  { s with
    p0 := PortRegs.reset, p1 := PortRegs.reset, clk := ClockRegs.reset, dcf := DcfRegs.reset, sha := ShaCtx.reset,
    digest := Vector.replicate 32 0, key := Vector.replicate 32 0, buf := [], draws := s.draws + 1 }

/-- The input `rst` goes to a level (R340). While it is asserted, and right when it is released, every state element holds
its reset value; releasing an input that is not asserted changes nothing (notes/assumptions/7.md). -/
def State.driveRst (s : State) (level : Bool) : State :=
  if level then { s.loadReset with rst := true }
  else if s.rst then { s.loadReset with rst := false }
  else s

/-- Power is lost and comes back: everything is lost, and the power-up is a reset (spec/60_exceptions.md R315); the
external counter holds any value (notes/assumptions/3.md, 8.md). -/
def State.powerCycle (s : State) : State :=
  { s.loadReset with rst := false, hwCnt := Config.hwCntAtPowerUp (s.draws + 1) }

/-- One Timebase tick (spec/43_clock.md R190). -/
def State.tick (s : State) : State := { s with hwCnt := s.hwCnt + 1 }

/-- The output `dcf_sync_err` (spec/10_state.md R39). -/
def State.dcfSyncErrOut (s : State) : Bool := s.dcf.syncErr

end Sys2Proof.Machine
end

