-- ==== Sys2Proof/Machine/Operands.lean ====
section
/-! DEFINITION. Every operand form of spec/30_encoding.md R92 and R94, and the range check of R95. Operands are read from the
issuing port's own ARG registers, whole. -/

namespace Sys2Proof.Machine

/-- ARG[p][k] of the port whose command runs (R92). -/
def State.arg (s : State) (k : Fin 4) : Word := (s.regs s.port).arg k

/-- An offset or length operand: the whole u32, zero-extended to a natural number (R92). -/
def State.argNat (s : State) (k : Fin 4) : Nat := (s.arg k).toNat

/-- The 64-bit timestamp operand {ARG[p][1], ARG[p][0]} (R92). -/
def State.argTime (s : State) : DWord := (s.arg 1 ++ s.arg 0 : BitVec 64)

/-- `Range(off, len)`: off + len ≤ BUF_SIZE over the naturals (R95). -/
def State.rangeOk (s : State) (off len : Nat) : Bool := decide (off + len ≤ s.cfg.bufSize)

end Sys2Proof.Machine
end

