-- ==== Sys2Proof/Machine/Base64.lean ====
section
/-! DEFINITION. The base64 unit (spec/40_base64.md): alphabet, virtual padding, pad and character checks, quadruplet
decoding, and the command B64_DECODE. -/

namespace Sys2Proof.Machine

/-- The pad character `=` (R120). -/
def padChar : Byte := 0x3D

/-- The sextet value of an alphabet character; none outside the alphabet (R120). -/
def sextet (c : Byte) : Option Nat :=
  let n := c.toNat
  if 0x41 ≤ n ∧ n ≤ 0x5A then some (n - 0x41)
  else if 0x61 ≤ n ∧ n ≤ 0x7A then some (n - 0x61 + 26)
  else if 0x30 ≤ n ∧ n ≤ 0x39 then some (n - 0x30 + 52)
  else if n = 0x2B then some 62
  else if n = 0x2F then some 63
  else none

/-- S, the input with its virtual padding; none when no padding makes a whole quadruplet (R121). -/
def virtualPad (s0 : List Byte) : Option (List Byte) :=
  match s0.length % 4 with
  | 0 => some s0
  | 2 => some (s0 ++ [padChar, padChar])
  | 3 => some (s0 ++ [padChar])
  | _ => none

/-- p, the number of trailing `=` of S (R122). -/
def trailingPads (s : List Byte) : Nat := (s.reverse.takeWhile fun c => c == padChar).length

/-- q = min(p, 2) (R122). -/
def padCount (s : List Byte) : Nat := min (trailingPads s) 2

/-- The first data character outside the alphabet, scanned from index 0 (R122). -/
def firstBadChar (s : List Byte) : Option Byte :=
  (s.take (s.length - padCount s)).find? fun c => (sextet c).isNone

/-- The three bytes of a quadruplet: v = s0·2^18 + s1·2^12 + s2·2^6 + s3, most significant byte first; a pad character
gives sextet 0 (R123). -/
def quadBytes (c0 c1 c2 c3 : Byte) : List Byte :=
  let sx (c : Byte) : Nat := (sextet c).getD 0
  let v := sx c0 * 2 ^ 18 + sx c1 * 2 ^ 12 + sx c2 * 2 ^ 6 + sx c3
  [BitVec.ofNat 8 (v / 2 ^ 16), BitVec.ofNat 8 (v / 2 ^ 8), BitVec.ofNat 8 v]

/-- The bytes of all quadruplets in order (R123). -/
def quadsBytes : List Byte → List Byte
  | c0 :: c1 :: c2 :: c3 :: rest => quadBytes c0 c1 c2 c3 ++ quadsBytes rest
  | _ => []

/-- n = 3·(Lp/4) - q (R124). -/
def decodedLength (s : List Byte) : Nat := 3 * (s.length / 4) - padCount s

/-- Decode(S): of the last quadruplet only 3 - q bytes are output (R123). -/
def decodeQuads (s : List Byte) : List Byte := (quadsBytes s).take (decodedLength s)

/-- The decoder on an input string: the output, or the first error in R125's check order. -/
def base64Decode (s0 : List Byte) : Except ErrCode (List Byte) :=
  match virtualPad s0 with
  | none => .error .b64Length
  | some s =>
    match firstBadChar s with
    | some c => if c = padChar then .error .b64Pad else .error .b64Char
    | none => .ok (decodeQuads s)

/-- B64_DECODE (R125). -/
def execB64Decode (s : State) : Result State :=
  if s.rangeOk (s.argNat 0) (s.argNat 1) then
    match base64Decode (s.bufRead (s.argNat 0) (s.argNat 1)) with
    | .error e => .next (s.raise 0x20 e)
    | .ok out => .next (((s.bufWrite (s.argNat 0) out).setRes s.port (BitVec.ofNat 64 out.length)).done 0x20 false)
  else .next (s.raise 0x20 .badRange)

end Sys2Proof.Machine
end

