-- ==== Sys2Proof/Machine/Clock.lean ====
section
/-! DEFINITION. The clock unit (spec/43_clock.md): the wrap extension NowRaw, wall-clock seconds and the offset, and the
commands NOW_RAW and WALL_SECONDS. -/

namespace Sys2Proof.Machine

/-- {E, hw_cnt[14:0]} (R191). -/
def clockValue (e : BitVec 49) (c : BitVec 16) : DWord := (e ++ c.extractLsb' 0 15 : BitVec 64)

/-- The parity step of R192: E' is E, or E + 1 when the counter's top bit differs from E's parity. -/
def halfWrapStep (e : BitVec 49) (c : BitVec 16) : BitVec 49 :=
  if c.getLsbD 15 != e.getLsbD 0 then e + 1 else e

/-- NowRaw() as a function of CLK.E, CLK.PREV and the one sample of hw_cnt (R192): the new CLK.E, and the value returned,
which is also the new CLK.PREV. -/
def nowRawValue (e : BitVec 49) (prev : DWord) (c : BitVec 16) : BitVec 49 × DWord :=
  let e' := halfWrapStep e c
  let v := clockValue e' c
  if v < prev then (e' + 2, v + 0x10000) else (e', v)

/-- The value NowRaw() returns in a state (R192). -/
def State.nowRawResult (s : State) : DWord := (nowRawValue s.clk.e s.clk.prev s.hwCnt).2

/-- The state NowRaw() leaves: CLK.E and CLK.PREV written (R192). -/
def State.nowRawState (s : State) : State :=
  { s with clk := { s.clk with e := (nowRawValue s.clk.e s.clk.prev s.hwCnt).1, prev := s.nowRawResult } }

/-- WallSeconds(v) = (v / 1000000 + OFF) mod 2^64 (R196). -/
def wallSeconds (off v : DWord) : DWord := v / 1000000 + off

/-- SetWallClock(mono, unix): CLK.OFF <- (unix - mono / 1000000) mod 2^64 (R198). -/
def State.setWallClock (s : State) (mono unix : DWord) : State :=
  { s with clk := { s.clk with off := unix - mono / 1000000 } }

/-- NOW_RAW (R195). -/
def execNowRaw (s : State) : Result State :=
  .next ((s.nowRawState.setRes s.port s.nowRawResult).done 0x01 false)

/-- WALL_SECONDS (R197). -/
def execWallSeconds (s : State) : Result State :=
  .next ((s.nowRawState.setRes s.port (wallSeconds s.clk.off s.nowRawResult)).done 0x02 false)

end Sys2Proof.Machine
end

