-- ==== Sys2Proof/Machine/Control.lean ====
section
/-! DEFINITION. The control command NOP (spec/46_nop.md). -/

namespace Sys2Proof.Machine

/-- NOP (spec/46_nop.md R280). -/
def execNop (s : State) : Result State := .next (s.done 0x00 false)

end Sys2Proof.Machine
end

