-- ==== Sys2Proof/Machine/Calendar.lean ====
section
/-! DEFINITION. The calendar unit (spec/44_calendar.md): pure functions over naturals, for years from 2000 on (R217; the
configuration's BASE_YEAR is at least 2000, so the DCF77 analysis calls them with no other). -/

namespace Sys2Proof.Machine

/-- IsLeap(y) (R210). -/
def isLeap (y : Nat) : Bool := y % 4 == 0 && (y % 100 != 0 || y % 400 == 0)

/-- DaysSinceEpoch(y), y ≥ 2000: the days from 2000-01-01 to January 1 of y (R211). -/
def daysSinceEpoch (y : Nat) : Nat :=
  let n := y - 2000
  365 * n + (n + 3) / 4 - (n + 99) / 100 + (n + 399) / 400

/-- DayOfYear(y, m, d) (R213): the leap day counts from March on. -/
def dayOfYear (y m d : Nat) : Nat := cumDays.getD (m - 1) 0 + d + (if isLeap y && decide (3 ≤ m) then 1 else 0)

/-- DayNumber(y, m, d): the days from 2000-01-01 to the date (R214). -/
def dayNumber (y m d : Nat) : Nat := daysSinceEpoch y + dayOfYear y m d - 1

/-- DayOfWeek(y, m, d), 1 = Monday to 7 = Sunday (R215). -/
def dayOfWeek (y m d : Nat) : Nat := (dayNumber y m d + 5) % 7 + 1

/-- Timestamp(y, m, d): UNIX seconds at 00:00:00 UTC of the date (R216). -/
def timestamp (y m d : Nat) : Nat := dayNumber y m d * 86400 + epochUnixSeconds

end Sys2Proof.Machine
end

