-- ==== Sys2Proof/Machine/Dcf77.lean ====
section
/-! DEFINITION. The DCF77 unit (spec/45_dcf77.md): edge classification, frame accumulation, frame analysis, liveness, and
the command DCF_SAMPLE. -/

namespace Sys2Proof.Machine

/-! ### The frame's fields -/

/-- Bit i of a frame (spec/00_scope.md R8). -/
def frameBit (b : BitVec 60) (i : Nat) : Bool := b.getLsbD i

/-- Even parity over b[i..j], both ends included (R241). -/
def evenParity (b : BitVec 60) (i j : Nat) : Bool :=
  !((List.range (j + 1 - i)).foldl (fun acc k => acc ^^ frameBit b (i + k)) false)

/-- The n frame bits from i on as a binary digit, least significant first (R243). -/
def frameDigit (b : BitVec 60) (i n : Nat) : Nat := (b.extractLsb' i n).toNat

/-- minute = mo1 + 10 mo10 (R243). -/
def frameMinute (b : BitVec 60) : Nat := frameDigit b 21 4 + 10 * frameDigit b 25 3
/-- hour = h1 + 10 h10 (R243). -/
def frameHour (b : BitVec 60) : Nat := frameDigit b 29 4 + 10 * frameDigit b 33 2
/-- day = d1 + 10 d10 (R243). -/
def frameDay (b : BitVec 60) : Nat := frameDigit b 36 4 + 10 * frameDigit b 40 2
/-- The day of week w (R243). -/
def frameDow (b : BitVec 60) : Nat := frameDigit b 42 3
/-- month = m1 + 10 m10 (R243). -/
def frameMonth (b : BitVec 60) : Nat := frameDigit b 45 4 + 10 * frameDigit b 49 1
/-- yy = y1 + 10 y10 (R243). -/
def frameYear (b : BitVec 60) : Nat := frameDigit b 50 4 + 10 * frameDigit b 54 4
/-- u = 2 b[17] + b[18], hours (R245). -/
def frameUtc (b : BitVec 60) : Nat := 2 * (frameBit b 17).toNat + (frameBit b 18).toNat

/-! ### The range checks of R244 and R245 -/

def minuteOk (b : BitVec 60) : Bool := decide (frameDigit b 21 4 ≤ 9) && decide (frameMinute b ≤ 59)
def hourOk (b : BitVec 60) : Bool := decide (frameDigit b 29 4 ≤ 9) && decide (frameHour b ≤ 23)
def dayOk (b : BitVec 60) : Bool :=
  decide (frameDigit b 36 4 ≤ 9) && frameDay b != 0 && decide (frameDay b ≤ 31)
def dowOk (b : BitVec 60) : Bool := frameDow b != 0
def monthOk (b : BitVec 60) : Bool :=
  decide (frameDigit b 45 4 ≤ 9) && frameMonth b != 0 && decide (frameMonth b ≤ 12)
def yearOk (b : BitVec 60) : Bool := decide (frameDigit b 50 4 ≤ 9) && decide (frameDigit b 54 4 ≤ 9)

/-- R245: under `strict`, u is 1 or 2. -/
def utcOk (p : Params) (b : BitVec 60) : Bool :=
  match p.utcCheck with
  | .strict => frameUtc b == 1 || frameUtc b == 2
  | .none => true

/-! ### Resolution and analysis -/

/-- The century candidates BASE_YEAR + 100 i + yy in order (R247). -/
def centuryYears (p : Params) (yy : Nat) : List Nat :=
  (List.range centuryCandidates).map fun i => p.baseYear + 100 * i + yy

/-- R247: the first candidate whose day of week is the one sent. -/
def resolveYear (p : Params) (b : BitVec 60) : Option Nat :=
  (centuryYears p (frameYear b)).find? fun c => dayOfWeek c (frameMonth b) (frameDay b) == frameDow b

/-- ts of a frame resolved to year y, over the naturals (R248). -/
def frameTimestamp (y : Nat) (b : BitVec 60) : Nat :=
  timestamp y (frameMonth b) (frameDay b) + frameHour b * 3600 + frameMinute b * 60 - frameUtc b * 3600

/-- The fifteen checks of R240 in their order, on n = DCF.COUNT and b = DCF.BITS: the code of the first that fails, or
the timestamp of a frame that passes them all. -/
def analyzeFrame (p : Params) (n : Nat) (b : BitVec 60) : Except DcfResult Nat :=
  if n ≠ 59 ∧ n ≠ 60 then .error .badCount
  else if n = 60 ∧ frameBit b 59 = true then .error .leapBit
  else if frameBit b 0 = true then .error .startMarker
  else if frameBit b 20 = false then .error .timeMarker
  else if evenParity b 21 28 = false then .error .parityMin
  else if evenParity b 29 35 = false then .error .parityHour
  else if evenParity b 36 58 = false then .error .parityDate
  else if minuteOk b = false then .error .bcdMin
  else if hourOk b = false then .error .bcdHour
  else if dayOk b = false then .error .bcdDay
  else if dowOk b = false then .error .bcdDow
  else if monthOk b = false then .error .bcdMonth
  else if yearOk b = false then .error .bcdYear
  else if utcOk p b = false then .error .utcOffset
  else match resolveYear p b with
    | none => .error .century
    | some y => .ok (frameTimestamp y b)

/-- `DCF.RESULT <- r`. -/
def State.setDcfResult (s : State) (r : DcfResult) : State := { s with dcf := { s.dcf with result := r } }

/-- Success (R250): RESULT OK, SetWallClock(t, ts), LAST_TS, LAST_OK_T, SYNCED, SYNC_ERR. -/
def State.acceptFrame (s : State) (t ts : DWord) : State :=
  let s1 := s.setWallClock t ts
  { s1 with dcf := { s1.dcf with result := .ok, lastTs := ts, lastOkT := t, synced := true, syncErr := false } }

/-- Analyze(t) (R240, R250, R251). -/
def State.analyze (s : State) (t : DWord) : State :=
  match analyzeFrame s.cfg.toParams s.dcf.count.toNat s.dcf.bits with
  | .error r => s.setDcfResult r
  | .ok ts => s.acceptFrame t (BitVec.ofNat 64 ts)

/-! ### Edges -/

/-- InWin(d, lo, hi), both ends included, unsigned (R237). -/
def inWin (d : DWord) (lo hi : Nat) : Bool := decide (lo ≤ d.toNat) && decide (d.toNat ≤ hi)

/-- `DCF.EVENT <- e`. -/
def State.setDcfEvent (s : State) (e : DcfEvent) : State := { s with dcf := { s.dcf with event := e } }

/-- `DCF.COUNT <- 0`: Discard() of R236, and the end of a minute (R234). DCF.BITS keeps its bits. -/
def State.discard (s : State) : State := { s with dcf := { s.dcf with count := 0 } }

/-- Rise(d, t) (R234). -/
def State.rise (s : State) (d t : DWord) : State :=
  if inWin d s.cfg.tGapLo s.cfg.tGapHi then s.setDcfEvent .gap
  else if inWin d s.cfg.tMinLo s.cfg.tMinHi then ((s.analyze t).discard).setDcfEvent .minute
  else s.discard.setDcfEvent .riseCorrupt

/-- b with bit n set to v. -/
def setFrameBit (b : BitVec 60) (n : Nat) (v : Bool) : BitVec 60 :=
  if v then b ||| (1#60 <<< n) else b &&& ~~~(1#60 <<< n)

/-- The last part of Fall(d) (R235), for a pulse that is bit v: OVERFLOW at FRAME_BITS bits, else append. -/
def State.appendBit (s : State) (v : Bool) : State :=
  if s.dcf.count.toNat = frameBits then s.discard.setDcfEvent .overflow
  else
    { s with dcf := { s.dcf with
        bits := setFrameBit s.dcf.bits s.dcf.count.toNat v
        count := s.dcf.count + 1
        event := if v then .bit1 else .bit0 } }

/-- Fall(d) (R235). -/
def State.fall (s : State) (d : DWord) : State :=
  if inWin d s.cfg.tBit0Lo s.cfg.tBit0Hi then s.appendBit false
  else if inWin d s.cfg.tBit1Lo s.cfg.tBit1Hi then s.appendBit true
  else s.discard.setDcfEvent .fallCorrupt

/-- DcfStep(lvl, t) (R233). -/
def State.dcfStep (s : State) (lvl : Bool) (t : DWord) : State :=
  if lvl = s.dcf.level then s.setDcfEvent .none
  else
    let d := t - s.dcf.lastT
    let s1 : State := { s with dcf := { s.dcf with level := lvl, lastT := t } }
    if lvl then s1.rise d t else s1.fall d

/-- Liveness(t) (R238). -/
def State.liveness (s : State) (t : DWord) : State :=
  if (t - s.dcf.lastOkT).toNat > s.cfg.livenessUs then { s with dcf := { s.dcf with syncErr := true } } else s

/-- A sample (lvl, t) handled: DcfStep, then Liveness (R232). -/
def State.dcfSampleAt (s : State) (lvl : Bool) (t : DWord) : State := (s.dcfStep lvl t).liveness t

/-- DCF_SAMPLE (R232): with TSRC = 1 the timestamp is NowRaw(), also put in RES; with TSRC = 0 it is {ARG1, ARG0}. -/
def execDcfSample (lvl tsrc : Bool) (s : State) : Result State :=
  if tsrc then
    .next (((s.nowRawState.setRes s.port s.nowRawResult).dcfSampleAt lvl s.nowRawResult).done 0x10 false)
  else
    .next ((s.dcfSampleAt lvl s.argTime).done 0x10 false)

end Sys2Proof.Machine
end

