-- ==== Sys2Proof/Machine/Sha256.lean ====
section
/-! DEFINITION. The SHA-256 core (spec/41_sha256.md): word functions, message schedule, rounds, compression, the streaming
helpers, the one-shot digest, and the commands SHA_INIT, SHA_UPDATE, SHA_FINAL. -/

namespace Sys2Proof.Machine

/-! ### Word functions (R140) -/

def shaCh (x y z : Word) : Word := (x &&& y) ^^^ (~~~x &&& z)
def shaMaj (x y z : Word) : Word := (x &&& y) ^^^ (x &&& z) ^^^ (y &&& z)
/-- Σ0. -/
def bigSigma0 (x : Word) : Word := x.rotateRight 2 ^^^ x.rotateRight 13 ^^^ x.rotateRight 22
/-- Σ1. -/
def bigSigma1 (x : Word) : Word := x.rotateRight 6 ^^^ x.rotateRight 11 ^^^ x.rotateRight 25
/-- σ0. -/
def smallSigma0 (x : Word) : Word := x.rotateRight 7 ^^^ x.rotateRight 18 ^^^ (x >>> 3)
/-- σ1. -/
def smallSigma1 (x : Word) : Word := x.rotateRight 17 ^^^ x.rotateRight 19 ^^^ (x >>> 10)

/-! ### Compression -/

/-- W[t], t < 16: the big-endian word {B[4t], B[4t+1], B[4t+2], B[4t+3]} (R148). -/
def blockWord (b : List Byte) (t : Nat) : Word :=
  (b.getD (4 * t) 0 ++ b.getD (4 * t + 1) 0 ++ b.getD (4 * t + 2) 0 ++ b.getD (4 * t + 3) 0 : BitVec 32)

/-- n further schedule words, with the words so far newest first: W[t-2], W[t-7], W[t-15], W[t-16] are at places 1, 6,
14, 15 (R148). -/
def extendSchedule (ws : List Word) : Nat → List Word
  | 0 => ws
  | n + 1 =>
    extendSchedule
      ((smallSigma1 (ws.getD 1 0) + ws.getD 6 0 + smallSigma0 (ws.getD 14 0) + ws.getD 15 0) :: ws) n

/-- W[0..63] of a 64-byte block (R148). -/
def schedule (b : List Byte) : List Word :=
  (extendSchedule ((List.range 16).map (blockWord b)).reverse 48).reverse

/-- One round with K[t] and W[t]; the working variables a..h are `h0`..`h7` (R149). -/
def shaRound (v : Hash8) (kw : Word × Word) : Hash8 :=
  let t1 := v.h7 + bigSigma1 v.h4 + shaCh v.h4 v.h5 v.h6 + kw.1 + kw.2
  let t2 := bigSigma0 v.h0 + shaMaj v.h0 v.h1 v.h2
  { h0 := t1 + t2, h1 := v.h0, h2 := v.h1, h3 := v.h2, h4 := v.h3 + t1, h5 := v.h4, h6 := v.h5, h7 := v.h6 }

/-- Word-by-word sum modulo 2^32 (R150). -/
def hashAdd (x y : Hash8) : Hash8 where
  h0 := x.h0 + y.h0
  h1 := x.h1 + y.h1
  h2 := x.h2 + y.h2
  h3 := x.h3 + y.h3
  h4 := x.h4 + y.h4
  h5 := x.h5 + y.h5
  h6 := x.h6 + y.h6
  h7 := x.h7 + y.h7

/-- Compress(H, B) (R150). -/
def compress (h : Hash8) (b : List Byte) : Hash8 := hashAdd h ((roundK.zip (schedule b)).foldl shaRound h)

/-! ### Streaming helpers -/

/-- One byte of Absorb (R144): into SHA.BLK at SHA.FILL; a full block is compressed at once. SHA.NBYTES and SHA.PHASE
stay. -/
def absorbByte (c : ShaCtx) (x : Byte) : ShaCtx :=
  let blk := c.blk.set c.fill.toNat x c.fill.isLt
  if c.fill = 63 then { c with h := compress c.h blk.toList, blk := blk, fill := 0 }
  else { c with blk := blk, fill := c.fill + 1 }

/-- The byte loop of Absorb (R144), and the absorption of padding by SHA_FINAL (R147): SHA.NBYTES stays. -/
def absorbBytes (c : ShaCtx) (bytes : List Byte) : ShaCtx := bytes.foldl absorbByte c

/-- Absorb(bytes) (R144). -/
def absorb (c : ShaCtx) (bytes : List Byte) : ShaCtx :=
  { absorbBytes c bytes with nbytes := BitVec.ofNat 64 (c.nbytes.toNat + bytes.length) }

/-- A number as 8 bytes, most significant first (R146). -/
def be64 (n : Nat) : List Byte := (List.range 8).map fun j => BitVec.ofNat 8 (n / 2 ^ (8 * (7 - j)))

/-- Pad() for N bytes (R146): 0x80, (55 - N) mod 64 zero bytes, the bit length 8·N. -/
def shaPad (n : Nat) : List Byte :=
  0x80 :: (List.replicate (((55 : Int) - (n : Int)) % 64).toNat 0 ++ be64 (8 * n))

/-- Word i of a chaining value. -/
def hashWord (h : Hash8) : Nat → Word
  | 0 => h.h0
  | 1 => h.h1
  | 2 => h.h2
  | 3 => h.h3
  | 4 => h.h4
  | 5 => h.h5
  | 6 => h.h6
  | _ => h.h7

/-- The digest: byte 4i + j is H[i][31-8j : 24-8j] (R151). -/
def digestOf (h : Hash8) : Vector Byte 32 :=
  Vector.ofFn fun k : Fin 32 => (hashWord h (k.val / 4)).extractLsb' (24 - 8 * (k.val % 4)) 8

/-- The context SHA_INIT starts (R143): H_INIT, an empty block, no bytes, ACTIVE. -/
def shaStart : ShaCtx := { ShaCtx.reset with phase := .active }

/-- Sha256(m) (R152): the digest reached from H_INIT by absorbing m and its padding. -/
def sha256 (m : List Byte) : Vector Byte 32 := digestOf (absorbBytes shaStart (m ++ shaPad m.length)).h

/-! ### Commands -/

/-- SHA_INIT (R143). -/
def execShaInit (s : State) : Result State := .next (({ s with sha := shaStart } : State).done 0x30 false)

/-- SHA_UPDATE (R145). -/
def execShaUpdate (s : State) : Result State :=
  if s.rangeOk (s.argNat 0) (s.argNat 1) then
    if s.sha.phase = .active then
      if s.sha.nbytes.toNat + s.argNat 1 > shaMaxBytes then .next (s.raise 0x31 .shaLength)
      else
        .next (({ s with sha := absorb s.sha (s.bufRead (s.argNat 0) (s.argNat 1)) } : State).done 0x31 false)
    else .next (s.raise 0x31 .shaState)
  else .next (s.raise 0x31 .badRange)

/-- The context after SHA_FINAL's padding (R147): FINALIZED, SHA.NBYTES kept. -/
def shaFinish (c : ShaCtx) : ShaCtx := { absorbBytes c (shaPad c.nbytes.toNat) with phase := .finalized }

/-- SHA_FINAL (R147). -/
def execShaFinal (s : State) : Result State :=
  if s.sha.phase = .active then
    .next (({ s with sha := shaFinish s.sha, digest := digestOf (shaFinish s.sha).h } : State).done 0x32 false)
  else .next (s.raise 0x32 .shaState)

end Sys2Proof.Machine
end

