-- ==== Sys2Proof/Machine/Hmac.lean ====
section
/-! DEFINITION. The HMAC-SHA256 controller (spec/42_hmac.md): the function, the constant-time comparison, and the commands
HMAC_COMPUTE and HMAC_VERIFY. -/

namespace Sys2Proof.Machine

/-- K0 ⊕ (64 × pad), K0 the key zero-padded to 64 bytes (R170). -/
def keyBlock (key : Vector Byte 32) (pad : Byte) : List Byte :=
  (key.toList ++ List.replicate 32 0).map fun k => k ^^^ pad

/-- HmacSha256(key, m) (R170). -/
def hmacSha256 (key : Vector Byte 32) (m : List Byte) : Vector Byte 32 :=
  sha256 (keyBlock key opad ++ (sha256 (keyBlock key ipad ++ m)).toList)

/-- The loop of CtEqual(a, b, n) (R173): acc, and how many byte pairs were combined (the work of the comparison,
spec/70_reset_and_hazards.md R361). No early exit. -/
def ctCompare (a b : List Byte) (n : Nat) : Byte × Nat :=
  (List.range n).foldl (fun acc i => (acc.1 ||| (a.getD i 0 ^^^ b.getD i 0), acc.2 + 1)) (0, 0)

/-- CtEqual(a, b, n) (R173). -/
def ctEqual (a b : List Byte) (n : Nat) : Bool := (ctCompare a b n).1 == 0

/-- ShaClobber() (R175): the context goes back to IDLE with its reset values. -/
def State.shaClobber (s : State) : State := { s with sha := ShaCtx.reset }

/-- The tag length: 32 if TAG32 = 1, else 16 (R174). -/
def tagBytes (tag32 : Bool) : Nat := if tag32 then 32 else 16

/-- HMAC_COMPUTE (R172). -/
def execHmacCompute (s : State) : Result State :=
  if s.rangeOk (s.argNat 0) (s.argNat 1) then
    .next (({ s with digest := hmacSha256 s.key (s.bufRead (s.argNat 0) (s.argNat 1)) } : State).shaClobber.done
      0x40 false)
  else .next (s.raise 0x40 .badRange)

/-- m of HMAC_VERIFY (R174): the first n bytes of the computed HMAC are the n tag bytes in BUF. -/
def State.tagMatches (s : State) (tag32 : Bool) : Bool :=
  ctEqual (hmacSha256 s.key (s.bufRead (s.argNat 0) (s.argNat 1))).toList
    (s.bufRead (s.argNat 2) (tagBytes tag32)) (tagBytes tag32)

/-- HMAC_VERIFY (R174): the message range is checked before the tag range. -/
def execHmacVerify (tag32 : Bool) (s : State) : Result State :=
  if s.rangeOk (s.argNat 0) (s.argNat 1) then
    if s.rangeOk (s.argNat 2) (tagBytes tag32) then
      .next (s.shaClobber.done 0x41 (s.tagMatches tag32))
    else .next (s.raise 0x41 .badRange)
  else .next (s.raise 0x41 .badRange)

end Sys2Proof.Machine
end

