-- ==== Sys2Proof/Machine/Dispatch.lean ====
section
/-! DEFINITION. The dispatch: one arm per command (spec/30_encoding.md R93). -/

namespace Sys2Proof.Machine

def exec (i : Instr) (s : State) : Host.Outcome State Fault Refusal :=
  match i with
  | .nop => Sys2Proof.Machine.execNop s
  | .nowRaw => Sys2Proof.Machine.execNowRaw s
  | .wallSeconds => Sys2Proof.Machine.execWallSeconds s
  | .dcfSample lvl tsrc => Sys2Proof.Machine.execDcfSample lvl tsrc s
  | .b64Decode => Sys2Proof.Machine.execB64Decode s
  | .shaInit => Sys2Proof.Machine.execShaInit s
  | .shaUpdate => Sys2Proof.Machine.execShaUpdate s
  | .shaFinal => Sys2Proof.Machine.execShaFinal s
  | .hmacCompute => Sys2Proof.Machine.execHmacCompute s
  | .hmacVerify tag32 => Sys2Proof.Machine.execHmacVerify tag32 s

end Sys2Proof.Machine
end

