-- ==== Sys2Proof/Machine/Command.lean ====
section
/-! DEFINITION. Command(p, w) (spec/30_encoding.md R90): a word written to a port's CMD register. -/

namespace Sys2Proof.Machine

/-- Command(p, w) (R90): the word is decoded; a word that is no command raises its error on port p (R97, R99, R100);
a command runs on port p. -/
def command (p : Port) (w : Word) (s : State) : Result State :=
  let s1 : State := { s with port := p }
  match decode w with
  | .error e => .next (s1.raise (fieldOp w) e)
  | .ok i => exec i s1

end Sys2Proof.Machine
end

