-- ==== Sys2Proof/Machine/Bus.lean ====
section
/-! DEFINITION. The bus (spec/20_memory.md): the address map of R70, what an access reaches, reads, and writes. -/

namespace Sys2Proof.Machine

/-- A register of the map of R70. -/
inductive Reg where
  | cmd (p : Port)
  | status (p : Port)
  | arg (p : Port) (k : Fin 4)
  | resLo (p : Port)
  | resHi (p : Port)
  | id
  | dcfStat
  | dcfBitsLo
  | dcfBitsHi
  | dcfEdgeLo
  | dcfEdgeHi
  | dcfOkLo
  | dcfOkHi
  | dcfTsLo
  | dcfTsHi
  | clkExtLo
  | clkExtHi
  | clkPrevLo
  | clkPrevHi
  | clkOffLo
  | clkOffHi
  | shaStat
deriving DecidableEq, Repr

/-- The eight registers of a port, in address order (R70). -/
def portMap (p : Port) : List Reg :=
  [.cmd p, .status p, .arg p 0, .arg p 1, .arg p 2, .arg p 3, .resLo p, .resHi p]

/-- The registers of R70 in address order, four bytes each, from offset 0x000 to 0x083. -/
def regMap : List Reg :=
  portMap .p0 ++ portMap .p1 ++
  [.id, .dcfStat, .dcfBitsLo, .dcfBitsHi, .dcfEdgeLo, .dcfEdgeHi, .dcfOkLo, .dcfOkHi] ++
  [.dcfTsLo, .dcfTsHi, .clkExtLo, .clkExtHi, .clkPrevLo, .clkPrevHi, .clkOffLo, .clkOffHi] ++
  [.shaStat]

/-- What an offset of the window is part of (R70); an index is the byte's place in its window (R62). -/
inductive Target where
  | reg (r : Reg)
  | reserved
  | digest (i : Nat)
  | key (i : Nat)
  | buf (i : Nat)
deriving DecidableEq, Repr

/-- The target at a block offset (R70). -/
def targetAt (bufSize off : Nat) : Target :=
  match regMap[off / 4]? with
  | some r => .reg r
  | none =>
    if off < 0x100 then .reserved
    else if off < 0x120 then .digest (off - 0x100)
    else if off < 0x140 then .key (off - 0x120)
    else if 0x200 ≤ off ∧ off < 0x200 + bufSize then .buf (off - 0x200)
    else .reserved

/-- A register takes 4-byte accesses only (R63); a byte window and a reserved offset any width (R62, R65): R65 holds at the
reserved offsets 0x084 to 0x0FF too, where R70 refers to it and R63 does not reach (notes/assumptions/6.md). -/
def Target.accepts (t : Target) (n : Width) : Bool :=
  match t with
  | .reg _ => n == .w4
  | .reserved | .digest _ | .key _ | .buf _ => true

/-- The target of an access of n bytes at a bus address; none is BusError: outside the window (notes/assumptions/9.md),
misaligned (R64), or a narrow access to a register (R63, spec/60_exceptions.md R304). -/
def busTarget (c : Config) (addr : Nat) (n : Width) : Option Target :=
  if addr < c.base ∨ c.base + 0x400 ≤ addr then none
  else if (addr - c.base) % n.bytes ≠ 0 then none
  else if (targetAt c.bufSize (addr - c.base)).accepts n then some (targetAt c.bufSize (addr - c.base))
  else none

/-- Bits 31:0 of a 64-bit value (R61). -/
def lo32 (v : DWord) : Word := v.extractLsb' 0 32
/-- Bits 63:32 of a 64-bit value (R61). -/
def hi32 (v : DWord) : Word := v.extractLsb' 32 32

/-- The value a read of a register returns (R70 and the rules it cites); CMD reads 0 (spec/10_state.md R26). -/
def State.readReg (s : State) : Reg → Word
  | .cmd _ => 0
  | .status p => (s.regs p).status
  | .arg p k => (s.regs p).arg k
  | .resLo p => lo32 (s.regs p).res
  | .resHi p => hi32 (s.regs p).res
  | .id => idWord
  | .dcfStat => dcfStatWord s.dcf
  | .dcfBitsLo => s.dcf.bits.extractLsb' 0 32
  | .dcfBitsHi => (s.dcf.bits.extractLsb' 32 28).setWidth 32
  | .dcfEdgeLo => lo32 s.dcf.lastT
  | .dcfEdgeHi => hi32 s.dcf.lastT
  | .dcfOkLo => lo32 s.dcf.lastOkT
  | .dcfOkHi => hi32 s.dcf.lastOkT
  | .dcfTsLo => lo32 s.dcf.lastTs
  | .dcfTsHi => hi32 s.dcf.lastTs
  | .clkExtLo => s.clk.e.extractLsb' 0 32
  | .clkExtHi => (s.clk.e.extractLsb' 32 17).setWidth 32
  | .clkPrevLo => lo32 s.clk.prev
  | .clkPrevHi => hi32 s.clk.prev
  | .clkOffLo => lo32 s.clk.off
  | .clkOffHi => hi32 s.clk.off
  | .shaStat => shaStatWord s.sha

/-- n bytes of a 32-byte array from i on, as a bus value (R61, R62). -/
def vecRead (v : Vector Byte 32) (i n : Nat) : Word :=
  leWord ((List.range n).map fun j => v.toList.getD (i + j) 0)

/-- What a read of n bytes at a target returns: KEY and reserved offsets read 0 (R62, R65). -/
def State.readTarget (s : State) (t : Target) (n : Width) : Word :=
  match t with
  | .reg r => s.readReg r
  | .reserved => 0
  | .digest i => vecRead s.digest i n.bytes
  | .key _ => 0
  | .buf i => leWord (s.bufRead i n.bytes)

/-- The first n bytes of a bus value, in address order (R62). -/
def busBytes (v : Word) (n : Nat) : List Byte := (List.range n).map (wordByte v)

/-- `KEY[i+j] <- bytes[j]` (R62). -/
def keyWrite (k : Vector Byte 32) (i : Nat) : List Byte → Vector Byte 32
  | [] => k
  | b :: bs => keyWrite (k.setIfInBounds i b) (i + 1) bs

/-- A write of n bytes at a target that accepts it: a CMD write executes a command (R66), ARG, KEY and BUF are stored, a
write to anything else is ignored (R62, R65). -/
def State.writeTarget (s : State) (t : Target) (n : Width) (v : Word) : Result State :=
  match t with
  | .reg (.cmd p) => command p v s
  | .reg (.arg p k) => .next (s.setRegs p ((s.regs p).setArg k v))
  | .reg _ => .next s
  | .reserved => .next s
  | .digest _ => .next s
  | .key i => .next { s with key := keyWrite s.key i (busBytes v n.bytes) }
  | .buf i => .next (s.bufWrite i (busBytes v n.bytes))

/-- The bus's response to the latest access, for the master that issued it. -/
def State.respond (s : State) (m : Master) (r : Response) : State := { s with reply := some { master := m, response := r } }

/-- One bus access by a master (R60 to R66): BusError leaves the block's state as it is, and so does a read. While `rst` is
asserted no access has an effect (spec/70_reset_and_hazards.md R340). The CMD write's completion is the write's response
(R67). -/
def busAccess (m : Master) (a : Access) (s : State) : Result State :=
  if s.rst then .next (s.respond m .notAccepted)
  else
    match a with
    | .read addr n =>
      match busTarget s.cfg addr n with
      | none => .next (s.respond m .busError)
      | some t => .next (s.respond m (.data (s.readTarget t n)))
    | .write addr n v =>
      match busTarget s.cfg addr n with
      | none => .next (s.respond m .busError)
      | some t => (s.respond m .written).writeTarget t n v

/-- One action of an agent (R78). -/
def deliver (e : Event) (s : State) : Result State :=
  match e with
  | .bus m a => busAccess m a s
  | .tick => .next s.tick
  | .rst level => .next (s.driveRst level)
  | .powerCycle => .next s.powerCycle

/-- The block meets the next pending action of the agents; with none pending it does nothing
(notes/assumptions/1.md). -/
def stepInbox (s : State) : Result State :=
  match s.inbox with
  | [] => .next s
  | e :: rest => deliver e { s with inbox := rest }

/-- The action by which the host issues a command word on a port: a 4-byte write to its CMD offset (spec/30_encoding.md
R90). -/
def cmdWrite (c : Config) (m : Master) (p : Port) (w : Word) : Event :=
  match p with
  | .p0 => .bus m (.write (c.base + 0x000) .w4 w)
  | .p1 => .bus m (.write (c.base + 0x020) .w4 w)

end Sys2Proof.Machine
end

