-- ==== Sys2Proof/Machine/Step.lean ====
section
/-! DEFINITION. One step of the machine, and the placing of a command where the next step meets it. -/

namespace Sys2Proof.Machine

/-- One step: the next pending action of the agents of spec/20_memory.md R78 (notes/assumptions/1.md). -/
def step (s : State) : Host.Outcome State Fault Refusal := stepInbox s

/-- The block fetches nothing (spec/20_memory.md R76): its next instruction is the next CMD write. This is s with a write
of the command word to P0.CMD pending first, and `rst` not asserted, so that the next step runs it. -/
def State.withFetchWord (s : State) (nbits w : Nat) : State :=
  { s with
    rst := false
    inbox := cmdWrite s.cfg .main .p0 (BitVec.ofNat 32 (w % 2 ^ nbits)) :: s.inbox }

end Sys2Proof.Machine
end

