-- ==== Sys2Proof/Machine/HostProgram.lean ====
section
/-! DEFINITION. The host's assembler statements and pseudo-instructions as the bus actions they perform
(spec/30_encoding.md R101, R102). The host's variables are outside the block: `ld32` and `res64` deliver their value in
the replies. -/

namespace Sys2Proof.Machine

/-- Offset of a port's first register (spec/20_memory.md R70). -/
def portOffset : Port → Nat
  | .p0 => 0x000
  | .p1 => 0x020

/-- Offset of P<p>.ARG<k> (R70). -/
def argOffset (p : Port) (k : Nat) : Nat := portOffset p + 0x008 + 4 * k

/-- `MemWrite(off, 4, imm)` as an action of a master. -/
def store32 (c : Config) (m : Master) (off : Nat) (v : Word) : Event := .bus m (.write (c.base + off) .w4 v)
/-- `MemWrite(off, 1, imm)`. -/
def store8 (c : Config) (m : Master) (off : Nat) (b : Byte) : Event := .bus m (.write (c.base + off) .w1 (b.setWidth 32))
/-- `MemRead(off, 4)`. -/
def load32 (c : Config) (m : Master) (off : Nat) : Event := .bus m (.read (c.base + off) .w4)

/-- `bufstr`: st32 for each whole aligned word, st8 for the rest (R102). -/
def bufstrEvents (c : Config) (m : Master) : Nat → List Byte → List Event
  | i, b0 :: b1 :: b2 :: b3 :: rest =>
    if i % 4 = 0 then store32 c m (0x200 + i) (leWord [b0, b1, b2, b3]) :: bufstrEvents c m (i + 4) rest
    else store8 c m (0x200 + i) b0 :: bufstrEvents c m (i + 1) (b1 :: b2 :: b3 :: rest)
  | i, b :: rest => store8 c m (0x200 + i) b :: bufstrEvents c m (i + 1) rest
  | _, [] => []

/-- The actions of a statement (R101) or pseudo-instruction (R102) run by a master. -/
def hostEvents (c : Config) (m : Master) : HostStmt → List Event
  | .st32 off v => [store32 c m off v]
  | .st16 off v => [.bus m (.write (c.base + off) .w2 (v.setWidth 32))]
  | .st8 off v => [store8 c m off v]
  | .ld32 off => [load32 c m off]
  | .cmd p i => [cmdWrite c m p (encode i)]
  | .tick n => List.replicate n .tick
  | .arg64 p k v => [store32 c m (argOffset p k) (lo32 v), store32 c m (argOffset p (k + 1)) (hi32 v)]
  | .res64 p => [load32 c m (portOffset p + 0x018), load32 c m (portOffset p + 0x01C)]
  | .bufstr i bytes => bufstrEvents c m i bytes
  | .now p => [cmdWrite c m p (encode .nowRaw)]
  | .dcf p lvl t =>
    [store32 c m (argOffset p 0) (lo32 t), store32 c m (argOffset p 1) (hi32 t)] ++
    [cmdWrite c m p (encode (.dcfSample lvl false))]
  | .range p off len => [store32 c m (argOffset p 0) off, store32 c m (argOffset p 1) len]

/-- A state with a statement's actions pending after those already pending. -/
def State.enqueue (s : State) (m : Master) (stmt : HostStmt) : State :=
  { s with inbox := s.inbox ++ hostEvents s.cfg m stmt }

end Sys2Proof.Machine
end

