-- ==== Sys2Proof/Machine/Timing.lean ====
section
/-! DEFINITION. The measure of work of spec/70_reset_and_hazards.md R360: how many SHA-256 compressions a command performs;
and R361's requirement on an implementation's latencies. The model is untimed (R360, notes/assumptions/12.md): the latencies
LAT_op stay open. -/

namespace Sys2Proof.Machine

/-- How many compressions the byte loop of Absorb performs on n bytes from a fill (spec/41_sha256.md R144): one each time
a byte is stored at place 63. -/
def blocksDone : Nat → Nat → Nat
  | _, 0 => 0
  | fill, n + 1 => if fill = 63 then blocksDone 0 n + 1 else blocksDone (fill + 1) n

/-- Compressions of Sha256(m) for |m| = n (spec/41_sha256.md R152). -/
def sha256Blocks (n : Nat) : Nat := blocksDone 0 (n + (shaPad n).length)

/-- Compressions of HmacSha256(key, m) for |m| = n: an inner hash of 64 + n bytes, an outer one of 96 (R360). -/
def hmacBlocks (n : Nat) : Nat := sha256Blocks (64 + n) + sha256Blocks 96

/-- Compressions a command performs; a command that raises an error performs none. -/
def compressions (i : Instr) (s : State) : Nat :=
  match i with
  | .nop | .nowRaw | .wallSeconds | .dcfSample _ _ | .b64Decode | .shaInit => 0
  | .shaUpdate =>
    if s.rangeOk (s.argNat 0) (s.argNat 1) ∧ s.sha.phase = .active ∧ s.sha.nbytes.toNat + s.argNat 1 ≤ shaMaxBytes then
      blocksDone s.sha.fill.toNat (s.argNat 1)
    else 0
  | .shaFinal =>
    if s.sha.phase = .active then blocksDone s.sha.fill.toNat (shaPad s.sha.nbytes.toNat).length else 0
  | .hmacCompute => if s.rangeOk (s.argNat 0) (s.argNat 1) then hmacBlocks (s.argNat 1) else 0
  | .hmacVerify tag32 =>
    if s.rangeOk (s.argNat 0) (s.argNat 1) ∧ s.rangeOk (s.argNat 2) (tagBytes tag32) then hmacBlocks (s.argNat 1) else 0

/-! ### R361: the requirement on implementations -/

/-- R361: the latency of HMAC_VERIFY depends only on `mlen` (ARG1) and TAG32, and that of HMAC_COMPUTE only on its `len`
(ARG1): commands of equal length have equal latency, whatever the key, the message, the tag and how many of its bytes match.
`lat i s` is the latency of command i issued in state s; both states are of one machine. -/
def ConstantTime (lat : Instr → State → Nat) : Prop :=
  ∀ s t : State, s.cfg = t.cfg → s.argNat 1 = t.argNat 1 →
    lat .hmacCompute s = lat .hmacCompute t ∧
    ∀ tag32, lat (.hmacVerify tag32) s = lat (.hmacVerify tag32) t

/-- The latencies LAT_op of an implementation (spec/00_scope.md R7), together with R361's requirement on them, so that no
implementation that breaks it can be built. Any other latency is free. -/
structure Latencies where
  cycles : Instr → State → Nat
  constantTime : ConstantTime cycles

/-- How many byte pairs the comparison of HMAC_VERIFY combines (spec/42_hmac.md R173). -/
def State.comparedPairs (s : State) (tag32 : Bool) : Nat :=
  (ctCompare (hmacSha256 s.key (s.bufRead (s.argNat 0) (s.argNat 1))).toList
    (s.bufRead (s.argNat 2) (tagBytes tag32)) (tagBytes tag32)).2

end Sys2Proof.Machine
end

