-- ==== Sys2Proof/Safety.lean ====
section
/-! DEFINITION. What counts as a safe state (the invariant the spec's rules give the machine, part by part), what it is for
a step not to stop, and the terms the statements are written in: frames, schedules of clock reads, calendar days, timed
frames, the base64 encoder, SHA-256 by blocks and as a stream. -/

namespace Sys2Proof.Machine

/-- A STATUS word the rules can write: the reset word 0, or DONE = 1, the reserved bits 0, ERR at most 8, OK exactly when
ERR is 0, and MATCH only on a completed HMAC_VERIFY (spec/10_state.md R25, spec/60_exceptions.md R300). -/
def statusLegal (w : Word) : Prop :=
  w = 0 ∨
  (statusDoneBit w = true ∧ w &&& 0xFF0000F8 = 0 ∧ (statusErr w).toNat ≤ 8 ∧
    (statusOk w = true ↔ statusErr w = 0) ∧
    (statusMatch w = true → statusOk w = true ∧ statusOp w = 0x41))

/-- The SHA-256 context as the rules keep it (spec/10_state.md R34, spec/41_sha256.md R144, R147, R154, spec/42_hmac.md
R175): IDLE only with reset values; ACTIVE with FILL = NBYTES mod 64; FINALIZED with FILL = 0; at most 2^61 - 1 bytes. -/
def shaLegal (c : ShaCtx) : Prop :=
  c.nbytes.toNat ≤ shaMaxBytes ∧
  match c.phase with
  | .idle => c = ShaCtx.reset
  | .active => c.fill.toNat = c.nbytes.toNat % 64
  | .finalized => c.fill = 0

/-- The block's state elements, and BUF, as right after a reset (spec/70_reset_and_hazards.md R340). -/
structure State.AtReset (s : State) : Prop where
  p0 : s.p0 = PortRegs.reset
  p1 : s.p1 = PortRegs.reset
  clk : s.clk = ClockRegs.reset
  dcf : s.dcf = DcfRegs.reset
  sha : s.sha = ShaCtx.reset
  digest : s.digest = Vector.replicate 32 0
  key : s.key = Vector.replicate 32 0
  buf : s.buf = []

/-- The invariant of the machine. -/
structure State.Inv (s : State) : Prop where
  /-- BUF's memory is in canonical form. -/
  bufWf : s.buf.wf s.cfg.bufSize = true
  /-- CLK.PREV[63:15] = CLK.E (spec/10_state.md R28). -/
  clockLinked : s.clk.prev.extractLsb' 15 49 = s.clk.e
  /-- DCF.COUNT never exceeds 60 (spec/45_dcf77.md R239). -/
  countBound : s.dcf.count.toNat ≤ 60
  /-- Before the first successful analysis, what only a success writes has its reset value (spec/45_dcf77.md R250,
  spec/10_state.md R29, R30). -/
  unsynced : s.dcf.synced = false →
    s.dcf.lastOkT = 0 ∧ s.dcf.lastTs = 0 ∧ s.clk.off = 0 ∧ s.dcf.result ≠ .ok
  shaOk : shaLegal s.sha
  status0 : statusLegal s.p0.status
  status1 : statusLegal s.p1.status
  /-- While `rst` is asserted every element holds its reset value (notes/assumptions/7.md). -/
  inReset : s.rst = true → s.AtReset

/-- The state does not stop: the result is a next state. -/
def runs (r : Result State) : Prop := ∃ t, r = .next t

/-- The block as a bus read leaves it: everything but the model's `reply`, `inbox` and `port` is the same
(spec/20_memory.md R66). -/
structure State.SameBlock (s t : State) : Prop where
  p0 : t.p0 = s.p0
  p1 : t.p1 = s.p1
  clk : t.clk = s.clk
  dcf : t.dcf = s.dcf
  sha : t.sha = s.sha
  digest : t.digest = s.digest
  key : t.key = s.key
  buf : ∀ a, t.bufByte a = s.bufByte a
  hwCnt : t.hwCnt = s.hwCnt
  rst : t.rst = s.rst
  cfg : t.cfg = s.cfg

/-! ### The frame of a command -/

/-- The columns w of the table of spec/10_state.md R41: what a command may write beside its port's STATUS. -/
structure WriteSet where
  res : Bool := false
  /-- CLK.E and CLK.PREV. -/
  clk : Bool := false
  /-- CLK.OFF. -/
  off : Bool := false
  dcf : Bool := false
  sha : Bool := false
  digest : Bool := false
  buf : Bool := false
deriving DecidableEq, Repr

/-- The table of R41. KEY and ARG are written by no command. -/
def writeSet : Instr → WriteSet
  | .nop => {}
  | .nowRaw => { res := true, clk := true }
  | .wallSeconds => { res := true, clk := true }
  | .dcfSample _ tsrc => { res := tsrc, clk := tsrc, off := true, dcf := true }
  | .b64Decode => { res := true, buf := true }
  | .shaInit => { sha := true }
  | .shaUpdate => { sha := true }
  | .shaFinal => { sha := true, digest := true }
  | .hmacCompute => { sha := true, digest := true }
  | .hmacVerify _ => { sha := true }

/-- Everything of s outside a write set, and outside the STATUS of the port whose command ran, is the same in t. Memory
is compared through the read of one byte. -/
structure State.Keeps (s : State) (w : WriteSet) (t : State) : Prop where
  args : ∀ k, (t.regs s.port).arg k = (s.regs s.port).arg k
  other : t.regs s.port.other = s.regs s.port.other
  res : w.res = false → (t.regs s.port).res = (s.regs s.port).res
  clk : w.clk = false → t.clk.e = s.clk.e ∧ t.clk.prev = s.clk.prev
  off : w.off = false → t.clk.off = s.clk.off
  dcf : w.dcf = false → t.dcf = s.dcf
  sha : w.sha = false → t.sha = s.sha
  digest : w.digest = false → t.digest = s.digest
  key : t.key = s.key
  buf : w.buf = false → ∀ a, t.bufByte a = s.bufByte a
  hwCnt : t.hwCnt = s.hwCnt
  rst : t.rst = s.rst
  cfg : t.cfg = s.cfg
  draws : t.draws = s.draws
  inbox : t.inbox = s.inbox
  reply : t.reply = s.reply
  port : t.port = s.port

/-- The ARG registers a command reads (the table of spec/30_encoding.md R94); a register not listed has no effect. -/
def operandArgs : Instr → List (Fin 4)
  | .dcfSample _ tsrc => if tsrc then [] else [0, 1]
  | .b64Decode | .shaUpdate | .hmacCompute => [0, 1]
  | .hmacVerify _ => [0, 1, 2]
  | .nop | .nowRaw | .wallSeconds | .shaInit | .shaFinal => []

/-- The ten opcodes of spec/30_encoding.md R90. -/
def legalOps : List Byte := [0x00, 0x01, 0x02, 0x10, 0x20, 0x30, 0x31, 0x32, 0x40, 0x41]

/-- STATUS of the port whose command runs. -/
def State.ownStatus (s : State) : Word := (s.regs s.port).status

/-- RES of the port whose command runs. -/
def State.ownRes (s : State) : DWord := (s.regs s.port).res

/-- The errors R300's table lets each command raise once its word is decoded. -/
def mayRaise : Instr → List ErrCode
  | .nop | .nowRaw | .wallSeconds | .dcfSample _ _ | .shaInit => []
  | .b64Decode => [.badRange, .b64Length, .b64Char, .b64Pad]
  | .shaUpdate => [.badRange, .shaState, .shaLength]
  | .shaFinal => [.shaState]
  | .hmacCompute | .hmacVerify _ => [.badRange]

/-- s as it is when a CMD write by master m to port p is taken from the inbox, its reply given and its command about to
run; `rest` is what stays pending. -/
def State.taken (s : State) (m : Master) (p : Port) (rest : List Event) : State :=
  { s with inbox := rest, reply := some { master := m, response := .written }, port := p }

/-! ### The clock -/

/-- The commands that read the clock (spec/20_memory.md R79). -/
def isClockRead : Instr → Bool
  | .nowRaw | .wallSeconds => true
  | .dcfSample _ tsrc => tsrc
  | .nop | .b64Decode | .shaInit | .shaUpdate | .shaFinal | .hmacCompute | .hmacVerify _ => false

/-- A schedule of clock reads: before each, a number of Timebase ticks; then the command on a port. -/
abbrev ClockSchedule := List (Nat × Port × Instr)

/-- The agents' actions of a schedule. -/
def clockEvents (c : Config) : ClockSchedule → List Event
  | [] => []
  | (g, p, i) :: l => List.replicate g .tick ++ cmdWrite c .main p (encode i) :: clockEvents c l

/-- T: the ticks of a schedule. -/
def clockTicks (l : ClockSchedule) : Nat := (l.map fun x => x.1).sum

/-! ### The calendar, day by day -/

/-- Days of a month in the Gregorian calendar (spec/44_calendar.md R212 gives the common year's lengths). -/
def monthDays (y m : Nat) : Nat :=
  [31, if isLeap y then 29 else 28, 31, 30, 31, 30, 31, 31, 30, 31, 30, 31].getD (m - 1) 0

/-- The date exists. -/
def validDate (y m d : Nat) : Prop := 1 ≤ m ∧ m ≤ 12 ∧ 1 ≤ d ∧ d ≤ monthDays y m

/-- The day after a date. -/
def nextDate (y m d : Nat) : Nat × Nat × Nat :=
  if d < monthDays y m then (y, m, d + 1) else if m < 12 then (y, m + 1, 1) else (y + 1, 1, 1)

/-! ### DCF77 frames -/

/-- The value of the frame bits from i on under a row of weights (the table of spec/45_dcf77.md R242). -/
def weightedBits (b : BitVec 60) : Nat → List Nat → Nat
  | _, [] => 0
  | i, w :: ws => (if frameBit b i then w else 0) + weightedBits b (i + 1) ws

/-- How many of the frame bits i to j, both included, are 1. -/
def onesIn (b : BitVec 60) (i j : Nat) : Nat := ((List.range (j + 1 - i)).filter fun k => frameBit b (i + k)).length

/-- The fifteen checks of spec/45_dcf77.md R240 in order, each with the code it writes when it fails; parities as counts of
ones (R241), fields by the weights of R242, ranges by R244 and R245, the century by R247. -/
def frameChecks (p : Params) (n : Nat) (b : BitVec 60) : List (Bool × DcfResult) :=
  let minute := weightedBits b 21 [1, 2, 4, 8, 10, 20, 40]
  let hour := weightedBits b 29 [1, 2, 4, 8, 10, 20]
  let day := weightedBits b 36 [1, 2, 4, 8, 10, 20]
  let dow := weightedBits b 42 [1, 2, 4]
  let month := weightedBits b 45 [1, 2, 4, 8, 10]
  let yy := weightedBits b 50 [1, 2, 4, 8, 10, 20, 40, 80]
  let u := weightedBits b 17 [2, 1]
  [(n == 59 || n == 60, .badCount),
   (!(n == 60 && frameBit b 59), .leapBit),
   (!frameBit b 0, .startMarker),
   (frameBit b 20, .timeMarker),
   (onesIn b 21 28 % 2 == 0, .parityMin),
   (onesIn b 29 35 % 2 == 0, .parityHour),
   (onesIn b 36 58 % 2 == 0, .parityDate),
   (decide (weightedBits b 21 [1, 2, 4, 8] ≤ 9 ∧ minute ≤ 59), .bcdMin)] ++
  [(decide (weightedBits b 29 [1, 2, 4, 8] ≤ 9 ∧ hour ≤ 23), .bcdHour),
   (decide (weightedBits b 36 [1, 2, 4, 8] ≤ 9 ∧ 1 ≤ day ∧ day ≤ 31), .bcdDay),
   (decide (1 ≤ dow), .bcdDow),
   (decide (weightedBits b 45 [1, 2, 4, 8] ≤ 9 ∧ 1 ≤ month ∧ month ≤ 12), .bcdMonth),
   (decide (weightedBits b 50 [1, 2, 4, 8] ≤ 9 ∧ weightedBits b 54 [1, 2, 4, 8] ≤ 9), .bcdYear),
   (decide (p.utcCheck = .strict → u = 1 ∨ u = 2), .utcOffset),
   ((List.range 4).any fun i => dayOfWeek (p.baseYear + 100 * i + yy) month day == dow, .century)]

/-- What an analysis reports: the code of the first check that fails, or OK. -/
def firstFailure (checks : List (Bool × DcfResult)) : DcfResult :=
  match checks.find? fun c => !c.1 with
  | some c => c.2
  | none => .ok

/-- What `analyzeFrame` reports. -/
def analysisCode (r : Except DcfResult Nat) : DcfResult :=
  match r with
  | .error e => e
  | .ok _ => .ok

/-- A received bit as it is timed: its value, its pulse, and the low interval after it. -/
structure PulseBit where
  bit : Bool
  pulse : DWord
  low : DWord
deriving DecidableEq, Repr

/-- The pulse lies in the window of its bit (spec/45_dcf77.md R235). -/
def PulseBit.pulseOk (c : Config) (x : PulseBit) : Prop :=
  if x.bit then c.tBit1Lo ≤ x.pulse.toNat ∧ x.pulse.toNat ≤ c.tBit1Hi
  else c.tBit0Lo ≤ x.pulse.toNat ∧ x.pulse.toNat ≤ c.tBit0Hi

/-- The samples of a row of bits from a rising edge at t on: a falling edge after each pulse, a rising edge after each low
interval, each sent by the host's `dcf` pseudo-instruction on port p. -/
def minuteEvents (c : Config) (p : Port) : DWord → List PulseBit → List Event
  | _, [] => []
  | t, x :: xs =>
    hostEvents c .interrupt (.dcf p false (t + x.pulse)) ++ hostEvents c .interrupt (.dcf p true (t + x.pulse + x.low)) ++
      minuteEvents c p (t + x.pulse + x.low) xs

/-- The time of the last rising edge of a row of bits. -/
def minuteEnd : DWord → List PulseBit → DWord
  | t, [] => t
  | t, x :: xs => minuteEnd (t + x.pulse + x.low) xs

/-! ### Base64 encoding (RFC 4648), for the round trip of spec/40_base64.md R127 -/

/-- Character k of the alphabet (R120). -/
def alphabetChar (k : Nat) : Byte :=
  if k < 26 then BitVec.ofNat 8 (0x41 + k)
  else if k < 52 then BitVec.ofNat 8 (0x61 + (k - 26))
  else if k < 62 then BitVec.ofNat 8 (0x30 + (k - 52))
  else if k = 62 then 0x2B
  else 0x2F

/-- The encoding without padding: three bytes give four characters, two give three, one gives two. -/
def b64Encode : List Byte → List Byte
  | x :: y :: z :: rest =>
    let v := x.toNat * 2 ^ 16 + y.toNat * 2 ^ 8 + z.toNat
    alphabetChar (v / 2 ^ 18) :: alphabetChar (v / 2 ^ 12 % 64) :: alphabetChar (v / 2 ^ 6 % 64) ::
      alphabetChar (v % 64) :: b64Encode rest
  | [x, y] =>
    let v := x.toNat * 2 ^ 16 + y.toNat * 2 ^ 8
    [alphabetChar (v / 2 ^ 18), alphabetChar (v / 2 ^ 12 % 64), alphabetChar (v / 2 ^ 6 % 64)]
  | [x] =>
    let v := x.toNat * 2 ^ 16
    [alphabetChar (v / 2 ^ 18), alphabetChar (v / 2 ^ 12 % 64)]
  | [] => []

/-- The encoding with its `=` padding. -/
def b64EncodePadded (x : List Byte) : List Byte :=
  b64Encode x ++ List.replicate ((4 - (b64Encode x).length % 4) % 4) padChar

/-- A byte is in the alphabet (R120). -/
def inAlphabet (c : Byte) : Prop := ∃ k, k < 64 ∧ c = alphabetChar k

/-! ### SHA-256, block by block and as a stream -/

/-- The 64-byte blocks of a byte string, at most n of them. -/
def blocks64 : Nat → List Byte → List (List Byte)
  | 0, _ => []
  | n + 1, m => m.take 64 :: blocks64 n (m.drop 64)

/-- SHA-256 over whole blocks: the padded message is cut into blocks, each compressed in turn. -/
def sha256Blockwise (m : List Byte) : Vector Byte 32 :=
  let padded := m ++ shaPad m.length
  digestOf ((blocks64 (padded.length / 64) padded).foldl compress hInit)

/-- A stream of SHA commands: SHA_INIT, then completed SHA_UPDATEs, between which the host may do anything that leaves the
SHA context alone. `StreamRun m t`: t is a state after such a stream that has fed the bytes m, in order
(spec/41_sha256.md R153). -/
inductive StreamRun : List Byte → State → Prop where
  | init (s t : State) : exec .shaInit s = .next t → StreamRun [] t
  | between (m : List Byte) (s t : State) : StreamRun m s → t.sha = s.sha → StreamRun m t
  | update (m : List Byte) (s t : State) : StreamRun m s → exec .shaUpdate s = .next t → statusOk t.ownStatus = true →
      StreamRun (m ++ s.bufRead (s.argNat 0) (s.argNat 1)) t

end Sys2Proof.Machine
end

