-- ==== Sys2Proof/Certificates/Slice0/Obligations.lean ====
section
/-! DEFINITION. The statements for the provers. Each docstring names the rules of spec/ its statement formalises; where a
statement rests on the model's own choice it names the log entry. -/

open Sys2Proof Sys2Proof.Machine

/-! ### Encoding and decoding -/

/-- R90, R91, R93: a word decodes to a command exactly when it is that command's encoding, for every one of the 2^32
words and every command with every flag; and the table-word decoder reads every command back from its encoding. -/
def Obligations.DecodeExactlyEncodings : Prop :=
  (∀ (w : Word) (i : Instr), decode w = .ok i ↔ w = encode i) ∧
  ∀ i : Instr, i.wellFormed = true → decodeTableWord 32 (encode i).toNat = some i

/-- R103: a command's word is its row's match with F0 at bit 8 and F1 at bit 9; a word is a row's command exactly when
(w ∧ mask) = match; no two rows with different opcodes match one word; a word that matches no row, written to port p's CMD,
raises ILLEGAL_OP there if its OP is none of the ten, and BAD_FLAGS otherwise. -/
def Obligations.TableRowsPartitionWords : Prop :=
  (∀ i : Instr, (encode i).toNat = (rowMatch i).toNat + 256 * (flag0 i).toNat + 512 * (flag1 i).toNat) ∧
  ∀ w : Word,
    (∀ i : Instr, w &&& rowMask i = rowMatch i ↔ ∃ j, decode w = .ok j ∧ opcode j = opcode i) ∧
    (∀ i j : Instr, w &&& rowMask i = rowMatch i → w &&& rowMask j = rowMatch j → opcode i = opcode j) ∧
    ((∀ i : Instr, w &&& rowMask i ≠ rowMatch i) → ∀ (p : Port) (s : State),
      command p w s = .next (({ s with port := p } : State).setStatus p
        (statusError (fieldOp w) (if fieldOp w ∈ legalOps then .badFlags else .illegalOp))))

/-- R103's encodings, one word a family written out bit by bit, and two words of R101's examples. -/
def Obligations.SampleWordsDecode : Prop :=
  decode 0b00000000000000000000000000000000#32 = .ok .nop ∧
  decode 0b00000000000000000000000000000001#32 = .ok .nowRaw ∧
  decode 0b00000000000000000000001100010000#32 = .ok (.dcfSample true true) ∧
  decode 0b00000000000000000000001000010000#32 = .ok (.dcfSample false true) ∧
  decode 0b00000000000000000000000000100000#32 = .ok .b64Decode ∧
  decode 0b00000000000000000000000000110001#32 = .ok .shaUpdate ∧
  decode 0b00000000000000000000000101000001#32 = .ok (.hmacVerify true)

/-! ### A step, and commands in general -/

/-- R90: when the next pending action is a write of a command's word to port p's CMD register (and `rst` is not
asserted), the step is that command run on port p, with the write taken from the inbox and its reply given; the state
`withFetchWord` builds is such a state, for port P0. -/
def Obligations.StepRunsDecodedCommand : Prop :=
  (∀ (s : State) (m : Master) (p : Port) (w : Word) (i : Instr) (rest : List Event),
    s.rst = false → s.inbox = cmdWrite s.cfg m p w :: rest → decode w = .ok i →
    step s = exec i (s.taken m p rest)) ∧
  ∀ (s : State) (i : Instr),
    step (s.withFetchWord 32 (encode i).toNat) = exec i (({ s with rst := false } : State).taken .main .p0 s.inbox)

/-- R99, R100, with R97's effect: a CMD write whose OP is none of the ten opcodes writes STATUS of its port to
{OP, ERR = 0x01, DONE = 1}; one with a legal OP and a reserved bit or an unused flag set writes {OP, ERR = 0x02, DONE = 1};
nothing else changes (the write is taken and replied to). -/
def Obligations.RejectedWordsWriteOnlyStatus : Prop :=
  ∀ (s : State) (m : Master) (p : Port) (w : Word) (rest : List Event),
    s.rst = false → s.inbox = cmdWrite s.cfg m p w :: rest →
    let op := w.toNat % 256
    let f0 := w.toNat / 256 % 2
    let f1 := w.toNat / 512 % 2
    (op ∉ [0x00, 0x01, 0x02, 0x10, 0x20, 0x30, 0x31, 0x32, 0x40, 0x41] →
      step s = .next ((s.taken m p rest).setStatus p (BitVec.ofNat 32 (op * 65536 + 0x0104)))) ∧
    (op ∈ [0x00, 0x01, 0x02, 0x10, 0x20, 0x30, 0x31, 0x32, 0x40, 0x41] →
      (w.toNat / 1024 ≠ 0 ∨ (f0 = 1 ∧ op ≠ 0x10 ∧ op ≠ 0x41) ∨ (f1 = 1 ∧ op ≠ 0x10)) →
      step s = .next ((s.taken m p rest).setStatus p (BitVec.ofNat 32 (op * 65536 + 0x0204))))

/-- The table of R41, its write columns, for all ten commands: a command writes STATUS of its own port and what its
row marks w, and nothing else; ARG, KEY, the other port, `hw_cnt`, `rst` and every byte of BUF (but for B64_DECODE)
stay. -/
def Obligations.CommandFrame : Prop :=
  ∀ (i : Instr) (s t : State), exec i s = .next t → s.Keeps (writeSet i) t

/-- R97, R300, R301: a command that ends with STATUS.OK = 0 has raised one of the errors R300 lists for it, and the state
differs from the one before in that port's STATUS alone. -/
def Obligations.ErrorsWriteOnlyStatus : Prop :=
  ∀ (i : Instr) (s t : State), exec i s = .next t → statusOk t.ownStatus = false →
    ∃ e ∈ mayRaise i, t = s.setStatus s.port (statusError (opcode i) e)

/-- R306 ("the failing command has no effect other than STATUS") and the file's "Nothing in this core is fatal": every
command, on every state, and every step, answers a next state: nothing stops the machine. -/
def Obligations.StepNeverStops : Prop :=
  (∀ (i : Instr) (s : State), runs (exec i s)) ∧ ∀ s : State, runs (step s)

/-- R94, R92: ARG3 is read by no command, and more: every ARG register that R94's table does not list for a command, and
every ARG register of the other port, has no effect on it: changing it before the command changes nothing but itself
after. -/
def Obligations.ArgThreeIsIgnored : Prop :=
  (∀ i : Instr, (3 : Fin 4) ∉ operandArgs i) ∧
  ∀ (i : Instr) (s t : State) (p : Port) (k : Fin 4) (v : Word), (p ≠ s.port ∨ k ∉ operandArgs i) →
    exec i s = .next t →
    exec i (s.setRegs p ((s.regs p).setArg k v)) = .next (t.setRegs p ((t.regs p).setArg k v))

/-- R314 and R36: KEY is readable neither by a bus read nor through a command other than the two HMAC commands: with
another key, the same reads and the same effects. -/
def Obligations.KeyIsUnobservable : Prop :=
  ∀ (s : State) (k : Vector Byte 32),
    (∀ (tg : Target) (n : Width), ({ s with key := k } : State).readTarget tg n = s.readTarget tg n) ∧
    ∀ (i : Instr) (t : State), i ≠ .hmacCompute → (∀ b, i ≠ .hmacVerify b) → exec i s = .next t →
      exec i { s with key := k } = .next { t with key := k }

/-- R72, R310: every master has equal rights: the same access by another master has the same effect, and the reply
differs only in the master it goes to. -/
def Obligations.MastersHaveEqualRights : Prop :=
  ∀ (s t : State) (m m' : Master) (a : Access), busAccess m a s = .next t →
    ∃ r, t.reply = some { master := m, response := r } ∧
      busAccess m' a s = .next { t with reply := some { master := m', response := r } }

/-- R25, R97, R98: the fields of the STATUS words commands write. -/
def Obligations.StatusWordFields : Prop :=
  ∀ (op : Byte) (e : ErrCode) (m : Bool),
    (statusDone op m).toNat = op.toNat * 65536 + 4 + 2 * m.toNat + 1 ∧
    (statusError op e).toNat = op.toNat * 65536 + (errCode e).toNat * 256 + 4 ∧
    1 ≤ (errCode e).toNat ∧ (errCode e).toNat ≤ 8

/-! ### NOP -/

/-- R280: NOP sets its port's STATUS to 0x00000005 and changes nothing else; a word with OP 0x00 and any of bits 31:8 set
is no NOP: it raises BAD_FLAGS on its port. -/
def Obligations.NopSetsStatus : Prop :=
  ∀ s : State,
    exec .nop s = .next (s.setStatus s.port 0x00000005) ∧
    ∀ (p : Port) (w : Word), w.toNat % 256 = 0 → w.toNat / 256 ≠ 0 →
      command p w s = .next (({ s with port := p } : State).setStatus p 0x00000204)

/-! ### The clock -/

/-- R192, R195: NOW_RAW, computed over the naturals: the parity step on E, the value {E, hw_cnt[14:0]}, the recovery; RES
and CLK.PREV get the value, CLK.E the new extension, and v = {E', c[14:0]} holds afterwards. -/
def Obligations.NowRawExtendsCounter : Prop :=
  ∀ s : State,
    let e := s.clk.e.toNat
    let c := s.hwCnt.toNat
    let e1 := if c / 2 ^ 15 = e % 2 then e else (e + 1) % 2 ^ 49
    let v0 := e1 * 2 ^ 15 + c % 2 ^ 15
    let v := if v0 < s.clk.prev.toNat then (v0 + 0x10000) % 2 ^ 64 else v0
    let e2 := if v0 < s.clk.prev.toNat then (e1 + 2) % 2 ^ 49 else e1
    v = e2 * 2 ^ 15 + c % 2 ^ 15 ∧
    ∃ t, exec .nowRaw s = .next t ∧ t.ownRes.toNat = v ∧ t.clk.prev.toNat = v ∧ t.clk.e.toNat = e2 ∧
      t.ownStatus = 0x00010005 ∧ s.Keeps (writeSet .nowRaw) t

/-- R196, R197: WALL_SECONDS leaves in RES the floor of NowRaw() / 10^6 plus OFF, modulo 2^64, and advances the clock
exactly as NOW_RAW does. -/
def Obligations.WallSecondsAddsOffset : Prop :=
  ∀ s : State, ∃ t u, exec .wallSeconds s = .next t ∧ exec .nowRaw s = .next u ∧ t.clk = u.clk ∧
    t.ownRes.toNat = (u.ownRes.toNat / 1000000 + s.clk.off.toNat) % 2 ^ 64 ∧
    t.ownStatus = 0x00020005 ∧ s.Keeps (writeSet .wallSeconds) t

/-- R28, R192: after a clock read (NOW_RAW, WALL_SECONDS, DCF_SAMPLE with TSRC = 1) from any state,
CLK.PREV[63:15] = CLK.E. -/
def Obligations.ClockReadLinksExtension : Prop :=
  ∀ (i : Instr) (s : State), isClockRead i = true →
    ∃ t, exec i s = .next t ∧ t.clk.prev.toNat / 2 ^ 15 = t.clk.e.toNat

/-- R194: with CLK.PREV below 2^64 - 2^16 (and linked to CLK.E, R28), the value NowRaw() returns (the new CLK.PREV), in any
of the three commands that call it, is at least the CLK.PREV it started from, whatever `hw_cnt` is, and is equal only when
hw_cnt[15] matches E[0] and hw_cnt[14:0] = CLK.PREV[14:0]. -/
def Obligations.ClockNeverDecreases : Prop :=
  ∀ (i : Instr) (s : State), isClockRead i = true →
    s.clk.prev.toNat / 2 ^ 15 = s.clk.e.toNat → s.clk.prev.toNat < 2 ^ 64 - 2 ^ 16 →
    ∃ t, exec i s = .next t ∧ s.clk.prev.toNat ≤ t.clk.prev.toNat ∧
      (t.clk.prev = s.clk.prev →
        s.hwCnt.toNat / 2 ^ 15 = s.clk.e.toNat % 2 ∧ s.hwCnt.toNat % 2 ^ 15 = s.clk.prev.toNat % 2 ^ 15)

/-- R193: from a state with the clock unit at reset and hw_cnt below 2^15, any schedule of clock reads, on either port,
each fewer than 2^15 ticks after the one before (the first after the start), returns exactly c_r + T: at its end CLK.PREV,
the value last returned, is the count at reset plus the ticks, and E is that count's floor quotient by 2^15 (the recovery
branch, which adds 2 to E, was never taken). -/
def Obligations.ClockReadsAreExact : Prop :=
  ∀ (s : State) (l : ClockSchedule),
    s.rst = false → s.clk.e = 0 → s.clk.prev = 0 → s.hwCnt.toNat < 2 ^ 15 → l ≠ [] →
    (∀ x ∈ l, x.1 < 2 ^ 15 ∧ isClockRead x.2.2 = true) → s.hwCnt.toNat + clockTicks l < 2 ^ 64 →
    s.inbox = clockEvents s.cfg l →
    ∃ t, Host.Core.run Sys2Proof.core s.inbox.length s = .next t ∧ t.inbox = [] ∧
      t.clk.prev.toNat = s.hwCnt.toNat + clockTicks l ∧
      t.clk.e.toNat = (s.hwCnt.toNat + clockTicks l) / 2 ^ 15

/-- R200, R195: from any state, a NOW_RAW, then any number k of whole wraps (k times 2^16 ticks), then a NOW_RAW: the
second read returns what the first returned (the wraps are lost), and with k = 0 two reads with no tick between return
equal values. -/
def Obligations.WholeWrapsAreLost : Prop :=
  ∀ (s : State) (p : Port) (k : Nat),
    s.rst = false →
    s.inbox = cmdWrite s.cfg .main p (encode .nowRaw) ::
      (List.replicate (k * 2 ^ 16) .tick ++ [cmdWrite s.cfg .main p (encode .nowRaw)]) →
    ∃ u t, step s = .next u ∧ Host.Core.run Sys2Proof.core s.inbox.length s = .next t ∧ t.inbox = [] ∧
      t.ownRes = u.ownRes ∧ t.clk = u.clk ∧ t.ownStatus = 0x00010005

/-- R190: a Timebase tick adds one to `hw_cnt` modulo 2^16 and changes nothing else. -/
def Obligations.TickAdvancesCounter : Prop :=
  ∀ (s : State) (rest : List Event), s.inbox = .tick :: rest →
    step s = .next { s with inbox := rest, hwCnt := BitVec.ofNat 16 (s.hwCnt.toNat + 1) }

/-! ### DCF77: edges -/

/-- R233 to R237 and the table of R239, for a DCF_SAMPLE with TSRC = 0 on every state: the command completes; a repeated
level is no edge; each window gives its event and its effect on COUNT and BITS; outside a minute boundary RESULT and
CLK.OFF stay. -/
def Obligations.DcfSampleClassifiesEdges : Prop :=
  ∀ (s : State) (lvl : Bool),
    let time : DWord := BitVec.ofNat 64 ((s.regs s.port).arg1.toNat * 2 ^ 32 + (s.regs s.port).arg0.toNat)
    let d := (time.toNat + 2 ^ 64 - s.dcf.lastT.toNat) % 2 ^ 64
    let isGap := s.cfg.tGapLo ≤ d ∧ d ≤ s.cfg.tGapHi
    let isMin := s.cfg.tMinLo ≤ d ∧ d ≤ s.cfg.tMinHi
    let isBit0 := s.cfg.tBit0Lo ≤ d ∧ d ≤ s.cfg.tBit0Hi
    let isBit1 := s.cfg.tBit1Lo ≤ d ∧ d ≤ s.cfg.tBit1Hi
    ∃ t, exec (.dcfSample lvl false) s = .next t ∧ t.ownStatus = 0x00100005 ∧
      s.Keeps (writeSet (.dcfSample lvl false)) t ∧ t.dcf.level = lvl ∧
      (lvl = s.dcf.level → t.dcf.event = .none ∧ t.dcf.lastT = s.dcf.lastT ∧ t.dcf.count = s.dcf.count) ∧
      (lvl ≠ s.dcf.level → t.dcf.lastT = time) ∧
      (s.dcf.level = false → lvl = true →
        (isGap → t.dcf.event = .gap ∧ t.dcf.count = s.dcf.count) ∧
        (isMin → t.dcf.event = .minute ∧ t.dcf.count = 0) ∧
        (¬ isGap → ¬ isMin → t.dcf.event = .riseCorrupt ∧ t.dcf.count = 0)) ∧
      (s.dcf.level = true → lvl = false →
        (isBit0 → s.dcf.count.toNat ≠ 60 → t.dcf.event = .bit0 ∧ t.dcf.count = s.dcf.count + 1) ∧
        (isBit1 → s.dcf.count.toNat ≠ 60 → t.dcf.event = .bit1 ∧ t.dcf.count = s.dcf.count + 1) ∧
        (isBit0 ∨ isBit1 → s.dcf.count.toNat ≠ 60 →
          ∀ k < 60, frameBit t.dcf.bits k =
            if k = s.dcf.count.toNat then decide isBit1 else frameBit s.dcf.bits k) ∧
        (isBit0 ∨ isBit1 → s.dcf.count.toNat = 60 → t.dcf.event = .overflow ∧ t.dcf.count = 0) ∧
        (¬ isBit0 → ¬ isBit1 → t.dcf.event = .fallCorrupt ∧ t.dcf.count = 0)) ∧
      (¬ (s.dcf.level = true ∧ lvl = false ∧ (isBit0 ∨ isBit1) ∧ s.dcf.count.toNat ≠ 60) →
        t.dcf.bits = s.dcf.bits) ∧
      (¬ (s.dcf.level = false ∧ lvl = true ∧ isMin) →
        t.dcf.result = s.dcf.result ∧ t.clk.off = s.clk.off ∧ t.dcf.synced = s.dcf.synced ∧
        t.dcf.lastTs = s.dcf.lastTs ∧ t.dcf.lastOkT = s.dcf.lastOkT) ∧
      (s.dcf.count.toNat ≤ 60 → t.dcf.count.toNat ≤ 60)

/-- R232 with TSRC = 1: the sample is a NOW_RAW on the same port (RES gets its value) followed by a DCF_SAMPLE at the
timestamp read: the clock, DCF77 state and STATUS are those that sequence leaves, and ARG keeps its values. -/
def Obligations.DcfSampleNowReadsClock : Prop :=
  ∀ (s : State) (lvl : Bool), ∃ u t t',
    exec .nowRaw s = .next u ∧ exec (.dcfSample lvl true) s = .next t ∧
    exec (.dcfSample lvl false)
      (u.setRegs u.port (((u.regs u.port).setArg 0 (lo32 u.ownRes)).setArg 1 (hi32 u.ownRes))) = .next t' ∧
    t.dcf = t'.dcf ∧ t.clk = t'.clk ∧ t.ownStatus = 0x00100005 ∧ t.ownRes = u.ownRes ∧
    s.Keeps (writeSet (.dcfSample lvl true)) t

/-- R234, R250, R251, R198: at a minute boundary the frame is analysed. If it passes, RESULT is OK, LAST_TS is its
timestamp, LAST_OK_T the sample's time, SYNCED 1, SYNC_ERR 0, and CLK.OFF is set so that WallSeconds at that time is the
timestamp; if it fails, RESULT is the code and CLK.OFF, LAST_TS, LAST_OK_T and SYNCED keep their values, and SYNC_ERR is
touched by the liveness check of R238 alone. -/
def Obligations.MinuteRunsAnalysis : Prop :=
  ∀ (s : State),
    let time := s.argTime
    let d := (time - s.dcf.lastT).toNat
    s.dcf.level = false → s.cfg.tMinLo ≤ d → d ≤ s.cfg.tMinHi →
    ∃ t, exec (.dcfSample true false) s = .next t ∧ t.dcf.count = 0 ∧
      match analyzeFrame s.cfg.toParams s.dcf.count.toNat s.dcf.bits with
      | .ok ts =>
        t.dcf.result = .ok ∧ t.dcf.lastTs = BitVec.ofNat 64 ts ∧ t.dcf.lastOkT = time ∧ t.dcf.synced = true ∧
        t.dcf.syncErr = false ∧
        t.clk.off.toNat = (ts % 2 ^ 64 + 2 ^ 64 - time.toNat / 1000000) % 2 ^ 64 ∧
        wallSeconds t.clk.off time = BitVec.ofNat 64 ts
      | .error r =>
        t.dcf.result = r ∧ t.clk.off = s.clk.off ∧ t.dcf.lastTs = s.dcf.lastTs ∧ t.dcf.lastOkT = s.dcf.lastOkT ∧
        t.dcf.synced = s.dcf.synced ∧ t.dcf.bits = s.dcf.bits ∧
        t.dcf.syncErr = if s.cfg.livenessUs < (time - s.dcf.lastOkT).toNat then true else s.dcf.syncErr

/-- R238, with R250: after any sample, with either source of its time, SYNC_ERR is 0, and LAST_OK_T
the sample's time, if the sample's analysis succeeded; else 1
if more than LIVENESS_US have passed since LAST_OK_T; else what it was; and the output follows it. -/
def Obligations.LivenessIndicator : Prop :=
  ∀ (s : State) (lvl tsrc : Bool),
    let time := if tsrc then s.nowRawResult else s.argTime
    ∃ t, exec (.dcfSample lvl tsrc) s = .next t ∧ t.dcfSyncErrOut = t.dcf.syncErr ∧
      (s.dcf.level = false → lvl = true → t.dcf.event = .minute → t.dcf.result = .ok →
        t.dcf.syncErr = false ∧ t.dcf.lastOkT = time) ∧
      (¬ (s.dcf.level = false ∧ lvl = true ∧ t.dcf.event = .minute ∧ t.dcf.result = .ok) →
        t.dcf.syncErr =
          if s.cfg.livenessUs < (time - s.dcf.lastOkT).toNat then true else s.dcf.syncErr)

/-- R254, with R234, R235: a row of at most 60 bits sent in the ordinary way from a rising edge on (each pulse in its
bit's window, each low interval in the gap window but for the last, which is in the minute window), through the host's
`dcf` statements on a port, is accumulated exactly: at the last edge the analysis runs, and it sees exactly those bits. -/
def Obligations.OrdinaryMinuteIsAccumulated : Prop :=
  ∀ (s : State) (p : Port) (l : List PulseBit) (last : PulseBit),
    s.rst = false → s.dcf.level = true → s.dcf.count = 0 → l.length < 60 →
    (∀ x ∈ l ++ [last], x.pulseOk s.cfg) →
    (∀ x ∈ l, s.cfg.tGapLo ≤ x.low.toNat ∧ x.low.toNat ≤ s.cfg.tGapHi) →
    s.cfg.tMinLo ≤ last.low.toNat → last.low.toNat ≤ s.cfg.tMinHi →
    s.inbox = minuteEvents s.cfg p s.dcf.lastT (l ++ [last]) →
    ∃ t, Host.Core.run Sys2Proof.core s.inbox.length s = .next t ∧ t.inbox = [] ∧
      t.dcf.event = .minute ∧ t.dcf.count = 0 ∧ t.dcf.lastT = minuteEnd s.dcf.lastT (l ++ [last]) ∧
      (∀ k, ∀ h : k < (l ++ [last]).length, frameBit t.dcf.bits k = ((l ++ [last])[k]).bit) ∧
      t.dcf.result = analysisCode (analyzeFrame s.cfg.toParams (l.length + 1) t.dcf.bits)

/-! ### DCF77: frames and the calendar -/

/-- R240 to R245, R247, R248: the analysis reports the first failing check of R240's fifteen (parities as counts of ones,
fields by the weights of R242), and a frame that passes them all gives the timestamp of R248 for the first candidate year
whose day of week is the one sent. -/
def Obligations.AnalysisReportsFirstFailure : Prop :=
  ∀ (p : Params) (n : Nat) (b : BitVec 60),
    analysisCode (analyzeFrame p n b) = firstFailure (frameChecks p n b) ∧
    let year (i : Nat) : Nat := p.baseYear + 100 * i + weightedBits b 50 [1, 2, 4, 8, 10, 20, 40, 80]
    let month := weightedBits b 45 [1, 2, 4, 8, 10]
    let day := weightedBits b 36 [1, 2, 4, 8, 10, 20]
    let fits (i : Nat) : Prop := dayOfWeek (year i) month day = weightedBits b 42 [1, 2, 4]
    ∀ ts, analyzeFrame p n b = .ok ts → ∃ i < 4, fits i ∧ (∀ j < i, ¬ fits j) ∧ resolveYear p b = some (year i) ∧
      ts + weightedBits b 17 [2, 1] * 3600 =
        timestamp (year i) month day +
        weightedBits b 29 [1, 2, 4, 8, 10, 20] * 3600 + weightedBits b 21 [1, 2, 4, 8, 10, 20, 40] * 60

/-- R252: flipping one bit of a frame that passes every check: bits 21 to 58 fail the parity of their range, bit 0 gives
START_MARKER, bit 20 TIME_MARKER, bits 17 and 18 under UTC_CHECK = strict UTC_OFFSET, bit 59 of a 60-bit frame LEAP_BIT;
bits 1 to 16 and 19 (and bit 59 of a 59-bit frame, R242) leave the result unchanged. -/
def Obligations.SingleBitFlipIsCaught : Prop :=
  ∀ (p : Params) (n : Nat) (b : BitVec 60) (ts k : Nat),
    analyzeFrame p n b = .ok ts → k < 60 → (k = 17 ∨ k = 18 → p.utcCheck = .strict) →
    analyzeFrame p n (b ^^^ (1#60 <<< k)) =
      if k = 0 then .error .startMarker
      else if k = 20 then .error .timeMarker
      else if k = 17 ∨ k = 18 then .error .utcOffset
      else if k = 59 then (if n = 60 then .error .leapBit else .ok ts)
      else if k < 21 then .ok ts
      else if k ≤ 28 then .error .parityMin
      else if k ≤ 35 then .error .parityHour
      else .error .parityDate

/-- R249 (and C12 of 90_conflicts.md): a decoded timestamp is at least 946674000, at least 946677600 under strict; with
BASE_YEAR = 2000 it is below 13569465600. -/
def Obligations.DecodedTimestampRange : Prop :=
  ∀ (p : Params) (n : Nat) (b : BitVec 60) (ts : Nat), 2000 ≤ p.baseYear → analyzeFrame p n b = .ok ts →
    946674000 ≤ ts ∧ (p.utcCheck = .strict → 946677600 ≤ ts) ∧ (p.baseYear = 2000 → ts < 13569465600)

/-- R247: the year is that of the first of the four candidates BASE_YEAR + 100 i + yy whose day of week is the one sent,
and there is none exactly when no candidate matches. -/
def Obligations.CenturyIsFirstMatch : Prop :=
  ∀ (p : Params) (b : BitVec 60),
    let fits (i : Nat) : Prop :=
      dayOfWeek (p.baseYear + 100 * i + frameYear b) (frameMonth b) (frameDay b) = frameDow b
    (∀ y, resolveYear p b = some y ↔
      ∃ i < 4, y = p.baseYear + 100 * i + frameYear b ∧ fits i ∧ ∀ j < i, ¬ fits j) ∧
    (resolveYear p b = none ↔ ∀ i < 4, ¬ fits i)

/-- R218, with R213 to R216, for every year from 2000 on: from 2000-01-01 (day number 0, a Saturday, 946684800), each
day of the Gregorian calendar has the next day number, the next day of the week, and a timestamp 86400 larger than the
day before. -/
def Obligations.CalendarCountsDays : Prop :=
  (dayNumber 2000 1 1 = 0 ∧ dayOfWeek 2000 1 1 = 6 ∧ timestamp 2000 1 1 = 946684800) ∧
  ∀ y m d : Nat, 2000 ≤ y → validDate y m d →
    let n := nextDate y m d
    validDate n.1 n.2.1 n.2.2 ∧
    dayNumber n.1 n.2.1 n.2.2 = dayNumber y m d + 1 ∧
    dayOfWeek n.1 n.2.1 n.2.2 = dayOfWeek y m d % 7 + 1 ∧
    timestamp n.1 n.2.1 n.2.2 = timestamp y m d + 86400

/-- R211: DaysSinceEpoch is 0 for 2000, grows by 366 over a leap year and 365 over another, and by 146097 over 400
years. -/
def Obligations.DaysSinceEpochCycle : Prop :=
  daysSinceEpoch 2000 = 0 ∧
  ∀ y : Nat, 2000 ≤ y →
    daysSinceEpoch (y + 1) = daysSinceEpoch y + (if isLeap y then 366 else 365) ∧
    daysSinceEpoch (y + 400) = daysSinceEpoch y + 146097

/-! ### Base64 -/

/-- R120: character k of the alphabet has sextet value k, and nothing else has one; the pad character is 0x3D and is outside
the alphabet. -/
def Obligations.SextetsFollowAlphabet : Prop :=
  (∀ k < 64, sextet (alphabetChar k) = some k) ∧
  (∀ (c : Byte) (k : Nat), sextet c = some k → k < 64 ∧ c = alphabetChar k) ∧
  padChar = 0x3D#8 ∧ sextet padChar = none

/-- R121 to R125: B64_DECODE on every state. Errors in order: the range, a length of 1 mod 4, the first data character
outside the alphabet (B64_PAD for `=`, else B64_CHAR), each changing STATUS alone. Otherwise RES is n = 3·(Lp/4) - q, at
most the input's length, BUF[off..off+n) is the decoding of the padded input by quadruplets, and every other byte of BUF
is as before. -/
def Obligations.B64DecodeChecksThenDecodes : Prop :=
  ∀ s : State,
    let off := (s.regs s.port).arg0.toNat
    let len := (s.regs s.port).arg1.toNat
    let padded := s.bufRead off len ++ List.replicate ((4 - len % 4) % 4) 0x3D#8
    let q := if padded.getLast? = some 0x3D#8 then (if padded.dropLast.getLast? = some 0x3D#8 then 2 else 1) else 0
    let n := 3 * (padded.length / 4) - q
    let sx (k : Nat) : Nat := (sextet (padded.getD k 0)).getD 0
    ∃ t, exec .b64Decode s = .next t ∧ s.Keeps (writeSet .b64Decode) t ∧
      (s.cfg.bufSize < off + len → t = s.setStatus s.port 0x00200304) ∧
      (off + len ≤ s.cfg.bufSize → len % 4 = 1 → t = s.setStatus s.port 0x00200404) ∧
      (off + len ≤ s.cfg.bufSize → len % 4 ≠ 1 →
        (∀ i < padded.length - q, ¬ inAlphabet (padded.getD i 0) →
          (∀ j < i, inAlphabet (padded.getD j 0)) →
          t = s.setStatus s.port (if padded.getD i 0 = 0x3D#8 then 0x00200604 else 0x00200504)) ∧
        ((∀ i < padded.length - q, inAlphabet (padded.getD i 0)) →
          t.ownStatus = 0x00200005 ∧ n ≤ len ∧ t.ownRes = BitVec.ofNat 64 n ∧
          (∀ a, (a < off ∨ off + n ≤ a) → t.bufByte a = s.bufByte a) ∧
          ∀ k < n,
            let g := 4 * (k / 3)
            let v := sx g * 2 ^ 18 + sx (g + 1) * 2 ^ 12 + sx (g + 2) * 2 ^ 6 + sx (g + 3)
            t.bufByte (off + k) = BitVec.ofNat 8 (v / 2 ^ (16 - 8 * (k % 3)))))

/-- R127: for every byte string x of at most 3·⌊BUF_SIZE/4⌋ bytes, its padded encoding fits BUF; and where BUF holds the
padded or the unpadded RFC 4648 encoding of any x, B64_DECODE completes with RES = |x| and the bytes of x in place. -/
def Obligations.B64RoundTrip : Prop :=
  ∀ (s : State) (x : List Byte),
    (x.length ≤ 3 * (s.cfg.bufSize / 4) → (b64EncodePadded x).length ≤ s.cfg.bufSize) ∧
    ∀ enc, (enc = b64EncodePadded x ∨ enc = b64Encode x) →
      (s.argNat 1 = enc.length) → s.argNat 0 + enc.length ≤ s.cfg.bufSize →
      s.bufRead (s.argNat 0) enc.length = enc →
      ∃ t, exec .b64Decode s = .next t ∧ t.ownStatus = 0x00200005 ∧ t.ownRes = BitVec.ofNat 64 x.length ∧
        t.bufRead (s.argNat 0) x.length = x

/-! ### SHA-256 -/

/-- R143: SHA_INIT, in every phase, starts an empty ACTIVE context; SHA_STAT then reads 0x00000001. -/
def Obligations.ShaInitStartsStream : Prop :=
  ∀ s : State, ∃ t, exec .shaInit s = .next t ∧ t.ownStatus = 0x00300005 ∧ s.Keeps (writeSet .shaInit) t ∧
    t.sha = { phase := .active, h := hInit, blk := Vector.replicate 64 0, fill := 0, nbytes := 0 } ∧
    t.readReg .shaStat = 0x00000001

/-- R145, with R144 and R154: SHA_UPDATE on every state. Errors in order, each changing STATUS alone; otherwise the range
is absorbed byte by byte (R144): the phase stays ACTIVE, NBYTES grows by len, FILL by len modulo 64; a range that does not fill
the block is stored in it from FILL on; one that fills it exactly compresses it at once; whatever its length, SHA.H is the
fold of Compress over exactly ⌊(FILL + len)/64⌋ blocks of the block's bytes followed by the range, and the rest stands in
SHA.BLK. -/
def Obligations.ShaUpdateAbsorbsRange : Prop :=
  ∀ s : State,
    let off := (s.regs s.port).arg0.toNat
    let len := (s.regs s.port).arg1.toNat
    let fill := s.sha.fill.toNat
    let fed := s.sha.blk.toList.take fill ++ s.bufRead off len
    ∃ t, exec .shaUpdate s = .next t ∧
      (s.cfg.bufSize < off + len → t = s.setStatus s.port 0x00310304) ∧
      (off + len ≤ s.cfg.bufSize → s.sha.phase ≠ .active → t = s.setStatus s.port 0x00310704) ∧
      (off + len ≤ s.cfg.bufSize → s.sha.phase = .active →
        (2 ^ 61 - 1 < s.sha.nbytes.toNat + len → t = s.setStatus s.port 0x00310804) ∧
        (s.sha.nbytes.toNat + len ≤ 2 ^ 61 - 1 →
          t.ownStatus = 0x00310005 ∧ s.Keeps (writeSet .shaUpdate) t ∧ t.sha.phase = .active ∧
          t.sha = absorb s.sha (s.bufRead off len) ∧
          t.sha.nbytes.toNat = s.sha.nbytes.toNat + len ∧ t.sha.fill.toNat = (fill + len) % 64 ∧
          t.sha.h = (blocks64 ((fill + len) / 64) fed).foldl compress s.sha.h ∧
          t.sha.blk.toList.take ((fill + len) % 64) = fed.drop (64 * ((fill + len) / 64)) ∧
          (fill + len ≤ 64 →
            let block := fed ++ s.sha.blk.toList.drop (fill + len)
            t.sha.blk.toList = block ∧
            t.sha.h = if fill + len = 64 then compress s.sha.h block else s.sha.h)))

/-- R147, R151, with R34's FILL = NBYTES mod 64: SHA_FINAL outside ACTIVE raises SHA_STATE and changes STATUS alone; in
ACTIVE it absorbs the padding of NBYTES without counting it, and leaves phase FINALIZED, FILL 0, NBYTES as it was, and in
DIGEST the words of SHA.H, each big-endian. -/
def Obligations.ShaFinalProducesDigest : Prop :=
  ∀ s : State, ∃ t, exec .shaFinal s = .next t ∧
    (s.sha.phase ≠ .active → t = s.setStatus s.port 0x00320704) ∧
    (s.sha.phase = .active →
      t.ownStatus = 0x00320005 ∧ s.Keeps (writeSet .shaFinal) t ∧ t.sha.phase = .finalized ∧
      t.sha.nbytes = s.sha.nbytes ∧
      t.sha = { absorbBytes s.sha (shaPad s.sha.nbytes.toNat) with phase := .finalized } ∧
      (s.sha.fill.toNat = s.sha.nbytes.toNat % 64 → t.sha.fill = 0) ∧
      ∀ i < 8, ∀ j < 4,
        (t.digest.toList.getD (4 * i + j) 0).toNat =
          ([t.sha.h.h0, t.sha.h.h1, t.sha.h.h2, t.sha.h.h3, t.sha.h.h4, t.sha.h.h5, t.sha.h.h6,
            t.sha.h.h7].getD i 0).toNat / 2 ^ (24 - 8 * j) % 256)

/-- R153: SHA_INIT, then SHA_UPDATE of each piece in order (the host doing anything in between that leaves the context
alone), then SHA_FINAL, leaves in DIGEST the one-shot digest of the concatenation, whatever the pieces. -/
def Obligations.ShaStreamIsOneShot : Prop :=
  ∀ (m : List Byte) (s : State), StreamRun m s →
    ∃ t, exec .shaFinal s = .next t ∧ t.digest = sha256 m ∧ t.sha.phase = .finalized ∧ t.ownStatus = 0x00320005

/-- R152 with R144: the digest reached byte by byte is the digest of the padded message compressed 64-byte block by
block; and Compress is R150's, with the word functions of R140, the schedule of R148 and the rounds of R149 written out: W is
the big-endian words of the block, continued by the recurrence, and the working variables go from H through 64 rounds. -/
def Obligations.ShaIsBlockwise : Prop :=
  (∀ m : List Byte, sha256 m = sha256Blockwise m) ∧
  let rotr (x : Word) (n : Nat) : Word := (x >>> n) ||| (x <<< (32 - n))
  ∀ (h : Hash8) (b : List Byte), ∃ (w : Nat → Word) (v : Nat → Hash8),
    (∀ t < 16, (w t).toNat = (b.getD (4 * t) 0).toNat * 2 ^ 24 + (b.getD (4 * t + 1) 0).toNat * 2 ^ 16 +
      (b.getD (4 * t + 2) 0).toNat * 2 ^ 8 + (b.getD (4 * t + 3) 0).toNat) ∧
    (∀ t, 16 ≤ t → t < 64 →
      w t = (rotr (w (t - 2)) 17 ^^^ rotr (w (t - 2)) 19 ^^^ (w (t - 2) >>> 10)) + w (t - 7) +
        (rotr (w (t - 15)) 7 ^^^ rotr (w (t - 15)) 18 ^^^ (w (t - 15) >>> 3)) + w (t - 16)) ∧
    v 0 = h ∧
    (∀ t < 64,
      let x := v t
      let t1 := x.h7 + (rotr x.h4 6 ^^^ rotr x.h4 11 ^^^ rotr x.h4 25) + ((x.h4 &&& x.h5) ^^^ (~~~x.h4 &&& x.h6)) +
        roundK.getD t 0 + w t
      let t2 := (rotr x.h0 2 ^^^ rotr x.h0 13 ^^^ rotr x.h0 22) +
        ((x.h0 &&& x.h1) ^^^ (x.h0 &&& x.h2) ^^^ (x.h1 &&& x.h2))
      v (t + 1) =
        { h0 := t1 + t2, h1 := x.h0, h2 := x.h1, h3 := x.h2, h4 := x.h3 + t1, h5 := x.h4, h6 := x.h5, h7 := x.h6 }) ∧
    compress h b =
      { h0 := h.h0 + (v 64).h0, h1 := h.h1 + (v 64).h1, h2 := h.h2 + (v 64).h2, h3 := h.h3 + (v 64).h3,
        h4 := h.h4 + (v 64).h4, h5 := h.h5 + (v 64).h5, h6 := h.h6 + (v 64).h6, h7 := h.h7 + (v 64).h7 }

/-- R146: the padding for N bytes is 0x80, then zero bytes, then eight bytes holding 8·N modulo 2^64 most significant
first, and with it the total is a multiple of 64; its length is 64 - N mod 64, or 64 more where that leaves no room for
the nine bytes. -/
def Obligations.ShaPaddingFillsBlocks : Prop :=
  ∀ n : Nat,
    (n + (shaPad n).length) % 64 = 0 ∧
    (shaPad n).length = (if n % 64 ≤ 55 then 64 - n % 64 else 128 - n % 64) ∧
    (shaPad n).head? = some 0x80#8 ∧
    (∀ k, 1 ≤ k → k + 8 < (shaPad n).length → (shaPad n).getD k 1 = 0#8) ∧
    ((shaPad n).drop ((shaPad n).length - 8)).foldl (fun acc b => acc * 256 + b.toNat) 0 = 8 * n % 2 ^ 64

/-! ### HMAC -/

/-- R170, R172, R175: HMAC_COMPUTE on every state: BAD_RANGE changing STATUS alone; otherwise DIGEST is
Sha256((K0 ⊕ opad) ‖ Sha256((K0 ⊕ ipad) ‖ m)) and the SHA context has its reset values. -/
def Obligations.HmacComputeWritesTag : Prop :=
  ∀ s : State,
    let off := (s.regs s.port).arg0.toNat
    let len := (s.regs s.port).arg1.toNat
    let k0 := s.key.toList ++ List.replicate 32 0#8
    let inner := sha256 (k0.map (fun b => b ^^^ 0x36#8) ++ s.bufRead off len)
    ∃ t, exec .hmacCompute s = .next t ∧
      (s.cfg.bufSize < off + len → t = s.setStatus s.port 0x00400304) ∧
      (off + len ≤ s.cfg.bufSize →
        t.ownStatus = 0x00400005 ∧ s.Keeps (writeSet .hmacCompute) t ∧ t.sha = ShaCtx.reset ∧
        t.digest = sha256 (k0.map (fun b => b ^^^ 0x5C#8) ++ inner.toList))

/-- R173, R174, R175: HMAC_VERIFY on every state, for both tag lengths n: BAD_RANGE for either range, changing STATUS
alone; otherwise OK, with MATCH exactly when the first n bytes of the computed HMAC equal BUF[toff .. toff + n); DIGEST
stays and the SHA context has its reset values. -/
def Obligations.HmacVerifyComparesTag : Prop :=
  ∀ (s : State) (tag32 : Bool),
    let moff := (s.regs s.port).arg0.toNat
    let mlen := (s.regs s.port).arg1.toNat
    let toff := (s.regs s.port).arg2.toNat
    let n := if tag32 then 32 else 16
    ∃ t, exec (.hmacVerify tag32) s = .next t ∧
      (s.cfg.bufSize < moff + mlen ∨ s.cfg.bufSize < toff + n → t = s.setStatus s.port 0x00410304) ∧
      (moff + mlen ≤ s.cfg.bufSize → toff + n ≤ s.cfg.bufSize →
        s.Keeps (writeSet (.hmacVerify tag32)) t ∧ t.sha = ShaCtx.reset ∧
        t.ownStatus =
          if (hmacSha256 s.key (s.bufRead moff mlen)).toList.take n = s.bufRead toff n then 0x00410007 else 0x00410005)

/-- R360: the compressions of a command that completes: ⌊(FILL + len)/64⌋ for SHA_UPDATE; 1 or 2 for SHA_FINAL by
FILL ≤ 55 (FILL = NBYTES mod 64, R34); ⌊(len + 72)/64⌋ + 3 for the HMAC commands. For SHA_UPDATE and SHA_FINAL these are
the compressions exec performs: SHA.H afterwards is the fold of Compress over exactly that many blocks. -/
def Obligations.CompressionCounts : Prop :=
  ∀ s : State,
    let len := (s.regs s.port).arg1.toNat
    (∀ t, exec .shaUpdate s = .next t → statusOk t.ownStatus = true →
      compressions .shaUpdate s = (s.sha.fill.toNat + len) / 64 ∧
      t.sha.h = (blocks64 (compressions .shaUpdate s)
        (s.sha.blk.toList.take s.sha.fill.toNat ++ s.bufRead (s.argNat 0) len)).foldl compress s.sha.h) ∧
    (s.sha.phase = .active → s.sha.fill.toNat = s.sha.nbytes.toNat % 64 →
      (compressions .shaFinal s = if s.sha.fill.toNat ≤ 55 then 1 else 2) ∧
      ∃ t, exec .shaFinal s = .next t ∧
        t.sha.h = (blocks64 (compressions .shaFinal s)
          (s.sha.blk.toList.take s.sha.fill.toNat ++ shaPad s.sha.nbytes.toNat)).foldl compress s.sha.h) ∧
    (∀ t, exec .hmacCompute s = .next t → statusOk t.ownStatus = true →
      compressions .hmacCompute s = (len + 72) / 64 + 3) ∧
    ∀ t b, exec (.hmacVerify b) s = .next t → statusOk t.ownStatus = true →
      compressions (.hmacVerify b) s = (len + 72) / 64 + 3

/-! ### The bus -/

/-- R66: a read, at any address and of any width, changes nothing but the reply, and a second read gives the same reply;
a write whose target is a CMD register executes that command on its port; any other write leaves every element but ARG, KEY
and BUF, and runs no command (no STATUS and no RES changes). -/
def Obligations.OnlyCmdWritesHaveSideEffects : Prop :=
  ∀ (s : State) (m : Master) (addr : Nat) (n : Width),
    (∃ t, busAccess m (.read addr n) s = .next t ∧ s.SameBlock t ∧ busAccess m (.read addr n) t = .next t) ∧
    ∀ v : Word,
      (∀ p, s.rst = false → busTarget s.cfg addr n = some (.reg (.cmd p)) →
        n = .w4 ∧ busAccess m (.write addr n v) s = command p v (s.respond m .written)) ∧
      ((∀ p, busTarget s.cfg addr n ≠ some (.reg (.cmd p))) →
        ∃ t, busAccess m (.write addr n v) s = .next t ∧
          t.clk = s.clk ∧ t.dcf = s.dcf ∧ t.sha = s.sha ∧ t.digest = s.digest ∧ t.hwCnt = s.hwCnt ∧ t.rst = s.rst ∧
          ∀ p, (t.regs p).res = (s.regs p).res ∧ (t.regs p).status = (s.regs p).status)

/-- R63, R64: an access in the window that is misaligned, or of 1 or 2 bytes to a register (offsets 0x000 to 0x083), gets
BusError and changes nothing; every other access in the window completes: so do the 1- and 2-byte accesses to the reserved
offsets 0x084 to 0x0FF, by R65, with 0 for a read and no change by a write (R304's sentence is wider: how it is read there is
log entry 6). -/
def Obligations.BusErrorsChangeNothing : Prop :=
  ∀ (s : State) (m : Master) (off : Nat) (n : Width) (v : Word), s.rst = false → off < 0x400 →
    (off % n.bytes ≠ 0 ∨ (off < 0x84 ∧ n ≠ .w4) →
      busAccess m (.read (s.cfg.base + off) n) s = .next (s.respond m .busError) ∧
      busAccess m (.write (s.cfg.base + off) n v) s = .next (s.respond m .busError)) ∧
    (off % n.bytes = 0 → n ≠ .w4 → 0x84 ≤ off → off < 0x100 →
      busAccess m (.read (s.cfg.base + off) n) s = .next (s.respond m (.data 0)) ∧
      busAccess m (.write (s.cfg.base + off) n v) s = .next (s.respond m .written)) ∧
    (off % n.bytes = 0 → (off < 0x84 → n = .w4) →
      (∃ x, busAccess m (.read (s.cfg.base + off) n) s = .next (s.respond m (.data x))) ∧
      ∃ t, busAccess m (.write (s.cfg.base + off) n v) s = .next t ∧
        t.reply = some { master := m, response := .written })

/-- R62, R69, R35: an aligned write of any width in BUF sets exactly the bytes it covers, in little-endian order, and no
other byte of BUF and no other element; afterwards an aligned read of any width in BUF returns the bytes it covers (a word
written is read back byte by byte, and bytes are read back as a word), and one in the DIGEST window returns DIGEST's. -/
def Obligations.BufWordThenBytes : Prop :=
  ∀ (s : State) (m : Master) (i : Nat) (n : Width) (v : Word),
    s.rst = false → i % n.bytes = 0 → i + n.bytes ≤ s.cfg.bufSize →
    ∃ t, busAccess m (.write (s.cfg.base + 0x200 + i) n v) s = .next t ∧
      (∀ a, t.bufByte a =
        if i ≤ a ∧ a < i + n.bytes then BitVec.ofNat 8 (v.toNat / 2 ^ (8 * (a - i)) % 256) else s.bufByte a) ∧
      (t.p0 = s.p0 ∧ t.p1 = s.p1 ∧ t.clk = s.clk ∧ t.dcf = s.dcf ∧ t.sha = s.sha ∧ t.digest = s.digest ∧
        t.key = s.key ∧ t.hwCnt = s.hwCnt) ∧
      ∀ (r : Width) (a : Nat), a % r.bytes = 0 →
        (a + r.bytes ≤ s.cfg.bufSize →
          ∃ x : Word, busAccess m (.read (s.cfg.base + 0x200 + a) r) t = .next (t.respond m (.data x)) ∧
            x.toNat = ((List.range r.bytes).map fun j => (t.bufByte (a + j)).toNat * 2 ^ (8 * j)).sum) ∧
        (a + r.bytes ≤ 32 →
          ∃ x : Word, busAccess m (.read (s.cfg.base + 0x100 + a) r) t = .next (t.respond m (.data x)) ∧
            x.toNat = ((List.range r.bytes).map fun j => (s.digest.toList.getD (a + j) 0).toNat * 2 ^ (8 * j)).sum)

/-- R62, R65, R36: an aligned write in the KEY window sets exactly the bytes it covers and nothing else; an aligned read
there returns 0. -/
def Obligations.KeyWindowIsWriteOnly : Prop :=
  ∀ (s : State) (m : Master) (i : Nat) (n : Width) (v : Word),
    s.rst = false → i % n.bytes = 0 → i + n.bytes ≤ 32 →
    busAccess m (.read (s.cfg.base + 0x120 + i) n) s = .next (s.respond m (.data 0)) ∧
    ∃ k : Vector Byte 32,
      busAccess m (.write (s.cfg.base + 0x120 + i) n v) s = .next { s.respond m .written with key := k } ∧
      ∀ a < 32, k.toList.getD a 0 =
        if i ≤ a ∧ a < i + n.bytes then BitVec.ofNat 8 (v.toNat / 2 ^ (8 * (a - i))) else s.key.toList.getD a 0

/-- R23, R70: a 4-byte write to P<p>.ARG<k> stores the value there and nowhere else, and a read returns it. -/
def Obligations.ArgRegistersReadBack : Prop :=
  ∀ (s : State) (m : Master) (p : Port) (k : Fin 4) (v : Word), s.rst = false →
    let addr := s.cfg.base + (if p = .p0 then 0x008 else 0x028) + 4 * k.val
    ∃ t, busAccess m (.write addr .w4 v) s = .next t ∧
      busAccess m (.read addr .w4) t = .next (t.respond m (.data v)) ∧
      (∀ k', k' ≠ k → (t.regs p).arg k' = (s.regs p).arg k') ∧
      (t.regs p).res = (s.regs p).res ∧ (t.regs p).status = (s.regs p).status ∧
      t.regs p.other = s.regs p.other ∧ t.clk = s.clk ∧ t.dcf = s.dcf ∧ t.sha = s.sha ∧ t.digest = s.digest ∧
      t.key = s.key ∧ ∀ a, t.bufByte a = s.bufByte a

/-- R65: an aligned access of any width to a reserved offset completes, a read returning 0 and a write changing nothing
(also a 1- or 2-byte access to 0x084 to 0x0FF, where R304's sentence is wider: how it is read there is log entry 6);
aligned 4-byte writes to the read-only registers, and aligned writes of any width to DIGEST, change nothing; 4-byte reads of
CMD and aligned reads of any width of KEY return 0. -/
def Obligations.ReservedAndReadOnlyOffsets : Prop :=
  ∀ (s : State) (m : Master) (off : Nat) (n : Width) (v : Word), s.rst = false → off % n.bytes = 0 → off < 0x400 →
    ((0x84 ≤ off ∧ off < 0x100) ∨ (0x140 ≤ off ∧ off < 0x200) ∨ 0x200 + s.cfg.bufSize ≤ off →
      busAccess m (.read (s.cfg.base + off) n) s = .next (s.respond m (.data 0)) ∧
      busAccess m (.write (s.cfg.base + off) n v) s = .next (s.respond m .written)) ∧
    (n = .w4 → off = 0x04 ∨ off = 0x24 ∨ (0x18 ≤ off ∧ off < 0x20) ∨ (0x38 ≤ off ∧ off < 0x84) →
      busAccess m (.write (s.cfg.base + off) n v) s = .next (s.respond m .written)) ∧
    (0x100 ≤ off → off < 0x120 →
      busAccess m (.write (s.cfg.base + off) n v) s = .next (s.respond m .written)) ∧
    ((n = .w4 ∧ (off = 0x00 ∨ off = 0x20)) ∨ (0x120 ≤ off ∧ off < 0x140) →
      busAccess m (.read (s.cfg.base + off) n) s = .next (s.respond m (.data 0)))

/-- R61, R70: the 64-bit register pairs: bits 31:0 at the LO offset, bits 63:32 at the next word, for RES of both ports,
DCF_EDGE, DCF_OK, DCF_TS, CLK_PREV and CLK_OFF, and zero-extended for DCF_BITS and CLK_EXT. -/
def Obligations.RegisterPairsReadWhole : Prop :=
  ∀ (s : State) (m : Master), s.rst = false →
    ∀ x ∈ [(0x018, s.p0.res), (0x038, s.p1.res), (0x048, s.dcf.bits.setWidth 64), (0x050, s.dcf.lastT),
        (0x058, s.dcf.lastOkT), (0x060, s.dcf.lastTs), (0x068, s.clk.e.setWidth 64), (0x070, s.clk.prev),
        (0x078, s.clk.off)],
      busAccess m (.read (s.cfg.base + x.1) .w4) s =
        .next (s.respond m (.data (BitVec.ofNat 32 (x.2.toNat % 2 ^ 32)))) ∧
      busAccess m (.read (s.cfg.base + x.1 + 4) .w4) s =
        .next (s.respond m (.data (BitVec.ofNat 32 (x.2.toNat / 2 ^ 32))))

/-- R31 with the codes of R32 and R33, R34's SHA_STAT with its phase codes, R40's ID, R25's STATUS, as the bus reads
them. -/
def Obligations.StatusViewsReadFields : Prop :=
  ∀ (s : State) (m : Master), s.rst = false → ∃ ev res ph : Nat,
    (s.dcf.event, ev) ∈ ([(.none, 0), (.gap, 1), (.minute, 2), (.riseCorrupt, 3), (.bit0, 4), (.bit1, 5),
      (.fallCorrupt, 6), (.overflow, 7)] : List (DcfEvent × Nat)) ∧
    (s.dcf.result, res) ∈ ([(.none, 0), (.ok, 1), (.badCount, 2), (.leapBit, 3), (.startMarker, 4), (.timeMarker, 5),
      (.parityMin, 6), (.parityHour, 7), (.parityDate, 8), (.bcdMin, 9), (.bcdHour, 10), (.bcdDay, 11), (.bcdDow, 12),
      (.bcdMonth, 13), (.bcdYear, 14), (.utcOffset, 15), (.century, 16)] : List (DcfResult × Nat)) ∧
    (s.sha.phase, ph) ∈ ([(.idle, 0), (.active, 1), (.finalized, 2)] : List (ShaPhase × Nat)) ∧
    busAccess m (.read (s.cfg.base + 0x044) .w4) s =
      .next (s.respond m (.data (BitVec.ofNat 32 (s.dcf.synced.toNat * 2 ^ 18 + s.dcf.syncErr.toNat * 2 ^ 17 +
        res * 2 ^ 12 + ev * 2 ^ 8 +
        s.dcf.level.toNat * 2 ^ 7 + s.dcf.count.toNat)))) ∧
    busAccess m (.read (s.cfg.base + 0x080) .w4) s =
      .next (s.respond m (.data (BitVec.ofNat 32 (s.sha.fill.toNat * 2 ^ 8 + ph)))) ∧
    busAccess m (.read (s.cfg.base + 0x040) .w4) s = .next (s.respond m (.data 0x43544C53)) ∧
    busAccess m (.read (s.cfg.base + 0x004) .w4) s = .next (s.respond m (.data s.p0.status)) ∧
    busAccess m (.read (s.cfg.base + 0x024) .w4) s = .next (s.respond m (.data s.p1.status))

/-! ### The host's statements -/

/-- R102, R92, R23: the statement `arg64 P<p>, k, v` (two stores), k 0 or 2, leaves v[31:0] in ARG k and v[63:32] in ARG
k + 1 of port p, whatever they held, and no other ARG changes; with k = 0 v is the port's 64-bit operand. -/
def Obligations.ArgSixtyFourLoadsOperand : Prop :=
  ∀ (s : State) (m : Master) (p : Port) (k : Nat) (v : DWord), s.rst = false → s.inbox = [] → k = 0 ∨ k = 2 →
    ∃ t, Host.Core.run Sys2Proof.core 2 (s.enqueue m (.arg64 p k v)) = .next t ∧ t.inbox = [] ∧
      (k = 0 → (t.regs p).arg1.toNat * 2 ^ 32 + (t.regs p).arg0.toNat = v.toNat ∧
        ({ t with port := p } : State).argTime = v ∧
        (t.regs p).arg2 = (s.regs p).arg2 ∧ (t.regs p).arg3 = (s.regs p).arg3) ∧
      (k = 2 → (t.regs p).arg3.toNat * 2 ^ 32 + (t.regs p).arg2.toNat = v.toNat ∧
        (t.regs p).arg0 = (s.regs p).arg0 ∧ (t.regs p).arg1 = (s.regs p).arg1) ∧
      t.regs p.other = s.regs p.other

/-- R102, R62: the statement `bufstr i, text` leaves exactly the text's bytes in BUF from i on, whatever the alignment of
i and the length, and changes no other byte of BUF and no port. -/
def Obligations.BufstrWritesText : Prop :=
  ∀ (s : State) (m : Master) (i : Nat) (text : List Byte), s.rst = false → s.inbox = [] →
    i + text.length ≤ s.cfg.bufSize →
    ∃ t, Host.Core.run Sys2Proof.core (hostEvents s.cfg m (.bufstr i text)).length (s.enqueue m (.bufstr i text)) =
        .next t ∧
      t.inbox = [] ∧ t.bufRead i text.length = text ∧
      (∀ a, (a < i ∨ i + text.length ≤ a) → t.bufByte a = s.bufByte a) ∧ t.p0 = s.p0 ∧ t.p1 = s.p1

/-! ### Reset and the invariant -/

/-- R340: asserting and releasing `rst` leaves every state element of the table at its reset value, whatever it was; and by
R343's words ("`hw_cnt` is not reset"; log entry 3) the counter keeps its value when no tick falls in between. -/
def Obligations.ResetLoadsEveryElement : Prop :=
  ∀ (s : State) (rest : List Event), s.inbox = .rst true :: .rst false :: rest →
    ∃ t, Host.Core.run Sys2Proof.core 2 s = .next t ∧ t.AtReset ∧ t.rst = false ∧ t.hwCnt = s.hwCnt ∧
      t.cfg = s.cfg ∧ t.inbox = rest ∧ t.dcfSyncErrOut = false

/-- R340: an access the bus delivers while `rst` is asserted has no effect (that the master gets no acceptance as its reply
is the model's choice, log entry 7). -/
def Obligations.AccessInResetHasNoEffect : Prop :=
  ∀ (s : State) (m : Master) (a : Access) (rest : List Event), s.rst = true → s.inbox = .bus m a :: rest →
    step s = .next { s with inbox := rest, reply := some { master := m, response := .notAccepted } }

/-- R25 ("Never cleared except by reset"), R30, R340: no step but a reset or a power cycle clears a port's STATUS.DONE or
DCF.SYNCED. -/
def Obligations.OnlyResetClearsDoneAndSynced : Prop :=
  ∀ (s t : State), step s = .next t → (∀ e rest, s.inbox = e :: rest → e ≠ .powerCycle ∧ ∀ l, e ≠ .rst l) →
    (∀ p, statusDoneBit (s.regs p).status = true → statusDoneBit (t.regs p).status = true) ∧
    (s.dcf.synced = true → t.dcf.synced = true)

/-- R315: after power is lost and comes back every element holds its reset value (the model's `powerCycle`, log entry 8). -/
def Obligations.PowerCycleIsReset : Prop :=
  ∀ (s : State) (rest : List Event), s.inbox = .powerCycle :: rest →
    ∃ t, step s = .next t ∧ t.AtReset ∧ t.rst = false ∧ t.cfg = s.cfg ∧ t.inbox = rest

/-- R340's table for the state after reset, and that the invariant holds there. -/
def Obligations.ResetStateMeetsInvariant : Prop :=
  State.reset.AtReset ∧ State.reset.rst = false ∧ State.reset.Inv

/-- The invariant every step keeps, from every state that meets it: BUF's memory in canonical form, CLK.PREV[63:15] = CLK.E
(R28), DCF.COUNT at most 60 (R239), what only a success writes still at reset before the first success (R250), the SHA
context legal (R34), both STATUS words legal (R25, R300), and reset values while `rst` is asserted (R340; log entry 7). -/
def Obligations.StepKeepsInvariant : Prop :=
  ∀ s t : State, s.Inv → step s = .next t → t.Inv

/-! ### The work of the HMAC commands -/

/-- R361: what the HMAC commands do by R360's measure depends neither on the key nor on BUF's bytes, on any state (ARG alone
decides); commands of equal length that complete perform equally many compressions; the comparison combines all n byte pairs,
16 or 32 by TAG32, however many match, and its result is their equality. So the requirement can be met: there are latencies
that are constant in R361's sense (`Latencies`) and, for a command that completes, equal to the compressions and pairs. -/
def Obligations.HmacWorkIsConstantTime : Prop :=
  (∀ s t : State, s.cfg = t.cfg → (∀ k, s.arg k = t.arg k) →
    compressions .hmacCompute s = compressions .hmacCompute t ∧
    ∀ b, compressions (.hmacVerify b) s = compressions (.hmacVerify b) t) ∧
  (∀ (s t s' t' : State) (i : Instr), (i = .hmacCompute ∨ ∃ b, i = .hmacVerify b) → s.argNat 1 = t.argNat 1 →
    exec i s = .next s' → exec i t = .next t' → statusOk s'.ownStatus = true → statusOk t'.ownStatus = true →
    compressions i s = compressions i t) ∧
  (∀ (s : State) (b : Bool), s.comparedPairs b = if b then 32 else 16) ∧
  (∀ (x y : List Byte) (n : Nat), n ≤ x.length → n ≤ y.length →
    (ctCompare x y n).2 = n ∧ (ctEqual x y n = true ↔ ∀ i < n, x.getD i 0 = y.getD i 0)) ∧
  ∃ l : Latencies, ∀ s t : State,
    (exec .hmacCompute s = .next t → statusOk t.ownStatus = true →
      l.cycles .hmacCompute s = compressions .hmacCompute s) ∧
    ∀ b, exec (.hmacVerify b) s = .next t → statusOk t.ownStatus = true →
      l.cycles (.hmacVerify b) s = compressions (.hmacVerify b) s + s.comparedPairs b
end

