-- ==== Sys2Proof/Laws/Base64.lean ====
section
/-! SUPPORT. What the base64 unit's functions do: lengths, and the decoded bytes one by one. -/

namespace Sys2Proof.Machine

/-- Virtual padding (spec/40_base64.md R121): none at length 1 mod 4, else up to two pad characters to a whole
quadruplet. -/
theorem virtualPad_eq (s0 : List Byte) : virtualPad s0 =
    if s0.length % 4 = 1 then none else some (s0 ++ List.replicate ((4 - s0.length % 4) % 4) padChar) := by
  have h := Nat.mod_lt s0.length (show 0 < 4 by decide)
  unfold virtualPad
  generalize s0.length % 4 = k at h
  interval_cases k <;> simp [List.replicate]

theorem virtualPad_length {s0 s : List Byte} (h : virtualPad s0 = some s) : s.length % 4 = 0 := by
  rw [virtualPad_eq] at h
  split at h
  · cases h
  · cases h
    simp only [List.length_append, List.length_replicate]
    omega

theorem quadsBytes_length (s : List Byte) (h : s.length % 4 = 0) : (quadsBytes s).length = 3 * (s.length / 4) := by
  induction s using quadsBytes.induct with
  | case1 c0 c1 c2 c3 rest ih =>
    simp only [quadsBytes, quadBytes, List.length_append, List.length_cons, List.length_nil] at h ⊢
    rw [ih (by omega)]
    omega
  | case2 s hs =>
    match s, hs with
    | [], _ => rfl
    | [_], _ => simp at h
    | [_, _], _ => simp at h
    | [_, _, _], _ => simp at h
    | c0 :: c1 :: c2 :: c3 :: rest, hs => exact absurd rfl (hs c0 c1 c2 c3 rest)

/-- The output has n bytes (R124). -/
theorem decodeQuads_length (s : List Byte) (h : s.length % 4 = 0) : (decodeQuads s).length = decodedLength s := by
  rw [decodeQuads, List.length_take, quadsBytes_length s h, decodedLength]
  omega

/-- q from the last two characters (R122). -/
theorem padCount_eq (s : List Byte) : padCount s =
    if s.getLast? = some padChar then (if s.dropLast.getLast? = some padChar then 2 else 1) else 0 := by
  unfold padCount trailingPads
  have h1 : s.getLast? = s.reverse.head? := by simp
  have h2 : s.dropLast.getLast? = s.reverse.tail.head? := by simp
  rw [h1, h2]
  rcases s.reverse with _ | ⟨a, _ | ⟨b, l⟩⟩
  · rfl
  · by_cases ha : a = padChar <;> simp [ha]
  · by_cases ha : a = padChar <;> by_cases hb : b = padChar <;> simp [ha, hb]

/-- Byte k of the decoding of whole quadruplets (R123). -/
theorem quadsBytes_getD (s : List Byte) (h : s.length % 4 = 0) (k : Nat) (hk : k < 3 * (s.length / 4)) :
    (quadsBytes s).getD k 0 =
      (quadBytes (s.getD (4 * (k / 3)) 0) (s.getD (4 * (k / 3) + 1) 0) (s.getD (4 * (k / 3) + 2) 0)
        (s.getD (4 * (k / 3) + 3) 0)).getD (k % 3) 0 := by
  induction s using quadsBytes.induct generalizing k with
  | case1 c0 c1 c2 c3 rest ih =>
    simp only [List.length_cons] at h hk
    by_cases h3 : k < 3
    · have : k / 3 = 0 := by omega
      rw [this, Nat.mod_eq_of_lt h3]
      simp only [quadsBytes]
      rw [List.getD_append _ _ _ _ (by simp [quadBytes]; omega)]
      rfl
    · have e1 : k / 3 = (k - 3) / 3 + 1 := by omega
      have e2 : k % 3 = (k - 3) % 3 := by omega
      simp only [quadsBytes]
      rw [List.getD_append_right _ _ _ _ (by simp [quadBytes]; omega)]
      have e3 : k - (quadBytes c0 c1 c2 c3).length = k - 3 := rfl
      rw [e3, ih (by omega) (k - 3) (by omega), e1, e2]
      rfl
  | case2 s hs =>
    match s, hs with
    | [], _ => simp at hk
    | [_], _ => simp at h
    | [_, _], _ => simp at h
    | [_, _, _], _ => simp at h
    | c0 :: c1 :: c2 :: c3 :: rest, hs => exact absurd rfl (hs c0 c1 c2 c3 rest)

/-- The output is never longer than the input (R124). -/
theorem base64Decode_length {s0 out : List Byte} (h : base64Decode s0 = .ok out) : out.length ≤ s0.length := by
  unfold base64Decode at h
  split at h
  · cases h
  · rename_i s hs
    split at h
    · split at h <;> cases h
    · cases h
      have hl := virtualPad_length hs
      rw [decodeQuads_length s hl, decodedLength, padCount_eq]
      rw [virtualPad_eq] at hs
      split at hs
      · cases hs
      · rename_i h1
        cases hs
        have h4 := Nat.mod_lt s0.length (show 0 < 4 by decide)
        generalize hk : s0.length % 4 = k at h1 h4
        interval_cases k
        · simp only [Nat.sub_zero, Nat.mod_self, List.replicate_zero, List.append_nil]
          omega
        · exact absurd rfl h1
        · have e : s0 ++ List.replicate ((4 - 2) % 4) padChar = (s0 ++ [padChar]) ++ [padChar] := by simp [List.replicate]
          rw [e]
          simp
          omega
        · have e : s0 ++ List.replicate ((4 - 3) % 4) padChar = s0 ++ [padChar] := by simp
          rw [e]
          simp
          split <;> omega

end Sys2Proof.Machine
end

