-- ==== Sys2Proof/Laws/State.lean ====
section
/-! SUPPORT. One lemma per field per update of the state, so that no proof unfolds a record update. -/

namespace Sys2Proof.Machine

variable (s : State) (p q : Port) (r : PortRegs)

/-! ### Ports -/

@[simp] theorem Port.other_p0 : Port.p0.other = .p1 := rfl
@[simp] theorem Port.other_p1 : Port.p1.other = .p0 := rfl
@[simp] theorem Port.other_ne : p.other ≠ p := by cases p <;> decide
@[simp] theorem Port.ne_other : p ≠ p.other := by cases p <;> decide
theorem Port.eq_or_other : q = p ∨ q = p.other := by cases p <;> cases q <;> simp

@[simp] theorem State.regs_p0 : s.regs .p0 = s.p0 := rfl
@[simp] theorem State.regs_p1 : s.regs .p1 = s.p1 := rfl
@[simp] theorem State.setRegs_regs : (s.setRegs p r).regs p = r := by cases p <;> rfl
@[simp] theorem State.setRegs_regs_other : (s.setRegs p r).regs p.other = s.regs p.other := by cases p <;> rfl
@[simp] theorem State.setRegs_other_regs : (s.setRegs p.other r).regs p = s.regs p := by cases p <;> rfl
theorem State.setRegs_regs_ne (h : q ≠ p) : (s.setRegs p r).regs q = s.regs q := by
  cases p <;> cases q <;> first | rfl | exact absurd rfl h
theorem State.setRegs_regs_if : (s.setRegs p r).regs q = if q = p then r else s.regs q := by
  cases p <;> cases q <;> rfl
@[simp] theorem State.setRegs_setRegs (r' : PortRegs) : (s.setRegs p r).setRegs p r' = s.setRegs p r' := by
  cases p <;> rfl
@[simp] theorem State.setRegs_self : s.setRegs p (s.regs p) = s := by cases p <;> rfl

@[simp] theorem State.setRegs_clk : (s.setRegs p r).clk = s.clk := by cases p <;> rfl
@[simp] theorem State.setRegs_dcf : (s.setRegs p r).dcf = s.dcf := by cases p <;> rfl
@[simp] theorem State.setRegs_sha : (s.setRegs p r).sha = s.sha := by cases p <;> rfl
@[simp] theorem State.setRegs_digest : (s.setRegs p r).digest = s.digest := by cases p <;> rfl
@[simp] theorem State.setRegs_key : (s.setRegs p r).key = s.key := by cases p <;> rfl
@[simp] theorem State.setRegs_buf : (s.setRegs p r).buf = s.buf := by cases p <;> rfl
@[simp] theorem State.setRegs_hwCnt : (s.setRegs p r).hwCnt = s.hwCnt := by cases p <;> rfl
@[simp] theorem State.setRegs_rst : (s.setRegs p r).rst = s.rst := by cases p <;> rfl
@[simp] theorem State.setRegs_cfg : (s.setRegs p r).cfg = s.cfg := by cases p <;> rfl
@[simp] theorem State.setRegs_draws : (s.setRegs p r).draws = s.draws := by cases p <;> rfl
@[simp] theorem State.setRegs_inbox : (s.setRegs p r).inbox = s.inbox := by cases p <;> rfl
@[simp] theorem State.setRegs_reply : (s.setRegs p r).reply = s.reply := by cases p <;> rfl
@[simp] theorem State.setRegs_port : (s.setRegs p r).port = s.port := by cases p <;> rfl
@[simp] theorem State.setRegs_bufByte (i : Nat) : (s.setRegs p r).bufByte i = s.bufByte i := by cases p <;> rfl
@[simp] theorem State.setRegs_bufRead (i n : Nat) : (s.setRegs p r).bufRead i n = s.bufRead i n := by cases p <;> rfl

/-- An update of the port registers and one of another field commute. -/
theorem State.setRegs_eq : s.setRegs p r = { s with p0 := (s.setRegs p r).p0, p1 := (s.setRegs p r).p1 } := by
  cases p <;> rfl

/-! ### STATUS and RES -/

variable (w : Word) (v : DWord)

@[simp] theorem State.setStatus_regs : (s.setStatus p w).regs p = { s.regs p with status := w } := by
  simp [State.setStatus]
@[simp] theorem State.setStatus_regs_other : (s.setStatus p w).regs p.other = s.regs p.other := by
  simp [State.setStatus]
@[simp] theorem State.setRes_regs : (s.setRes p v).regs p = { s.regs p with res := v } := by simp [State.setRes]
@[simp] theorem State.setRes_regs_other : (s.setRes p v).regs p.other = s.regs p.other := by simp [State.setRes]

@[simp] theorem State.setStatus_clk : (s.setStatus p w).clk = s.clk := by simp [State.setStatus]
@[simp] theorem State.setStatus_dcf : (s.setStatus p w).dcf = s.dcf := by simp [State.setStatus]
@[simp] theorem State.setStatus_sha : (s.setStatus p w).sha = s.sha := by simp [State.setStatus]
@[simp] theorem State.setStatus_digest : (s.setStatus p w).digest = s.digest := by simp [State.setStatus]
@[simp] theorem State.setStatus_key : (s.setStatus p w).key = s.key := by simp [State.setStatus]
@[simp] theorem State.setStatus_buf : (s.setStatus p w).buf = s.buf := by simp [State.setStatus]
@[simp] theorem State.setStatus_hwCnt : (s.setStatus p w).hwCnt = s.hwCnt := by simp [State.setStatus]
@[simp] theorem State.setStatus_rst : (s.setStatus p w).rst = s.rst := by simp [State.setStatus]
@[simp] theorem State.setStatus_cfg : (s.setStatus p w).cfg = s.cfg := by simp [State.setStatus]
@[simp] theorem State.setStatus_draws : (s.setStatus p w).draws = s.draws := by simp [State.setStatus]
@[simp] theorem State.setStatus_inbox : (s.setStatus p w).inbox = s.inbox := by simp [State.setStatus]
@[simp] theorem State.setStatus_reply : (s.setStatus p w).reply = s.reply := by simp [State.setStatus]
@[simp] theorem State.setStatus_port : (s.setStatus p w).port = s.port := by simp [State.setStatus]
@[simp] theorem State.setStatus_bufByte (i : Nat) : (s.setStatus p w).bufByte i = s.bufByte i := by
  simp [State.setStatus]

@[simp] theorem State.setRes_clk : (s.setRes p v).clk = s.clk := by simp [State.setRes]
@[simp] theorem State.setRes_dcf : (s.setRes p v).dcf = s.dcf := by simp [State.setRes]
@[simp] theorem State.setRes_sha : (s.setRes p v).sha = s.sha := by simp [State.setRes]
@[simp] theorem State.setRes_digest : (s.setRes p v).digest = s.digest := by simp [State.setRes]
@[simp] theorem State.setRes_key : (s.setRes p v).key = s.key := by simp [State.setRes]
@[simp] theorem State.setRes_buf : (s.setRes p v).buf = s.buf := by simp [State.setRes]
@[simp] theorem State.setRes_hwCnt : (s.setRes p v).hwCnt = s.hwCnt := by simp [State.setRes]
@[simp] theorem State.setRes_rst : (s.setRes p v).rst = s.rst := by simp [State.setRes]
@[simp] theorem State.setRes_cfg : (s.setRes p v).cfg = s.cfg := by simp [State.setRes]
@[simp] theorem State.setRes_draws : (s.setRes p v).draws = s.draws := by simp [State.setRes]
@[simp] theorem State.setRes_inbox : (s.setRes p v).inbox = s.inbox := by simp [State.setRes]
@[simp] theorem State.setRes_reply : (s.setRes p v).reply = s.reply := by simp [State.setRes]
@[simp] theorem State.setRes_port : (s.setRes p v).port = s.port := by simp [State.setRes]
@[simp] theorem State.setRes_bufByte (i : Nat) : (s.setRes p v).bufByte i = s.bufByte i := by simp [State.setRes]

/-! ### ARG -/

@[simp] theorem PortRegs.arg_setArg (k : Fin 4) (x : Word) : (r.setArg k x).arg k = x := by
  match k with
  | 0 => rfl
  | 1 => rfl
  | 2 => rfl
  | 3 => rfl
theorem PortRegs.arg_setArg_ne (k k' : Fin 4) (x : Word) (h : k' ≠ k) : (r.setArg k x).arg k' = r.arg k' := by
  match k, k', h with
  | 0, 0, h => exact absurd rfl h
  | 0, 1, _ => rfl
  | 0, 2, _ => rfl
  | 0, 3, _ => rfl
  | 1, 0, _ => rfl
  | 1, 1, h => exact absurd rfl h
  | 1, 2, _ => rfl
  | 1, 3, _ => rfl
  | 2, 0, _ => rfl
  | 2, 1, _ => rfl
  | 2, 2, h => exact absurd rfl h
  | 2, 3, _ => rfl
  | 3, 0, _ => rfl
  | 3, 1, _ => rfl
  | 3, 2, _ => rfl
  | 3, 3, h => exact absurd rfl h
@[simp] theorem PortRegs.setArg_res (k : Fin 4) (x : Word) : (r.setArg k x).res = r.res := by
  match k with
  | 0 => rfl
  | 1 => rfl
  | 2 => rfl
  | 3 => rfl
@[simp] theorem PortRegs.setArg_status (k : Fin 4) (x : Word) : (r.setArg k x).status = r.status := by
  match k with
  | 0 => rfl
  | 1 => rfl
  | 2 => rfl
  | 3 => rfl
@[simp] theorem PortRegs.arg_setStatus (k : Fin 4) : ({ r with status := w } : PortRegs).arg k = r.arg k := rfl
@[simp] theorem PortRegs.arg_setRes (k : Fin 4) : ({ r with res := v } : PortRegs).arg k = r.arg k := rfl

@[simp] theorem PortRegs.arg_mk (k : Fin 4) :
    ({ arg0 := r.arg0, arg1 := r.arg1, arg2 := r.arg2, arg3 := r.arg3, res := v, status := w } : PortRegs).arg k =
      r.arg k := rfl

/-! ### The clock's operations -/

@[simp] theorem State.nowRawState_p0 : s.nowRawState.p0 = s.p0 := rfl
@[simp] theorem State.nowRawState_p1 : s.nowRawState.p1 = s.p1 := rfl
@[simp] theorem State.nowRawState_regs : s.nowRawState.regs p = s.regs p := by cases p <;> rfl
@[simp] theorem State.nowRawState_prev : s.nowRawState.clk.prev = s.nowRawResult := rfl
@[simp] theorem State.nowRawState_e : s.nowRawState.clk.e = (nowRawValue s.clk.e s.clk.prev s.hwCnt).1 := rfl
@[simp] theorem State.nowRawState_off : s.nowRawState.clk.off = s.clk.off := rfl
@[simp] theorem State.nowRawState_dcf : s.nowRawState.dcf = s.dcf := rfl
@[simp] theorem State.nowRawState_sha : s.nowRawState.sha = s.sha := rfl
@[simp] theorem State.nowRawState_digest : s.nowRawState.digest = s.digest := rfl
@[simp] theorem State.nowRawState_key : s.nowRawState.key = s.key := rfl
@[simp] theorem State.nowRawState_buf : s.nowRawState.buf = s.buf := rfl
@[simp] theorem State.nowRawState_hwCnt : s.nowRawState.hwCnt = s.hwCnt := rfl
@[simp] theorem State.nowRawState_rst : s.nowRawState.rst = s.rst := rfl
@[simp] theorem State.nowRawState_cfg : s.nowRawState.cfg = s.cfg := rfl
@[simp] theorem State.nowRawState_draws : s.nowRawState.draws = s.draws := rfl
@[simp] theorem State.nowRawState_inbox : s.nowRawState.inbox = s.inbox := rfl
@[simp] theorem State.nowRawState_reply : s.nowRawState.reply = s.reply := rfl
@[simp] theorem State.nowRawState_port : s.nowRawState.port = s.port := rfl
@[simp] theorem State.nowRawState_bufByte (i : Nat) : s.nowRawState.bufByte i = s.bufByte i := rfl

/-! ### BUF writes and replies -/

@[simp] theorem State.bufWrite_regs (i : Nat) (bs : List Byte) : (s.bufWrite i bs).regs p = s.regs p := by
  cases p <;> rfl
@[simp] theorem State.bufWrite_clk (i : Nat) (bs : List Byte) : (s.bufWrite i bs).clk = s.clk := rfl
@[simp] theorem State.bufWrite_dcf (i : Nat) (bs : List Byte) : (s.bufWrite i bs).dcf = s.dcf := rfl
@[simp] theorem State.bufWrite_sha (i : Nat) (bs : List Byte) : (s.bufWrite i bs).sha = s.sha := rfl
@[simp] theorem State.bufWrite_digest (i : Nat) (bs : List Byte) : (s.bufWrite i bs).digest = s.digest := rfl
@[simp] theorem State.bufWrite_key (i : Nat) (bs : List Byte) : (s.bufWrite i bs).key = s.key := rfl
@[simp] theorem State.bufWrite_buf (i : Nat) (bs : List Byte) : (s.bufWrite i bs).buf = s.buf.writeBytes i bs := rfl
@[simp] theorem State.bufWrite_hwCnt (i : Nat) (bs : List Byte) : (s.bufWrite i bs).hwCnt = s.hwCnt := rfl
@[simp] theorem State.bufWrite_rst (i : Nat) (bs : List Byte) : (s.bufWrite i bs).rst = s.rst := rfl
@[simp] theorem State.bufWrite_cfg (i : Nat) (bs : List Byte) : (s.bufWrite i bs).cfg = s.cfg := rfl
@[simp] theorem State.bufWrite_draws (i : Nat) (bs : List Byte) : (s.bufWrite i bs).draws = s.draws := rfl
@[simp] theorem State.bufWrite_inbox (i : Nat) (bs : List Byte) : (s.bufWrite i bs).inbox = s.inbox := rfl
@[simp] theorem State.bufWrite_reply (i : Nat) (bs : List Byte) : (s.bufWrite i bs).reply = s.reply := rfl
@[simp] theorem State.bufWrite_port (i : Nat) (bs : List Byte) : (s.bufWrite i bs).port = s.port := rfl

variable (m : Master) (x : Response)

@[simp] theorem State.respond_regs : (s.respond m x).regs p = s.regs p := by cases p <;> rfl
@[simp] theorem State.respond_clk : (s.respond m x).clk = s.clk := rfl
@[simp] theorem State.respond_dcf : (s.respond m x).dcf = s.dcf := rfl
@[simp] theorem State.respond_sha : (s.respond m x).sha = s.sha := rfl
@[simp] theorem State.respond_digest : (s.respond m x).digest = s.digest := rfl
@[simp] theorem State.respond_key : (s.respond m x).key = s.key := rfl
@[simp] theorem State.respond_buf : (s.respond m x).buf = s.buf := rfl
@[simp] theorem State.respond_hwCnt : (s.respond m x).hwCnt = s.hwCnt := rfl
@[simp] theorem State.respond_rst : (s.respond m x).rst = s.rst := rfl
@[simp] theorem State.respond_cfg : (s.respond m x).cfg = s.cfg := rfl
@[simp] theorem State.respond_draws : (s.respond m x).draws = s.draws := rfl
@[simp] theorem State.respond_inbox : (s.respond m x).inbox = s.inbox := rfl
@[simp] theorem State.respond_reply : (s.respond m x).reply = some { master := m, response := x } := rfl
@[simp] theorem State.respond_port : (s.respond m x).port = s.port := rfl
@[simp] theorem State.respond_bufByte (i : Nat) : (s.respond m x).bufByte i = s.bufByte i := rfl
@[simp] theorem State.respond_bufRead (i n : Nat) : (s.respond m x).bufRead i n = s.bufRead i n := rfl

end Sys2Proof.Machine
end

