-- ==== Sys2Proof/Laws/Memory.lean ====
section
/-! SUPPORT. What the memory operations of Machine/Ops.lean do: a read after a write, the frame of a write, and that every
memory operation keeps the canonical form. -/

namespace Sys2Proof.Machine

theorem Memory.read_write_same (m : Memory) (a : Nat) (v : Byte) : (m.write a v).read a = some v := by
  induction m with
  | nil => simp [Memory.write, Memory.read]
  | cons c m ih =>
    obtain ⟨b, w⟩ := c
    simp only [Memory.write]
    split
    · simp [Memory.read]
    · split
      · simp [Memory.read]
      · simp [Memory.read, *]

theorem Memory.read_write_other (m : Memory) (a b : Nat) (v : Byte) (h : b ≠ a) :
    (m.write a v).read b = m.read b := by
  induction m with
  | nil => simp [Memory.write, Memory.read, h]
  | cons c m ih =>
    obtain ⟨x, w⟩ := c
    simp only [Memory.write]
    split
    · simp [Memory.read, h]
    · split
      · subst_vars; simp [Memory.read, h]
      · simp [Memory.read, ih]

theorem Memory.read_write (m : Memory) (a b : Nat) (v : Byte) :
    (m.write a v).read b = if b = a then some v else m.read b := by
  split
  · subst_vars; exact read_write_same m _ v
  · exact read_write_other m a b v ‹_›

/-- Byte k of a row of bytes written from a on; every other address as before. -/
theorem Memory.read_writeBytes (m : Memory) (a : Nat) (bs : List Byte) (x : Nat) :
    (m.writeBytes a bs).read x = if a ≤ x ∧ x < a + bs.length then bs[x - a]? else m.read x := by
  induction bs generalizing m a with
  | nil => simp [Memory.writeBytes]
  | cons b bs ih =>
    simp only [Memory.writeBytes, ih, Memory.read_write, List.length_cons]
    by_cases h1 : x = a
    · subst h1; simp
    · by_cases h2 : a + 1 ≤ x ∧ x < a + 1 + bs.length
      · have : x - a = (x - (a + 1)) + 1 := by omega
        rw [if_pos h2, if_pos (by omega), this]; simp
      · rw [if_neg h2, if_neg h1, if_neg (by omega)]

theorem Memory.wfFrom_mono {lo lo' limit : Nat} {m : Memory} (h : lo' ≤ lo) (hm : m.wfFrom lo limit = true) :
    m.wfFrom lo' limit = true := by
  cases m with
  | nil => rfl
  | cons c m =>
    simp only [Memory.wfFrom, Bool.and_eq_true, decide_eq_true_eq] at hm ⊢
    exact ⟨⟨by omega, hm.1.2⟩, hm.2⟩

theorem Memory.write_wfFrom {lo limit a : Nat} {v : Byte} {m : Memory} (hm : m.wfFrom lo limit = true)
    (h1 : lo ≤ a) (h2 : a < limit) : (m.write a v).wfFrom lo limit = true := by
  induction m generalizing lo with
  | nil => simp [Memory.write, Memory.wfFrom, h1, h2]
  | cons c m ih =>
    obtain ⟨b, w⟩ := c
    simp only [Memory.wfFrom, Bool.and_eq_true, decide_eq_true_eq] at hm
    simp only [Memory.write]
    split
    · simp only [Memory.wfFrom, Bool.and_eq_true, decide_eq_true_eq]
      exact ⟨⟨h1, h2⟩, ⟨⟨by omega, hm.1.2⟩, hm.2⟩⟩
    · split
      · subst_vars
        simp only [Memory.wfFrom, Bool.and_eq_true, decide_eq_true_eq]
        exact hm
      · simp only [Memory.wfFrom, Bool.and_eq_true, decide_eq_true_eq]
        exact ⟨hm.1, ih hm.2 (by omega)⟩

/-- A write below the limit keeps the canonical form. -/
theorem Memory.write_wf {limit a : Nat} {v : Byte} {m : Memory} (hm : m.wf limit = true) (h : a < limit) :
    (m.write a v).wf limit = true := Memory.write_wfFrom hm (Nat.zero_le a) h

/-- A row of writes below the limit keeps the canonical form. -/
theorem Memory.writeBytes_wf {limit a : Nat} {bs : List Byte} {m : Memory} (hm : m.wf limit = true)
    (h : a + bs.length ≤ limit) : (m.writeBytes a bs).wf limit = true := by
  induction bs generalizing m a with
  | nil => exact hm
  | cons b bs ih =>
    simp only [List.length_cons] at h
    exact ih (Memory.write_wf hm (by omega)) (by omega)

/-- An address the limit excludes is not listed. -/
theorem Memory.read_none_of_wfFrom {lo limit a : Nat} {m : Memory} (hm : m.wfFrom lo limit = true)
    (h : a < lo ∨ limit ≤ a) : m.read a = none := by
  induction m generalizing lo with
  | nil => rfl
  | cons c m ih =>
    obtain ⟨b, w⟩ := c
    simp only [Memory.wfFrom, Bool.and_eq_true, decide_eq_true_eq] at hm
    simp only [Memory.read]
    rw [if_neg (by omega)]
    exact ih hm.2 (by omega)

/-- Two memories in canonical form that read the same everywhere are the same list. -/
theorem Memory.ext_of_wfFrom {lo limit : Nat} {m m' : Memory} (hm : m.wfFrom lo limit = true)
    (hm' : m'.wfFrom lo limit = true) (h : ∀ a, m.read a = m'.read a) : m = m' := by
  induction m generalizing lo m' with
  | nil =>
    cases m' with
    | nil => rfl
    | cons c m' =>
      have := h c.1
      simp [Memory.read] at this
  | cons c m ih =>
    obtain ⟨a, v⟩ := c
    cases m' with
    | nil =>
      have := h a
      simp [Memory.read] at this
    | cons c' m' =>
      obtain ⟨b, w⟩ := c'
      simp only [Memory.wfFrom, Bool.and_eq_true, decide_eq_true_eq] at hm hm'
      have hab : a = b := by
        rcases Nat.lt_trichotomy a b with hlt | heq | hgt
        · have h1 := h a
          have h2 := Memory.read_none_of_wfFrom (a := a) hm'.2 (Or.inl (by omega))
          simp [Memory.read, Nat.ne_of_lt hlt, h2] at h1
        · exact heq
        · have h1 := h b
          have h2 := Memory.read_none_of_wfFrom (a := b) hm.2 (Or.inl (by omega))
          simp [Memory.read, Nat.ne_of_lt hgt, h2] at h1
      subst hab
      have hvw : v = w := by simpa [Memory.read] using h a
      subst hvw
      rw [ih hm.2 hm'.2 fun x => by
        by_cases hx : x = a
        · subst hx
          rw [Memory.read_none_of_wfFrom hm.2 (Or.inl (by omega)),
            Memory.read_none_of_wfFrom hm'.2 (Or.inl (by omega))]
        · simpa [Memory.read, hx] using h x]

/-- Canonical form: equal memories are equal data. -/
theorem Memory.ext_of_wf {limit : Nat} {m m' : Memory} (hm : m.wf limit = true) (hm' : m'.wf limit = true)
    (h : ∀ a, m.read a = m'.read a) : m = m' := Memory.ext_of_wfFrom hm hm' h

/-- The reset state's memory is in canonical form. -/
theorem State.reset_buf_wf : State.reset.buf.wf State.reset.cfg.bufSize = true := rfl

/-! ### BUF through the state -/

theorem State.bufByte_bufWrite (s : State) (off : Nat) (bs : List Byte) (a : Nat) :
    (s.bufWrite off bs).bufByte a =
      if off ≤ a ∧ a < off + bs.length then bs.getD (a - off) 0 else s.bufByte a := by
  simp only [State.bufByte, State.bufWrite, Memory.read_writeBytes]
  split
  · rw [List.getElem?_eq_getElem (by omega), List.getD_eq_getElem _ _ (by omega)]; rfl
  · rfl

@[simp] theorem State.bufRead_length (s : State) (off n : Nat) : (s.bufRead off n).length = n := by
  simp [State.bufRead]

@[simp] theorem State.bufRead_zero (s : State) (off : Nat) : s.bufRead off 0 = [] := rfl

theorem State.bufRead_getElem? (s : State) (off n k : Nat) (h : k < n) :
    (s.bufRead off n)[k]? = some (s.bufByte (off + k)) := by simp [State.bufRead, h]

theorem State.bufRead_getD (s : State) (off n k : Nat) (d : Byte) (h : k < n) :
    (s.bufRead off n).getD k d = s.bufByte (off + k) := by simp [State.bufRead, h]

/-- BUF reads depend on the bytes alone. -/
theorem State.bufRead_congr {s t : State} {off n : Nat} (h : ∀ a, t.bufByte a = s.bufByte a) :
    t.bufRead off n = s.bufRead off n := by simp [State.bufRead, h]

/-- What was written is read back. -/
theorem State.bufRead_bufWrite (s : State) (off : Nat) (bs : List Byte) :
    (s.bufWrite off bs).bufRead off bs.length = bs := by
  apply List.ext_getElem (by simp)
  intro k h1 h2
  simp only [State.bufRead, List.getElem_map, List.getElem_range, State.bufByte_bufWrite]
  rw [if_pos (by omega)]
  simp [h2]

end Sys2Proof.Machine
end

