-- ==== Sys2Proof/Laws/Frame.lean ====
section
/-! SUPPORT. The frames of the shared operations: what completing a command, raising an error and handling a DCF77 sample
leave unchanged. -/

namespace Sys2Proof.Machine

/-! ### STATUS and RES of the running port -/

theorem State.Keeps.refl (s : State) (ws : WriteSet) : s.Keeps ws s := by constructor <;> intros <;> simp

theorem State.Keeps.setStatus {s t : State} {ws : WriteSet} (h : s.Keeps ws t) (w : Word) :
    s.Keeps ws (t.setStatus s.port w) where
  args k := by simp [h.args k]
  other := by simp [h.other]
  res hr := by simp [h.res hr]
  clk hr := by simp [h.clk hr]
  off hr := by simp [h.off hr]
  dcf hr := by simp [h.dcf hr]
  sha hr := by simp [h.sha hr]
  digest hr := by simp [h.digest hr]
  key := by simp [h.key]
  buf hr := by simpa using h.buf hr
  hwCnt := by simp [h.hwCnt]
  rst := by simp [h.rst]
  cfg := by simp [h.cfg]
  draws := by simp [h.draws]
  inbox := by simp [h.inbox]
  reply := by simp [h.reply]
  port := by simp [h.port]

/-- Completing a command writes STATUS of its port. -/
theorem State.Keeps.done {s t : State} {ws : WriteSet} (h : s.Keeps ws t) (op : Byte) (m : Bool) :
    s.Keeps ws (t.done op m) := by
  unfold State.done
  rw [h.port]
  exact h.setStatus _

/-- An error writes STATUS of the port whose command runs. -/
theorem State.keeps_raise (s : State) (ws : WriteSet) (op : Byte) (e : ErrCode) : s.Keeps ws (s.raise op e) :=
  (Keeps.refl s ws).setStatus _

/-- Replacing the SHA context and DIGEST leaves everything else. -/
theorem State.keeps_sha_digest (s : State) (c : ShaCtx) (d : Vector Byte 32) {ws : WriteSet} (hs : ws.sha = true)
    (hd : ws.digest = true) : s.Keeps ws { s with sha := c, digest := d } where
  args _ := by cases s.port <;> rfl
  other := by cases s.port <;> rfl
  res _ := by cases s.port <;> rfl
  clk _ := ⟨rfl, rfl⟩
  off _ := rfl
  dcf _ := rfl
  sha h := by simp [hs] at h
  digest h := by simp [hd] at h
  key := rfl
  buf _ _ := rfl
  hwCnt := rfl
  rst := rfl
  cfg := rfl
  draws := rfl
  inbox := rfl
  reply := rfl
  port := rfl

/-- Replacing the SHA context leaves everything else. -/
theorem State.keeps_sha (s : State) (c : ShaCtx) {ws : WriteSet} (hs : ws.sha = true) :
    s.Keeps ws { s with sha := c } where
  args _ := by cases s.port <;> rfl
  other := by cases s.port <;> rfl
  res _ := by cases s.port <;> rfl
  clk _ := ⟨rfl, rfl⟩
  off _ := rfl
  dcf _ := rfl
  sha h := by simp [hs] at h
  digest _ := rfl
  key := rfl
  buf _ _ := rfl
  hwCnt := rfl
  rst := rfl
  cfg := rfl
  draws := rfl
  inbox := rfl
  reply := rfl
  port := rfl

@[simp] theorem State.done_ownStatus (s : State) (op : Byte) (m : Bool) :
    (s.done op m).ownStatus = statusDone op m := by simp [State.done, State.ownStatus]
@[simp] theorem State.raise_ownStatus (s : State) (op : Byte) (e : ErrCode) :
    (s.raise op e).ownStatus = statusError op e := by simp [State.raise, State.ownStatus]

/-! ### DCF77 -/

/-- t differs from s in the DCF77 unit and CLK.OFF alone. -/
structure State.DcfFrame (s t : State) : Prop where
  p0 : t.p0 = s.p0
  p1 : t.p1 = s.p1
  e : t.clk.e = s.clk.e
  prev : t.clk.prev = s.clk.prev
  sha : t.sha = s.sha
  digest : t.digest = s.digest
  key : t.key = s.key
  buf : t.buf = s.buf
  hwCnt : t.hwCnt = s.hwCnt
  rst : t.rst = s.rst
  cfg : t.cfg = s.cfg
  draws : t.draws = s.draws
  inbox : t.inbox = s.inbox
  reply : t.reply = s.reply
  port : t.port = s.port

theorem State.DcfFrame.refl (s : State) : s.DcfFrame s := by constructor <;> rfl

theorem State.DcfFrame.trans {s t u : State} (h : s.DcfFrame t) (g : t.DcfFrame u) : s.DcfFrame u where
  p0 := g.p0.trans h.p0
  p1 := g.p1.trans h.p1
  e := g.e.trans h.e
  prev := g.prev.trans h.prev
  sha := g.sha.trans h.sha
  digest := g.digest.trans h.digest
  key := g.key.trans h.key
  buf := g.buf.trans h.buf
  hwCnt := g.hwCnt.trans h.hwCnt
  rst := g.rst.trans h.rst
  cfg := g.cfg.trans h.cfg
  draws := g.draws.trans h.draws
  inbox := g.inbox.trans h.inbox
  reply := g.reply.trans h.reply
  port := g.port.trans h.port

theorem State.DcfFrame.regs {s t : State} (h : s.DcfFrame t) (p : Port) : t.regs p = s.regs p := by
  cases p
  · exact h.p0
  · exact h.p1

theorem State.DcfFrame.bufByte {s t : State} (h : s.DcfFrame t) (a : Nat) : t.bufByte a = s.bufByte a := by
  simp [State.bufByte, h.buf, h.draws]

theorem State.dcfFrame_setDcfEvent (s : State) (e : DcfEvent) : s.DcfFrame (s.setDcfEvent e) := by
  constructor <;> rfl

theorem State.dcfFrame_discard (s : State) : s.DcfFrame s.discard := by constructor <;> rfl

theorem State.dcfFrame_analyze (s : State) (t : DWord) : s.DcfFrame (s.analyze t) := by
  unfold State.analyze
  split <;> constructor <;> rfl

theorem State.dcfFrame_appendBit (s : State) (v : Bool) : s.DcfFrame (s.appendBit v) := by
  unfold State.appendBit
  split <;> constructor <;> rfl

theorem State.dcfFrame_rise (s : State) (d t : DWord) : s.DcfFrame (s.rise d t) := by
  unfold State.rise
  split
  · exact s.dcfFrame_setDcfEvent _
  · split
    · exact ((s.dcfFrame_analyze t).trans (dcfFrame_discard _)).trans (dcfFrame_setDcfEvent _ _)
    · exact s.dcfFrame_discard.trans (dcfFrame_setDcfEvent _ _)

theorem State.dcfFrame_fall (s : State) (d : DWord) : s.DcfFrame (s.fall d) := by
  unfold State.fall
  split
  · exact s.dcfFrame_appendBit _
  · split
    · exact s.dcfFrame_appendBit _
    · exact s.dcfFrame_discard.trans (dcfFrame_setDcfEvent _ _)

theorem State.dcfFrame_dcfStep (s : State) (lvl : Bool) (t : DWord) : s.DcfFrame (s.dcfStep lvl t) := by
  unfold State.dcfStep
  split
  · exact s.dcfFrame_setDcfEvent _
  · have h0 : s.DcfFrame { s with dcf := { s.dcf with level := lvl, lastT := t } } := by constructor <;> rfl
    dsimp only
    split
    · exact h0.trans (dcfFrame_rise _ _ _)
    · exact h0.trans (dcfFrame_fall _ _)

theorem State.dcfFrame_liveness (s : State) (t : DWord) : s.DcfFrame (s.liveness t) := by
  unfold State.liveness
  split <;> constructor <;> rfl

/-- A sample changes the DCF77 unit and CLK.OFF alone. -/
theorem State.dcfFrame_dcfSampleAt (s : State) (lvl : Bool) (t : DWord) : s.DcfFrame (s.dcfSampleAt lvl t) :=
  (s.dcfFrame_dcfStep lvl t).trans (dcfFrame_liveness _ _)

end Sys2Proof.Machine
end

