-- ==== Sys2Proof/Laws/Bus.lean ====
section
/-! SUPPORT. What a bus access reaches, and one step for each kind of pending action. -/

namespace Sys2Proof.Machine

/-- The target of an access at a block offset inside the window (spec/20_memory.md R63, R64, R70). -/
theorem busTarget_offset (c : Config) (off : Nat) (n : Width) (h : off < 0x400) :
    busTarget c (c.base + off) n =
      if off % n.bytes ≠ 0 then none
      else if (targetAt c.bufSize off).accepts n then some (targetAt c.bufSize off) else none := by
  unfold busTarget
  rw [if_neg (by omega), Nat.add_sub_cancel_left]

/-- Below 0x84 an offset is in the register whose word it lies in (R70). -/
theorem targetAt_reg (b off : Nat) (r : Reg) (h : regMap[off / 4]? = some r) : targetAt b off = .reg r := by
  unfold targetAt
  rw [h]

theorem regMap_length : regMap.length = 33 := rfl

theorem targetAt_high (b off : Nat) (h : 0x84 ≤ off) : targetAt b off =
    if off < 0x100 then .reserved
    else if off < 0x120 then .digest (off - 0x100)
    else if off < 0x140 then .key (off - 0x120)
    else if 0x200 ≤ off ∧ off < 0x200 + b then .buf (off - 0x200)
    else .reserved := by
  unfold targetAt
  rw [List.getElem?_eq_none (by rw [regMap_length]; omega)]

/-- A whole, aligned word of register space reaches its register. -/
theorem busTarget_reg (c : Config) (off : Nat) (r : Reg) (ha : off % 4 = 0) (h : regMap[off / 4]? = some r) :
    busTarget c (c.base + off) .w4 = some (.reg r) := by
  have hl : off / 4 < 33 := by
    obtain ⟨h1, -⟩ := List.getElem?_eq_some_iff.mp h
    rwa [regMap_length] at h1
  rw [busTarget_offset c off .w4 (by omega), targetAt_reg _ _ _ h]
  simp [Width.bytes, Target.accepts, ha]

/-- BUF_SIZE is at most 512 (spec/00_scope.md R7). -/
theorem bufSize_le (c : Config) : c.bufSize ≤ 512 := by
  have := c.valid
  simp only [Params.ok, Bool.and_eq_true, decide_eq_true_eq] at this
  omega

/-- A byte of BUF takes every aligned access (R62). -/
theorem busTarget_buf (c : Config) (i : Nat) (n : Width) (ha : i % n.bytes = 0) (h : i < c.bufSize) :
    busTarget c (c.base + 0x200 + i) n = some (.buf i) := by
  have hc := bufSize_le c
  have hm : (0x200 + i) % n.bytes = 0 := by
    cases n <;> simp only [Width.bytes] at * <;> omega
  rw [Nat.add_assoc, busTarget_offset c _ n (by omega), targetAt_high _ _ (by omega), if_neg (by simp [hm])]
  rw [if_neg (show ¬ 0x200 + i < 0x100 by omega), if_neg (show ¬ 0x200 + i < 0x120 by omega),
    if_neg (show ¬ 0x200 + i < 0x140 by omega),
    if_pos (show 0x200 ≤ 0x200 + i ∧ 0x200 + i < 0x200 + c.bufSize by omega)]
  simp [Target.accepts]

/-- The write of a command word reaches its port's CMD register (R70). -/
theorem busTarget_cmd (c : Config) (p : Port) :
    busTarget c (c.base + (if p = .p0 then 0x000 else 0x020)) .w4 = some (.reg (.cmd p)) := by
  cases p
  · exact busTarget_reg c 0x000 (.cmd .p0) rfl rfl
  · exact busTarget_reg c 0x020 (.cmd .p1) rfl rfl

theorem cmdWrite_eq (c : Config) (m : Master) (p : Port) (w : Word) :
    cmdWrite c m p w = .bus m (.write (c.base + (if p = .p0 then 0x000 else 0x020)) .w4 w) := by
  cases p <;> rfl

/-! ### One step -/

theorem step_nil (s : State) (h : s.inbox = []) : step s = .next s := by simp [step, stepInbox, h]

theorem step_cons (s : State) (e : Event) (rest : List Event) (h : s.inbox = e :: rest) :
    step s = deliver e { s with inbox := rest } := by simp [step, stepInbox, h]

/-- A CMD write is the command, on its port, with its reply given (spec/30_encoding.md R90). -/
theorem deliver_cmdWrite (s : State) (m : Master) (p : Port) (w : Word) (h : s.rst = false) (c : Config)
    (hc : c = s.cfg) : deliver (cmdWrite c m p w) s = command p w (s.respond m .written) := by
  subst hc
  rw [cmdWrite_eq]
  simp only [deliver, busAccess, h, Bool.false_eq_true, if_false, busTarget_cmd, State.writeTarget]

end Sys2Proof.Machine
end

