-- ==== Sys2Proof/Laws/BusData.lean ====
section
/-! SUPPORT. The data of bus accesses, the KEY window, the bounds of a BUF access, and reset. -/

namespace Sys2Proof.Machine

/-! ### Byte order (spec/20_memory.md R61, R62) -/

theorem wordByte_toNat (v : Word) (j : Nat) : (wordByte v j).toNat = v.toNat / 2 ^ (8 * j) % 256 := by
  simp [wordByte, BitVec.extractLsb'_toNat, Nat.shiftRight_eq_div_pow]

theorem lo32_toNat (v : DWord) : (lo32 v).toNat = v.toNat % 2 ^ 32 := by
  simp [lo32, BitVec.extractLsb'_toNat]

theorem hi32_toNat (v : DWord) : (hi32 v).toNat = v.toNat / 2 ^ 32 := by
  have := v.isLt
  simp only [hi32, BitVec.extractLsb'_toNat, Nat.shiftRight_eq_div_pow]
  omega

@[simp] theorem busBytes_length (v : Word) (n : Nat) : (busBytes v n).length = n := by simp [busBytes]

theorem busBytes_getD (v : Word) (n j : Nat) (h : j < n) : (busBytes v n).getD j 0 = wordByte v j := by
  simp [busBytes, h]

/-- A word is its four bytes, lowest address first. -/
theorem leWord_busBytes (v : Word) : leWord (busBytes v 4) = v := by
  apply BitVec.eq_of_toNat_eq
  have := v.isLt
  simp only [leWord, busBytes, List.range_succ, List.range_zero, List.nil_append, List.cons_append, List.map_cons,
    List.map_nil, leNat, wordByte_toNat, BitVec.toNat_ofNat]
  omega

theorem leWord_one (b : Byte) : leWord [b] = b.setWidth 32 := by
  apply BitVec.eq_of_toNat_eq
  simp [leWord, leNat]

/-- Byte a of KEY after a write of bytes from i on (R62). -/
theorem keyWrite_getD (k : Vector Byte 32) (i : Nat) (bs : List Byte) (a : Nat) (ha : a < 32) :
    (keyWrite k i bs).toList.getD a 0 =
      if i ≤ a ∧ a < i + bs.length then bs.getD (a - i) 0 else k.toList.getD a 0 := by
  induction bs generalizing k i with
  | nil => simp [keyWrite]
  | cons b bs ih =>
    rw [keyWrite, ih]
    have hset : (k.setIfInBounds i b).toList.getD a 0 = if a = i then b else k.toList.getD a 0 := by
      have : (k.setIfInBounds i b).toList = k.toList.set i b := by
        simp [Vector.toList]
      rw [this]
      simp only [List.getD_eq_getElem?_getD, List.getElem?_set]
      by_cases h : i = a
      · subst h
        simp [ha]
      · simp [h, Ne.symm h]
    rw [hset, List.length_cons]
    by_cases h1 : a = i
    · subst h1
      simp
    · by_cases h2 : i + 1 ≤ a ∧ a < i + 1 + bs.length
      · have e : a - i = (a - (i + 1)) + 1 := by omega
        rw [if_pos h2, if_pos (by omega), e, List.getD_cons_succ]
      · rw [if_neg h2, if_neg h1, if_neg (by omega)]

/-! ### Bounds -/

theorem config_bufSize (c : Config) : c.bufSize % 4 = 0 ∧ 16 ≤ c.bufSize := by
  have := c.valid
  simp only [Params.ok, Bool.and_eq_true, decide_eq_true_eq, beq_iff_eq] at this
  omega

theorem targetAt_buf {b off i : Nat} (h : targetAt b off = .buf i) : off = 0x200 + i ∧ i < b := by
  unfold targetAt at h
  split at h
  · cases h
  · split_ifs at h
    have := Target.buf.inj h
    omega

/-- An access that reaches BUF stays inside it. -/
theorem busTarget_buf_bound {c : Config} {addr i : Nat} {n : Width} (h : busTarget c addr n = some (.buf i)) :
    i + n.bytes ≤ c.bufSize ∧ i % n.bytes = 0 := by
  have hc := config_bufSize c
  unfold busTarget at h
  split at h
  · cases h
  · split at h
    · cases h
    · split at h
      · have h' := targetAt_buf (Option.some.inj h)
        cases n <;> simp only [Width.bytes] at * <;> omega
      · cases h

/-! ### Reset (spec/70_reset_and_hazards.md R340) -/

theorem State.loadReset_atReset (s : State) : s.loadReset.AtReset := ⟨rfl, rfl, rfl, rfl, rfl, rfl, rfl, rfl⟩

/-- What a level of `rst` can do. -/
theorem State.driveRst_cases (s : State) (level : Bool) :
    (level = true ∧ s.driveRst level = { s.loadReset with rst := true }) ∨
    (level = false ∧ s.rst = true ∧ s.driveRst level = { s.loadReset with rst := false }) ∨
    (level = false ∧ s.rst = false ∧ s.driveRst level = s) := by
  cases level
  · cases h : s.rst <;> simp [State.driveRst, h]
  · simp [State.driveRst]

/-- A command on a port: a word that is no command raises its error there, any other runs (spec/30_encoding.md R90). -/
theorem command_cases (p : Port) (w : Word) (s : State) :
    (∃ e, decode w = .error e ∧ command p w s = .next (({ s with port := p } : State).raise (fieldOp w) e)) ∨
    ∃ i, decode w = .ok i ∧ command p w s = exec i { s with port := p } := by
  unfold command
  cases h : decode w with
  | error e => exact Or.inl ⟨e, rfl, rfl⟩
  | ok i => exact Or.inr ⟨i, rfl, rfl⟩

end Sys2Proof.Machine
end

