-- ==== Sys2Proof/Laws/Clock.lean ====
section
/-! SUPPORT. The clock's functions over the naturals, and NowRaw() once and for all. -/

namespace Sys2Proof.Machine

theorem clockValue_toNat (e : BitVec 49) (c : BitVec 16) :
    (clockValue e c).toNat = e.toNat * 2 ^ 15 + c.toNat % 2 ^ 15 := by
  have := e.isLt
  simp only [clockValue, BitVec.toNat_append, BitVec.extractLsb'_toNat, Nat.shiftRight_zero]
  rw [← Nat.shiftLeft_add_eq_or_of_lt (by omega), Nat.shiftLeft_eq]

theorem halfWrapStep_toNat (e : BitVec 49) (c : BitVec 16) : (halfWrapStep e c).toNat =
    if c.toNat / 2 ^ 15 = e.toNat % 2 then e.toNat else (e.toNat + 1) % 2 ^ 49 := by
  have h1 := c.isLt
  have h2 := e.isLt
  simp only [halfWrapStep, BitVec.getLsbD, Nat.testBit_eq_decide_div_mod_eq, Nat.pow_zero, Nat.div_one]
  by_cases h : c.toNat / 2 ^ 15 = e.toNat % 2
  · rw [if_neg, if_pos h]
    simp only [bne_iff_ne, ne_eq, not_not, decide_eq_decide]
    omega
  · rw [if_pos, if_neg h]
    · simp [BitVec.toNat_add]
    · simp only [bne_iff_ne, ne_eq, decide_eq_decide]
      omega

/-- What the wrap extension computes, over the naturals. -/
theorem nowRawValue_toNat (e : BitVec 49) (prev : DWord) (c : BitVec 16) :
    let e1 := if c.toNat / 2 ^ 15 = e.toNat % 2 then e.toNat else (e.toNat + 1) % 2 ^ 49
    let v0 := e1 * 2 ^ 15 + c.toNat % 2 ^ 15
    (nowRawValue e prev c).1.toNat = (if v0 < prev.toNat then (e1 + 2) % 2 ^ 49 else e1) ∧
    (nowRawValue e prev c).2.toNat = if v0 < prev.toNat then (v0 + 0x10000) % 2 ^ 64 else v0 := by
  intro e1 v0
  have h1 : (halfWrapStep e c).toNat = e1 := halfWrapStep_toNat e c
  have h2 : (clockValue (halfWrapStep e c) c).toNat = v0 := by rw [clockValue_toNat, h1]
  simp only [nowRawValue, BitVec.lt_def, h2]
  split <;> simp [BitVec.toNat_add, h1, h2]

/-- With no wrap to recover from and fewer than 2^15 ticks since the count n was read, the extension is exact. -/
theorem nowRawValue_exact (e : BitVec 49) (prev : DWord) (c : BitVec 16) (n g : Nat) (he : e.toNat = n / 2 ^ 15)
    (hp : prev.toNat ≤ n) (hg : g < 2 ^ 15) (hc : c.toNat = (n + g) % 2 ^ 16) (hn : n + g < 2 ^ 64) :
    (nowRawValue e prev c).1.toNat = (n + g) / 2 ^ 15 ∧ (nowRawValue e prev c).2.toNat = n + g := by
  obtain ⟨h1, h2⟩ := nowRawValue_toNat e prev c
  have h3 : (if c.toNat / 2 ^ 15 = e.toNat % 2 then e.toNat else (e.toNat + 1) % 2 ^ 49) = (n + g) / 2 ^ 15 := by
    split <;> omega
  rw [h3] at h1 h2
  rw [h1, h2, if_neg (by omega), if_neg (by omega)]
  omega

/-- A second read with the counter unchanged finds nothing to do. -/
theorem nowRawValue_again (e : BitVec 49) (p : DWord) (c : BitVec 16) :
    nowRawValue (nowRawValue e p c).1 (nowRawValue e p c).2 c = nowRawValue e p c := by
  obtain ⟨h1, h2⟩ := nowRawValue_toNat e p c
  obtain ⟨g1, g2⟩ := nowRawValue_toNat (nowRawValue e p c).1 (nowRawValue e p c).2 c
  generalize (nowRawValue (nowRawValue e p c).1 (nowRawValue e p c).2 c) = r at *
  generalize nowRawValue e p c = x at *
  have hc := c.isLt
  have he := e.isLt
  have hA : (if c.toNat / 2 ^ 15 = e.toNat % 2 then e.toNat else (e.toNat + 1) % 2 ^ 49) < 2 ^ 49 ∧
      (if c.toNat / 2 ^ 15 = e.toNat % 2 then e.toNat else (e.toNat + 1) % 2 ^ 49) % 2 = c.toNat / 2 ^ 15 := by
    split <;> omega
  generalize (if c.toNat / 2 ^ 15 = e.toNat % 2 then e.toNat else (e.toNat + 1) % 2 ^ 49) = e1 at *
  have hB : x.1.toNat % 2 = c.toNat / 2 ^ 15 ∧ x.2.toNat = x.1.toNat * 2 ^ 15 + c.toNat % 2 ^ 15 := by
    rw [h1, h2]
    split <;> omega
  rw [if_pos hB.1.symm] at g1 g2
  rw [if_neg (by omega)] at g1 g2
  apply Prod.ext
  · apply BitVec.eq_of_toNat_eq
    rw [g1]
  · apply BitVec.eq_of_toNat_eq
    rw [g2, hB.2]

end Sys2Proof.Machine
end

