-- ==== Sys2Proof/Laws/Dcf.lean ====
section
/-! SUPPORT. The DCF77 unit's operations, one lemma for each case of a sample. -/

namespace Sys2Proof.Machine

/-- The timestamp operand over the naturals (spec/30_encoding.md R92). -/
theorem State.argTime_toNat (s : State) : s.argTime.toNat =
    (s.regs s.port).arg1.toNat * 2 ^ 32 + (s.regs s.port).arg0.toNat := by
  have h := (s.regs s.port).arg0.isLt
  simp only [State.argTime, State.arg, PortRegs.arg, BitVec.toNat_append]
  rw [← Nat.shiftLeft_add_eq_or_of_lt h, Nat.shiftLeft_eq]

/-- Elapsed time is the difference modulo 2^64 (spec/45_dcf77.md R236, R237). -/
theorem elapsed_toNat (t u : DWord) : (t - u).toNat = (t.toNat + 2 ^ 64 - u.toNat) % 2 ^ 64 := by
  rw [BitVec.toNat_sub]
  have := u.isLt
  congr 1
  omega

theorem inWin_iff (d : DWord) (lo hi : Nat) : inWin d lo hi = true ↔ lo ≤ d.toNat ∧ d.toNat ≤ hi := by
  simp [inWin]

/-- The windows of a configuration do not overlap (spec/00_scope.md R7). -/
theorem config_windows (c : Config) : c.tGapLo ≤ c.tGapHi ∧ c.tMinLo ≤ c.tMinHi ∧ c.tBit0Lo ≤ c.tBit0Hi ∧
    c.tBit1Lo ≤ c.tBit1Hi ∧ c.tGapHi < c.tMinLo ∧ c.tBit0Hi < c.tBit1Lo ∧ 2000 ≤ c.baseYear := by
  have := c.valid
  simp only [Params.ok, Bool.and_eq_true, decide_eq_true_eq] at this
  omega

theorem frameBit_setFrameBit (b : BitVec 60) (n k : Nat) (v : Bool) (hk : k < 60) :
    frameBit (setFrameBit b n v) k = if k = n then v else frameBit b k := by
  unfold frameBit setFrameBit
  by_cases h : k = n
  · subst h
    cases v <;> simp [hk]
  · cases v <;> simp [h, hk] <;> omega

/-- Liveness writes SYNC_ERR alone (spec/45_dcf77.md R238). -/
theorem State.liveness_eq (s : State) (t : DWord) : s.liveness t =
    { s with dcf := { s.dcf with syncErr :=
        if s.cfg.livenessUs < (t - s.dcf.lastOkT).toNat then true else s.dcf.syncErr } } := by
  unfold State.liveness
  split <;> simp

/-- A repeated level is no edge (R233). -/
theorem State.dcfStep_same (s : State) (t : DWord) : s.dcfStep s.dcf.level t = s.setDcfEvent .none := by
  simp [State.dcfStep]

/-- The state in which an edge is classified: level and time recorded (R233). -/
def State.edgeState (s : State) (lvl : Bool) (t : DWord) : State :=
  { s with dcf := { s.dcf with level := lvl, lastT := t } }

theorem State.dcfStep_rise (s : State) (t : DWord) (h : s.dcf.level = false) :
    s.dcfStep true t = (s.edgeState true t).rise (t - s.dcf.lastT) t := by
  simp [State.dcfStep, h, State.edgeState]

theorem State.dcfStep_fall (s : State) (t : DWord) (h : s.dcf.level = true) :
    s.dcfStep false t = (s.edgeState false t).fall (t - s.dcf.lastT) := by
  simp [State.dcfStep, h, State.edgeState]

/-- The DCF77 unit after a sample, from the unit after its edge. -/
theorem State.dcfSampleAt_dcf (s : State) (lvl : Bool) (t : DWord) : (s.dcfSampleAt lvl t).dcf =
    { (s.dcfStep lvl t).dcf with syncErr :=
        if s.cfg.livenessUs < (t - (s.dcfStep lvl t).dcf.lastOkT).toNat then true else (s.dcfStep lvl t).dcf.syncErr } := by
  rw [State.dcfSampleAt, State.liveness_eq, (s.dcfFrame_dcfStep lvl t).cfg]

theorem State.dcfSampleAt_clk (s : State) (lvl : Bool) (t : DWord) : (s.dcfSampleAt lvl t).clk = (s.dcfStep lvl t).clk := by
  rw [State.dcfSampleAt, State.liveness_eq]

/-! ### Analysis -/

/-- One check of a chain: it fails with its code, or the rest decides. -/
theorem check_error {c : Prop} [Decidable c] {a e : DcfResult} {x : Except DcfResult Nat} (ha : a ≠ .ok)
    (hx : x = .error e → e ≠ .ok) (h : (if c then .error a else x) = .error e) : e ≠ .ok := by
  split at h
  · cases h
    exact ha
  · exact hx h

/-- A failed analysis never reports OK. -/
theorem analyzeFrame_error_ne_ok {p : Params} {n : Nat} {b : BitVec 60} {e : DcfResult}
    (h : analyzeFrame p n b = .error e) : e ≠ .ok := by
  unfold analyzeFrame at h
  iterate 14 refine check_error (by decide) ?_ h; clear h; intro h
  split at h <;> cases h
  decide

/-- An analysis writes RESULT, and on success CLK.OFF, LAST_TS, LAST_OK_T, SYNCED and SYNC_ERR; the frame and the edge
stay. -/
theorem State.analyze_frame (s : State) (t : DWord) : (s.analyze t).dcf.bits = s.dcf.bits ∧
    (s.analyze t).dcf.count = s.dcf.count ∧ (s.analyze t).dcf.level = s.dcf.level ∧
    (s.analyze t).dcf.lastT = s.dcf.lastT ∧ (s.analyze t).dcf.event = s.dcf.event := by
  unfold State.analyze
  split <;> exact ⟨rfl, rfl, rfl, rfl, rfl⟩

/-- A binary digit of the frame, bit by bit (spec/45_dcf77.md R243). -/
theorem frameDigit_succ (b : BitVec 60) (i n : Nat) :
    frameDigit b i (n + 1) = (frameBit b i).toNat + 2 * frameDigit b (i + 1) n := by
  unfold frameDigit frameBit
  simp only [BitVec.extractLsb'_toNat, Nat.shiftRight_eq_div_pow, BitVec.getLsbD, Nat.testBit_eq_decide_div_mod_eq,
    Nat.pow_succ, ← Nat.div_div_eq_div_mul]
  have h : (decide (b.toNat / 2 ^ i % 2 = 1)).toNat = b.toNat / 2 ^ i % 2 := by
    rcases Nat.mod_two_eq_zero_or_one (b.toNat / 2 ^ i) with h | h <;> simp [h]
  rw [h, Nat.mul_comm (2 ^ n) 2, Nat.mod_mul]

@[simp] theorem frameDigit_zero (b : BitVec 60) (i : Nat) : frameDigit b i 0 = 0 := by
  simp only [frameDigit, BitVec.extractLsb'_toNat, Nat.pow_zero]
  omega

/-- Even parity is an even number of ones (spec/45_dcf77.md R241). -/
theorem evenParity_iff (b : BitVec 60) (i j : Nat) : evenParity b i j = true ↔ onesIn b i j % 2 = 0 := by
  unfold evenParity onesIn
  have key : ∀ (l : List Nat) (acc : Bool), l.foldl (fun acc k => acc ^^ frameBit b (i + k)) acc =
      (acc ^^ decide ((l.filter fun k => frameBit b (i + k)).length % 2 = 1)) := by
    intro l
    induction l with
    | nil => simp
    | cons k l ih =>
      intro acc
      rw [List.foldl_cons, ih, List.filter_cons]
      cases hk : frameBit b (i + k)
      · simp
      · rw [Bool.xor_assoc]
        congr 1
        rw [if_pos rfl, List.length_cons]
        rcases Nat.mod_two_eq_zero_or_one (List.filter (fun k => frameBit b (i + k)) l).length with h | h
        · simp [h, Nat.add_mod]
        · simp [h, Nat.add_mod]
  rw [key]
  simp

end Sys2Proof.Machine
end

