-- ==== Sys2Proof/Laws/Flags.lean ====
section
/-! SUPPORT. The fields of a command word and of a STATUS word read back. -/

namespace Sys2Proof

/-- A word is its four fields. -/
theorem word_fields (w : Word) :
    w = (fieldRsv w ++ BitVec.ofBool (fieldF1 w) ++ BitVec.ofBool (fieldF0 w) ++ fieldOp w : BitVec 32) := by
  apply BitVec.eq_of_getLsbD_eq
  intro i hi
  simp only [fieldRsv, fieldF1, fieldF0, fieldOp, BitVec.getLsbD_append, BitVec.getLsbD_extractLsb',
    BitVec.getLsbD_ofBool]
  by_cases h1 : i < 8
  · simp [h1]
  by_cases h2 : i = 8
  · subst h2; simp
  by_cases h3 : i = 9
  · subst h3; simp
  simp [show ¬ i < 8 by omega, show ¬ i - 8 < 1 by omega, show ¬ i - 8 - 1 < 1 by omega,
    show i - 8 - 1 - 1 < 22 by omega, show 10 + (i - 8 - 1 - 1) = i by omega]

theorem fieldOp_toNat (w : Word) : (fieldOp w).toNat = w.toNat % 256 := by
  simp [fieldOp, BitVec.extractLsb'_toNat]

theorem fieldRsv_toNat (w : Word) : (fieldRsv w).toNat = w.toNat / 1024 := by
  simp only [fieldRsv, BitVec.extractLsb'_toNat, Nat.shiftRight_eq_div_pow]
  have := w.isLt
  omega

theorem fieldF0_eq (w : Word) : fieldF0 w = decide (w.toNat / 256 % 2 = 1) := by
  simp [fieldF0, BitVec.getLsbD, Nat.testBit_eq_decide_div_mod_eq]

theorem fieldF1_eq (w : Word) : fieldF1 w = decide (w.toNat / 512 % 2 = 1) := by
  simp [fieldF1, BitVec.getLsbD, Nat.testBit_eq_decide_div_mod_eq]

namespace Machine

variable (op err : Byte) (d m ok : Bool)

theorem statusWord_toNat : (statusWord op err d m ok).toNat =
    op.toNat * 65536 + err.toNat * 256 + 4 * d.toNat + 2 * m.toNat + ok.toNat := by
  have h1 := op.isLt
  have h2 := err.isLt
  cases d <;> cases m <;> cases ok <;>
    simp only [statusWord, BitVec.toNat_append, BitVec.toNat_ofBool, BitVec.toNat_ofNat, Bool.toNat_true,
      Bool.toNat_false, Nat.shiftLeft_eq] <;>
    simp only [← Nat.shiftLeft_eq, Nat.zero_mod] <;>
    rw [← Nat.shiftLeft_add_eq_or_of_lt (by omega), ← Nat.shiftLeft_add_eq_or_of_lt (by omega),
      ← Nat.shiftLeft_add_eq_or_of_lt (by omega), ← Nat.shiftLeft_add_eq_or_of_lt (by omega),
      ← Nat.shiftLeft_add_eq_or_of_lt (by omega), ← Nat.shiftLeft_add_eq_or_of_lt (by omega)] <;>
    simp only [Nat.shiftLeft_eq] <;> omega

@[simp] theorem statusOk_statusWord : statusOk (statusWord op err d m ok) = ok := by
  have := statusWord_toNat op err d m ok
  simp only [statusOk, BitVec.getLsbD, Nat.testBit_eq_decide_div_mod_eq, this]
  cases ok <;> cases d <;> cases m <;> simp <;> omega
@[simp] theorem statusMatch_statusWord : statusMatch (statusWord op err d m ok) = m := by
  have := statusWord_toNat op err d m ok
  simp only [statusMatch, BitVec.getLsbD, Nat.testBit_eq_decide_div_mod_eq, this]
  cases ok <;> cases d <;> cases m <;> simp <;> omega
@[simp] theorem statusDoneBit_statusWord : statusDoneBit (statusWord op err d m ok) = d := by
  have := statusWord_toNat op err d m ok
  simp only [statusDoneBit, BitVec.getLsbD, Nat.testBit_eq_decide_div_mod_eq, this]
  cases ok <;> cases d <;> cases m <;> simp <;> omega
@[simp] theorem statusErr_statusWord : statusErr (statusWord op err d m ok) = err := by
  have := statusWord_toNat op err d m ok
  apply BitVec.eq_of_toNat_eq
  simp only [statusErr, BitVec.extractLsb'_toNat, this, Nat.shiftRight_eq_div_pow]
  cases ok <;> cases d <;> cases m <;> simp <;> omega
@[simp] theorem statusOp_statusWord : statusOp (statusWord op err d m ok) = op := by
  have := statusWord_toNat op err d m ok
  apply BitVec.eq_of_toNat_eq
  simp only [statusOp, BitVec.extractLsb'_toNat, this, Nat.shiftRight_eq_div_pow]
  cases ok <;> cases d <;> cases m <;> simp <;> omega

@[simp] theorem statusOk_statusDone : statusOk (statusDone op m) = true := by simp [statusDone]
@[simp] theorem statusOk_statusError (e : ErrCode) : statusOk (statusError op e) = false := by simp [statusError]

end Machine
end Sys2Proof
end

