-- ==== Sys2Proof/Laws/PerInstr.lean ====
section
/-! SUPPORT. The family `TableRow`, one lemma per command: every encoding of the command matches its row of
spec/opcode_table.json, and holds the row's opcode in bits 7:0. -/

namespace Sys2Proof.Laws.TableRow

/-- The command's word, with any flags, matches its table row's mask and match, and its OP field is the opcode. -/
def Statement (i : Instr) : Prop :=
  encode i &&& rowMask i = rowMatch i ∧ fieldOp (encode i) = opcode i ∧ fieldRsv (encode i) = 0

theorem nop : Statement .nop := by unfold Statement; decide
theorem nowRaw : Statement .nowRaw := by unfold Statement; decide
theorem wallSeconds : Statement .wallSeconds := by unfold Statement; decide
theorem dcfSample (lvl tsrc : Bool) : Statement (.dcfSample lvl tsrc) := by
  cases lvl <;> cases tsrc <;> (unfold Statement; decide)
theorem b64Decode : Statement .b64Decode := by unfold Statement; decide
theorem shaInit : Statement .shaInit := by unfold Statement; decide
theorem shaUpdate : Statement .shaUpdate := by unfold Statement; decide
theorem shaFinal : Statement .shaFinal := by unfold Statement; decide
theorem hmacCompute : Statement .hmacCompute := by unfold Statement; decide
theorem hmacVerify (tag32 : Bool) : Statement (.hmacVerify tag32) := by cases tag32 <;> (unfold Statement; decide)

end Sys2Proof.Laws.TableRow
end

