-- ==== Sys2Proof/Laws/Sha.lean ====
section
/-! SUPPORT. What the SHA-256 streaming helpers, the padding and the comparison do, once and for all. -/

namespace Sys2Proof.Machine

/-! ### Absorbing -/

theorem vector_toList_set (v : Vector Byte 64) (i : Nat) (h : i < 64) (x : Byte) :
    (v.set i x h).toList = v.toList.set i x := by simp [Vector.toList]

theorem set_take_drop (l bs : List Byte) (f : Nat) (x : Byte) (hf : f < l.length) :
    (l.set f x).take (f + 1) ++ bs ++ (l.set f x).drop (f + 1 + bs.length) =
      l.take f ++ (x :: bs) ++ l.drop (f + (bs.length + 1)) := by
  have h1 : (l.set f x).take (f + 1) = l.take f ++ [x] := by
    rw [List.take_succ_eq_append_getElem (by simpa using hf), List.take_set_of_le (Nat.le_refl f)]
    simp
  have h2 : (l.set f x).drop (f + 1 + bs.length) = l.drop (f + (bs.length + 1)) := by
    rw [List.drop_set_of_lt (by omega)]
    congr 1
    omega
  rw [h1, h2]
  simp

@[simp] theorem absorbByte_phase (c : ShaCtx) (x : Byte) : (absorbByte c x).phase = c.phase := by
  unfold absorbByte
  split <;> rfl

@[simp] theorem absorbByte_nbytes (c : ShaCtx) (x : Byte) : (absorbByte c x).nbytes = c.nbytes := by
  unfold absorbByte
  split <;> rfl

theorem absorbByte_fill (c : ShaCtx) (x : Byte) : (absorbByte c x).fill.toNat = (c.fill.toNat + 1) % 64 := by
  unfold absorbByte
  split
  · simp_all
  · simp [BitVec.toNat_add]

theorem absorbByte_blk (c : ShaCtx) (x : Byte) :
    (absorbByte c x).blk.toList = c.blk.toList.set c.fill.toNat x := by
  unfold absorbByte
  split <;> exact vector_toList_set _ _ c.fill.isLt _

theorem absorbByte_h (c : ShaCtx) (x : Byte) : (absorbByte c x).h =
    if c.fill.toNat = 63 then compress c.h (c.blk.toList.set c.fill.toNat x) else c.h := by
  have h : c.fill = 63 ↔ c.fill.toNat = 63 := by
    rw [← BitVec.toNat_inj]
    rfl
  unfold absorbByte
  by_cases h' : c.fill.toNat = 63
  · rw [if_pos (h.mpr h'), if_pos h', ← vector_toList_set _ _ c.fill.isLt]
  · rw [if_neg (fun hc => h' (h.mp hc)), if_neg h']

@[simp] theorem absorbBytes_nil (c : ShaCtx) : absorbBytes c [] = c := rfl

@[simp] theorem absorbBytes_cons (c : ShaCtx) (x : Byte) (bs : List Byte) :
    absorbBytes c (x :: bs) = absorbBytes (absorbByte c x) bs := rfl

theorem absorbBytes_append (c : ShaCtx) (as bs : List Byte) :
    absorbBytes c (as ++ bs) = absorbBytes (absorbBytes c as) bs := by simp [absorbBytes]

@[simp] theorem absorbBytes_phase (c : ShaCtx) (bs : List Byte) : (absorbBytes c bs).phase = c.phase := by
  induction bs generalizing c with
  | nil => rfl
  | cons x bs ih => rw [absorbBytes_cons, ih, absorbByte_phase]

@[simp] theorem absorbBytes_nbytes (c : ShaCtx) (bs : List Byte) : (absorbBytes c bs).nbytes = c.nbytes := by
  induction bs generalizing c with
  | nil => rfl
  | cons x bs ih => rw [absorbBytes_cons, ih, absorbByte_nbytes]

theorem absorbBytes_fill (c : ShaCtx) (bs : List Byte) :
    (absorbBytes c bs).fill.toNat = (c.fill.toNat + bs.length) % 64 := by
  induction bs generalizing c with
  | nil =>
    have := c.fill.isLt
    simp only [absorbBytes_nil, List.length_nil]
    omega
  | cons x bs ih =>
    rw [absorbBytes_cons, ih, absorbByte_fill, List.length_cons]
    omega

/-- Neither the phase nor the byte count takes part in absorbing. -/
theorem absorbByte_mk (c : ShaCtx) (p : ShaPhase) (n : DWord) (x : Byte) :
    absorbByte { c with phase := p, nbytes := n } x = { absorbByte c x with phase := p, nbytes := n } := by
  unfold absorbByte
  dsimp only
  split <;> rfl

theorem absorbBytes_mk (c : ShaCtx) (p : ShaPhase) (n : DWord) (bs : List Byte) :
    absorbBytes { c with phase := p, nbytes := n } bs = { absorbBytes c bs with phase := p, nbytes := n } := by
  induction bs generalizing c with
  | nil => rfl
  | cons x bs ih => rw [absorbBytes_cons, absorbBytes_cons, absorbByte_mk, ih]

/-- Bytes that stay inside the block are stored from FILL on; those that fill it exactly compress it. -/
theorem absorbBytes_inside (c : ShaCtx) (bs : List Byte) (h : c.fill.toNat + bs.length ≤ 64) :
    (absorbBytes c bs).blk.toList =
      c.blk.toList.take c.fill.toNat ++ bs ++ c.blk.toList.drop (c.fill.toNat + bs.length) ∧
    (absorbBytes c bs).h = if c.fill.toNat + bs.length = 64 then compress c.h (absorbBytes c bs).blk.toList else c.h := by
  induction bs generalizing c with
  | nil =>
    have := c.fill.isLt
    simp
    omega
  | cons x bs ih =>
    have hf := absorbByte_fill c x
    have hl : c.blk.toList.length = 64 := by simp
    simp only [List.length_cons] at h
    by_cases h63 : c.fill.toNat = 63
    · obtain rfl : bs = [] := by
        apply List.eq_nil_of_length_eq_zero
        omega
      simp only [absorbBytes_cons, absorbBytes_nil, List.length_cons, List.length_nil, h63]
      refine ⟨?_, ?_⟩
      · rw [absorbByte_blk, h63, List.set_eq_take_append_cons_drop, if_pos (by omega)]
        simp
      · rw [absorbByte_h, absorbByte_blk, if_pos h63, h63]
        simp
    · have hlt := c.fill.isLt
      have hf' : (absorbByte c x).fill.toNat = c.fill.toNat + 1 := by omega
      obtain ⟨i1, i2⟩ := ih (absorbByte c x) (by omega)
      rw [hf', absorbByte_blk] at i1
      rw [hf', absorbByte_h, if_neg h63] at i2
      refine ⟨?_, ?_⟩
      · rw [absorbBytes_cons, i1, set_take_drop _ _ _ _ (by omega), List.length_cons]
      · rw [absorbBytes_cons, i2, List.length_cons]
        congr 1
        simp only [eq_iff_iff]
        omega

theorem blocks64_append (k : Nat) (a b : List Byte) (h : a.length = 64) :
    blocks64 (k + 1) (a ++ b) = a :: blocks64 k b := by simp [blocks64, ← h]

/-- Everything absorbing does to SHA.H and to the live bytes of SHA.BLK: the bytes held and the bytes fed are cut into whole
blocks, compressed in turn, and the rest is held (spec/41_sha256.md R144). -/
theorem absorbBytes_blocks (c : ShaCtx) (bs : List Byte) :
    (absorbBytes c bs).h = (blocks64 ((c.fill.toNat + bs.length) / 64)
      (c.blk.toList.take c.fill.toNat ++ bs)).foldl compress c.h ∧
    (absorbBytes c bs).blk.toList.take ((c.fill.toNat + bs.length) % 64) =
      (c.blk.toList.take c.fill.toNat ++ bs).drop (64 * ((c.fill.toNat + bs.length) / 64)) := by
  have hf := c.fill.isLt
  have hl : c.blk.toList.length = 64 := by simp
  by_cases h : c.fill.toNat + bs.length < 64
  · obtain ⟨h1, h2⟩ := absorbBytes_inside c bs (by omega)
    rw [h2, h1, if_neg (by omega), Nat.div_eq_of_lt h, Nat.mod_eq_of_lt h]
    refine ⟨rfl, ?_⟩
    rw [List.take_append_of_le_length (by simp; omega), List.take_of_length_le (by simp)]
    rfl
  · have hlt : (bs.drop (64 - c.fill.toNat)).length < bs.length := by simp; omega
    have key := absorbBytes_blocks (absorbBytes c (bs.take (64 - c.fill.toNat))) (bs.drop (64 - c.fill.toNat))
    have htl : (bs.take (64 - c.fill.toNat)).length = 64 - c.fill.toNat := by simp; omega
    obtain ⟨h1, h2⟩ := absorbBytes_inside c (bs.take (64 - c.fill.toNat)) (by omega)
    have h3 := absorbBytes_fill c (bs.take (64 - c.fill.toNat))
    rw [htl, show (c.fill.toNat + (64 - c.fill.toNat)) % 64 = 0 by omega] at h3
    rw [htl, if_pos (by omega), h1, htl, List.drop_of_length_le (by simp; omega), List.append_nil] at h2
    rw [h3, ← absorbBytes_append, List.take_append_drop, h2] at key
    simp only [List.take_zero, List.nil_append, Nat.zero_add, List.length_drop] at key
    have e1 : (c.fill.toNat + bs.length) / 64 = (bs.length - (64 - c.fill.toNat)) / 64 + 1 := by omega
    have e2 : (c.fill.toNat + bs.length) % 64 = (bs.length - (64 - c.fill.toNat)) % 64 := by omega
    have e3 : c.blk.toList.take c.fill.toNat ++ bs =
        (c.blk.toList.take c.fill.toNat ++ bs.take (64 - c.fill.toNat)) ++ bs.drop (64 - c.fill.toNat) := by
      rw [List.append_assoc, List.take_append_drop]
    have e4 : (c.blk.toList.take c.fill.toNat ++ bs.take (64 - c.fill.toNat)).length = 64 := by simp; omega
    rw [e1, e2, e3, blocks64_append _ _ _ e4, key.1, key.2]
    refine ⟨rfl, ?_⟩
    rw [List.drop_append, e4, List.drop_of_length_le (l := c.blk.toList.take c.fill.toNat ++ _) (by rw [e4]; omega),
      List.nil_append]
    congr 1
termination_by bs.length

/-! ### The message schedule (spec/41_sha256.md R148) -/

theorem extendSchedule_suffix (ws : List Word) (n : Nat) : ∃ l, l.length = n ∧ extendSchedule ws n = l ++ ws := by
  induction n generalizing ws with
  | zero => exact ⟨[], rfl, rfl⟩
  | succ n ih =>
    obtain ⟨l, h1, h2⟩ := ih
      ((smallSigma1 (ws.getD 1 0) + ws.getD 6 0 + smallSigma0 (ws.getD 14 0) + ws.getD 15 0) :: ws)
    rw [extendSchedule, h2, List.append_cons]
    exact ⟨_, by simp [h1], rfl⟩

/-- The recurrence on the list that grows newest first. -/
theorem extendSchedule_getD (ws : List Word) (n k : Nat) (hk : k < n) :
    (extendSchedule ws n).getD k 0 =
      smallSigma1 ((extendSchedule ws n).getD (k + 2) 0) + (extendSchedule ws n).getD (k + 7) 0 +
        smallSigma0 ((extendSchedule ws n).getD (k + 15) 0) + (extendSchedule ws n).getD (k + 16) 0 := by
  induction n generalizing ws k with
  | zero => omega
  | succ n ih =>
    rw [extendSchedule]
    by_cases h : k < n
    · exact ih _ k h
    · obtain rfl : k = n := by omega
      obtain ⟨l, h1, h2⟩ := extendSchedule_suffix
        ((smallSigma1 (ws.getD 1 0) + ws.getD 6 0 + smallSigma0 (ws.getD 14 0) + ws.getD 15 0) :: ws) k
      rw [h2]
      subst h1
      simp [List.getD_eq_getElem?_getD, List.getElem?_append_right]

@[simp] theorem schedule_length (b : List Byte) : (schedule b).length = 64 := by
  obtain ⟨l, h1, h2⟩ := extendSchedule_suffix ((List.range 16).map (blockWord b)).reverse 48
  rw [schedule, h2]
  simp [h1]

theorem schedule_getD (b : List Byte) (t : Nat) (h : t < 64) : (schedule b).getD t 0 =
    (extendSchedule ((List.range 16).map (blockWord b)).reverse 48).getD (63 - t) 0 := by
  have hl : (extendSchedule ((List.range 16).map (blockWord b)).reverse 48).length = 64 := by
    rw [← schedule_length b, schedule, List.length_reverse]
  rw [schedule, List.getD_eq_getElem?_getD, List.getElem?_reverse (by omega), hl, List.getD_eq_getElem?_getD]

/-- W[t] for t < 16 is the block's big-endian word t. -/
theorem schedule_first (b : List Byte) (t : Nat) (h : t < 16) : (schedule b).getD t 0 = blockWord b t := by
  rw [schedule_getD b t (by omega)]
  obtain ⟨l, h1, h2⟩ := extendSchedule_suffix ((List.range 16).map (blockWord b)).reverse 48
  rw [h2, List.getD_eq_getElem?_getD, List.getElem?_append_right (by omega), List.getElem?_reverse (by simp; omega), h1]
  simp only [List.length_map, List.length_range, List.getElem?_map]
  rw [List.getElem?_range (by omega), show 16 - 1 - (63 - t - 48) = t by omega]
  rfl

/-- W[t] for 16 ≤ t < 64, as R148 writes it. -/
theorem schedule_rec (b : List Byte) (t : Nat) (h : 16 ≤ t) (h' : t < 64) : (schedule b).getD t 0 =
    smallSigma1 ((schedule b).getD (t - 2) 0) + (schedule b).getD (t - 7) 0 +
      smallSigma0 ((schedule b).getD (t - 15) 0) + (schedule b).getD (t - 16) 0 := by
  rw [schedule_getD b t h', extendSchedule_getD _ _ _ (by omega), schedule_getD b _ (by omega),
    schedule_getD b _ (by omega), schedule_getD b _ (by omega), schedule_getD b _ (by omega),
    show 63 - t + 2 = 63 - (t - 2) by omega, show 63 - t + 7 = 63 - (t - 7) by omega,
    show 63 - t + 15 = 63 - (t - 15) by omega, show 63 - t + 16 = 63 - (t - 16) by omega]

/-! ### Padding and digest -/

theorem shaPad_length (n : Nat) :
    (shaPad n).length = if n % 64 ≤ 55 then 64 - n % 64 else 128 - n % 64 := by
  simp only [shaPad, be64, List.length_cons, List.length_append, List.length_replicate, List.length_map,
    List.length_range]
  split <;> omega

/-- Byte 4i + j of the digest (spec/41_sha256.md R151). -/
theorem digestOf_getD (h : Hash8) (k : Nat) (hk : k < 32) :
    (digestOf h).toList.getD k 0 = (hashWord h (k / 4)).extractLsb' (24 - 8 * (k % 4)) 8 := by
  simp [digestOf, hk]

/-! ### Counting compressions -/

theorem blocksDone_eq (fill n : Nat) (h : fill < 64) : blocksDone fill n = (fill + n) / 64 := by
  induction n generalizing fill with
  | zero =>
    simp only [blocksDone]
    omega
  | succ n ih =>
    simp only [blocksDone]
    split
    · rw [ih 0 (by omega)]
      omega
    · rw [ih _ (by omega)]
      omega

/-! ### The comparison -/

theorem byte_or_eq_zero (a b : Byte) : a ||| b = 0 ↔ a = 0 ∧ b = 0 := by
  constructor
  · intro h
    constructor <;> (apply BitVec.eq_of_getLsbD_eq; intro i hi; have := congrArg (fun z => z.getLsbD i) h; simp at this; simp_all)
  · rintro ⟨rfl, rfl⟩
    rfl

theorem byte_xor_eq_zero (a b : Byte) : a ^^^ b = 0 ↔ a = b := by
  constructor
  · intro h
    have := congrArg (fun z => z ^^^ b) h
    simpa [BitVec.xor_assoc] using this
  · rintro rfl
    simp

theorem ctFold_eq_zero (f g : Nat → Byte) (l : List Nat) (acc : Byte) :
    l.foldl (fun acc i => acc ||| (f i ^^^ g i)) acc = 0 ↔ acc = 0 ∧ ∀ i ∈ l, f i = g i := by
  induction l generalizing acc with
  | nil => simp
  | cons i l ih =>
    rw [List.foldl_cons, ih, byte_or_eq_zero, byte_xor_eq_zero]
    simp [and_assoc]

/-- The comparison combines every pair: n of them, whatever the bytes (spec/70_reset_and_hazards.md R361). -/
theorem ctCompare_eq (a b : List Byte) (n : Nat) : ctCompare a b n =
    ((List.range n).foldl (fun acc i => acc ||| (a.getD i 0 ^^^ b.getD i 0)) 0, n) := by
  have h : ∀ (l : List Nat) (acc : Byte) (k : Nat),
      l.foldl (fun acc i => (acc.1 ||| (a.getD i 0 ^^^ b.getD i 0), acc.2 + 1)) (acc, k) =
        (l.foldl (fun acc i => acc ||| (a.getD i 0 ^^^ b.getD i 0)) acc, k + l.length) := by
    intro l
    induction l with
    | nil => intro acc k; rfl
    | cons i l ih =>
      intro acc k
      rw [List.foldl_cons, ih, List.foldl_cons, List.length_cons, Nat.add_assoc, Nat.add_comm 1]
  rw [ctCompare, h]
  simp

/-- The comparison without early exit is equality of the first n bytes (spec/42_hmac.md R173). -/
theorem ctEqual_iff (a b : List Byte) (n : Nat) (ha : n ≤ a.length) (hb : n ≤ b.length) :
    ctEqual a b n = true ↔ a.take n = b.take n := by
  rw [ctEqual, ctCompare_eq, beq_iff_eq, ctFold_eq_zero]
  simp only [true_and, List.mem_range]
  constructor
  · intro h
    apply List.ext_getElem (by simp; omega)
    intro i h1 h2
    have := h i (by simp at h1; omega)
    simp at h1
    simpa [List.getD_eq_getElem?_getD, show i < a.length by omega, show i < b.length by omega] using this
  · intro h i hi
    have := congrArg (fun l => l.getD i 0) h
    simpa [List.getD_eq_getElem?_getD, List.getElem?_take, hi] using this

end Sys2Proof.Machine
end

