-- ==== Sys2Proof/Tests/Slice0.lean ====
section
/-! SUPPORT. The model's own tests. Expected values are those of spec/95_test_vectors.md (its vector's name stands in the
comment) or hand calculations from the rules named; no test expects a free value. Below them, a witness for the hypotheses of
each obligation. -/

namespace Sys2Proof.Tests

open Sys2Proof Sys2Proof.Machine

/-! ### Decoding: the words of spec/30_encoding.md R103, written out bit by bit -/

theorem test_decode_nop : decode 0b0000000000000000000000_0_0_00000000#32 = .ok .nop := by decide
theorem test_decode_now_raw : decode 0b0000000000000000000000_0_0_00000001#32 = .ok .nowRaw := by decide
theorem test_decode_wall_seconds : decode 0b0000000000000000000000_0_0_00000010#32 = .ok .wallSeconds := by decide
theorem test_decode_dcf_sample_l0_arg :
    decode 0b0000000000000000000000_0_0_00010000#32 = .ok (.dcfSample false false) := by decide
theorem test_decode_dcf_sample_l1_arg :
    decode 0b0000000000000000000000_0_1_00010000#32 = .ok (.dcfSample true false) := by decide
theorem test_decode_dcf_sample_l0_now :
    decode 0b0000000000000000000000_1_0_00010000#32 = .ok (.dcfSample false true) := by decide
theorem test_decode_dcf_sample_l1_now :
    decode 0b0000000000000000000000_1_1_00010000#32 = .ok (.dcfSample true true) := by decide
theorem test_decode_b64_decode : decode 0b0000000000000000000000_0_0_00100000#32 = .ok .b64Decode := by decide
theorem test_decode_sha_init : decode 0b0000000000000000000000_0_0_00110000#32 = .ok .shaInit := by decide
theorem test_decode_sha_update : decode 0b0000000000000000000000_0_0_00110001#32 = .ok .shaUpdate := by decide
theorem test_decode_sha_final : decode 0b0000000000000000000000_0_0_00110010#32 = .ok .shaFinal := by decide
theorem test_decode_hmac_compute : decode 0b0000000000000000000000_0_0_01000000#32 = .ok .hmacCompute := by decide
theorem test_decode_hmac_verify : decode 0b0000000000000000000000_0_0_01000001#32 = .ok (.hmacVerify false) := by decide
theorem test_decode_hmac_verify_t32 :
    decode 0b0000000000000000000000_0_1_01000001#32 = .ok (.hmacVerify true) := by decide

/-- W6, W8, W10: opcodes next to the ten. -/
theorem test_decode_illegal : decode 0x00000003 = .error .illegalOp ∧ decode 0x00000011 = .error .illegalOp ∧
    decode 0x00000042 = .error .illegalOp := by decide
/-- W2, W3, W4, W15: an unused F0, an unused F1, the lowest reserved bit, F1 of HMAC_VERIFY. -/
theorem test_decode_bad_flags : decode 0x00000100 = .error .badFlags ∧ decode 0x00000200 = .error .badFlags ∧
    decode 0x00000400 = .error .badFlags ∧ decode 0x00000241 = .error .badFlags := by decide
/-- W12: ILLEGAL_OP before BAD_FLAGS. -/
theorem test_decode_order : decode 0x000001FF = .error .illegalOp := by decide
theorem test_decode_table_word : decodeTableWord 32 0x141 = some (.hmacVerify true) ∧ decodeTableWord 32 0x3 = none := by
  decide

/-! ### WellFormed, and the parameters: each check refuses an ill-formed term -/

theorem test_access_above_window : Access.wellFormed Config.standard (.read 0x400 .w4) = false := by decide
theorem test_access_in_window : Access.wellFormed Config.standard (.read 0x3FC .w4) = true := by decide
theorem test_st32_outside : HostStmt.wellFormed Config.standard (.st32 0x400 0) = false := by decide
theorem test_st16_outside : HostStmt.wellFormed Config.standard (.st16 0x402 0) = false := by decide
theorem test_st8_outside : HostStmt.wellFormed Config.standard (.st8 0x401 0) = false := by decide
theorem test_ld32_outside : HostStmt.wellFormed Config.standard (.ld32 0x404) = false := by decide
theorem test_arg64_odd : HostStmt.wellFormed Config.standard (.arg64 .p0 1 0) = false := by decide
theorem test_bufstr_long : HostStmt.wellFormed Config.standard (.bufstr 255 [0x41, 0x42]) = false := by decide
theorem test_params_base : Params.ok { Params.standard with base := 0x200 } = false := by decide
theorem test_params_buf_size : Params.ok { Params.standard with bufSize := 513 } = false ∧
    Params.ok { Params.standard with bufSize := 12 } = false ∧
    Params.ok { Params.standard with bufSize := 18 } = false := by decide
theorem test_params_windows : Params.ok { Params.standard with tGapHi := 1700000 } = false ∧
    Params.ok { Params.standard with tBit0Hi := 170000 } = false ∧
    Params.ok { Params.standard with tMinLo := 2000001 } = false := by decide
theorem test_params_base_year : Params.ok { Params.standard with baseYear := 1999 } = false := by decide

/-! ### Helpers: small states -/

/-- After reset, with the external counter at 0. -/
def s0 : State := { State.reset with hwCnt := 0 }

/-- ARG0 to ARG2 of P0. -/
def withArgs (s : State) (a b c : Word) : State := { s with p0 := { s.p0 with arg0 := a, arg1 := b, arg2 := c } }

/-- The state a result holds. -/
def after (r : Result State) : State :=
  match r with
  | .next t => t
  | .fault _ => s0
  | .refused _ => s0

/-- One step: the command word issued on P0. -/
def cmd (s : State) (w : Nat) : State := after (step (s.withFetchWord 32 w))

/-- A state with an action of an agent pending. -/
def pend (s : State) (es : List Event) : State := { s with inbox := es }

/-- "YWI=" of B2 in BUF[0..4), as the operand range. -/
def sB64 : State := withArgs (s0.bufWrite 0 [0x59, 0x57, 0x49, 0x3D]) 0 4 0

/-- DCF77 with LEVEL, LAST_T = 1000000, COUNT = 5 (the start of D1 to D18), and a sample at `t` in ARG. -/
def sDcf (level : Bool) (t : Word) : State :=
  withArgs { s0 with dcf := { s0.dcf with level := level, lastT := 1000000, count := 5 } } t 0 0

/-- The frame V1 (2024-03-15 13:37 UTC). -/
def frameV1 : BitVec 60 := 0x0490755296F40000

/-- V1 complete after 59 bits, and the minute's rising edge at 70000000 in ARG (the end of P4). -/
def sMinute : State :=
  withArgs { s0 with dcf := { s0.dcf with bits := frameV1, count := 59, lastT := 68100000 } } 70000000 0 0

/-- An ACTIVE context that has absorbed "abc". -/
def sAbc : State :=
  { s0 with sha := absorb shaStart [0x61, 0x62, 0x63] }

/-- "abc" in BUF[0..3), as the operand range, in a started stream. -/
def sUpdate : State := { withArgs (s0.bufWrite 0 [0x61, 0x62, 0x63]) 0 3 0 with sha := shaStart }

/-- H6's message "abc" in BUF[0..3) with the reset key. -/
def sHmac : State := withArgs (s0.bufWrite 0 [0x61, 0x62, 0x63]) 0 3 0

/-- The first 16 bytes of H6's tag stand in BUF[16..32), its message in BUF[0..3). -/
def sVerify : State :=
  withArgs ((s0.bufWrite 0 [0x61, 0x62, 0x63]).bufWrite 16
    [0xfd, 0x7a, 0xdb, 0x15, 0x2c, 0x05, 0xef, 0x80, 0xdc, 0xcf, 0x50, 0xa1, 0xfa, 0x4c, 0x05, 0xd5]) 0 3 16

/-! ### Commands, one step each -/

/-- W1. -/
theorem test_nop : (cmd s0 0x00).p0.status = 0x00000005 := by decide +kernel
/-- W13 of the encoding vectors: BAD_FLAGS on SHA_UPDATE. -/
theorem test_bad_flags : (cmd s0 0x431).p0.status = 0x00310204 := by decide +kernel

/-- C1: E = 1, PREV = 0xFFFF, hw_cnt = 5: a half wrap. -/
theorem test_now_raw_half_wrap :
    let t := cmd { s0 with hwCnt := 5, clk := { e := 1, prev := 0xFFFF, off := 0 } } 0x01
    t.p0.res = 0x10005 ∧ t.clk.e = 2 ∧ t.p0.status = 0x00010005 := by decide +kernel
/-- C1: E = 2, PREV = 0x10005, hw_cnt = 3: the recovery. -/
theorem test_now_raw_recovery :
    let t := cmd { s0 with hwCnt := 3, clk := { e := 2, prev := 0x10005, off := 0 } } 0x01
    t.p0.res = 0x20003 ∧ t.clk.e = 4 ∧ t.clk.prev = 0x20003 := by decide +kernel

/-- C2's arithmetic: OFF = -1 and v = 2000000 give 1. -/
theorem test_wall_seconds_negative_offset :
    (cmd { s0 with hwCnt := 0x8480, clk := { e := 61, prev := 2000000, off := 0xFFFFFFFFFFFFFFFF } } 0x02).p0.res = 1 := by
  decide +kernel

/-- D2: a pulse of 70000 is the shortest BIT0. -/
theorem test_dcf_sample_bit0 : let t := cmd (sDcf true 1070000) 0x10
    t.dcf.event = .bit0 ∧ t.dcf.count = 6 ∧ t.p0.status = 0x00100005 := by decide +kernel
/-- P4's last edge: V1 is accepted. -/
theorem test_dcf_sample_minute : let t := cmd sMinute 0x110
    t.dcf.result = .ok ∧ t.dcf.lastTs = 1710509820 ∧ t.clk.off = 1710509750 ∧ dcfStatWord t.dcf = 0x00041280 := by
  decide +kernel

/-- B2: "YWI=" gives "ab", and the bytes behind stay. -/
theorem test_b64_decode : let t := cmd sB64 0x20
    t.p0.status = 0x00200005 ∧ t.p0.res = 2 ∧ t.bufRead 0 4 = [0x61, 0x62, 0x49, 0x3D] := by decide +kernel
/-- B16: "YW=j" is B64_PAD, and BUF stays. -/
theorem test_b64_pad : let t := cmd (sB64.bufWrite 2 [0x3D, 0x6A]) 0x20
    t.p0.status = 0x00200604 ∧ t.bufRead 0 4 = [0x59, 0x57, 0x3D, 0x6A] := by decide +kernel

/-- S10. -/
theorem test_sha_init : let t := cmd sAbc 0x30
    t.p0.status = 0x00300005 ∧ shaStatWord t.sha = 0x00000001 ∧ t.sha.nbytes = 0 := by decide +kernel

/-- Three bytes absorbed: FILL = 3, ACTIVE (R145). -/
theorem test_sha_update : let t := cmd sUpdate 0x31
    t.p0.status = 0x00310005 ∧ shaStatWord t.sha = 0x00000301 ∧ t.sha.blk.toList.take 4 = [0x61, 0x62, 0x63, 0] := by
  decide +kernel
/-- S18: no stream was started. -/
theorem test_sha_update_idle : (cmd s0 0x31).p0.status = 0x00310704 := by decide +kernel

/-- S2: the digest of "abc". -/
theorem test_sha_final : let t := cmd sAbc 0x32
    t.p0.status = 0x00320005 ∧ t.sha.phase = .finalized ∧ t.digest.toList =
      [0xba, 0x78, 0x16, 0xbf, 0x8f, 0x01, 0xcf, 0xea, 0x41, 0x41, 0x40, 0xde, 0x5d, 0xae, 0x22, 0x23,
       0xb0, 0x03, 0x61, 0xa3, 0x96, 0x17, 0x7a, 0x9c, 0xb4, 0x10, 0xff, 0x61, 0xf2, 0x00, 0x15, 0xad] := by
  decide +kernel
/-- S1: the digest of the empty stream. -/
theorem test_sha_final_empty : (cmd { s0 with sha := shaStart } 0x32).digest.toList.take 8 =
    [0xe3, 0xb0, 0xc4, 0x42, 0x98, 0xfc, 0x1c, 0x14] := by decide +kernel

/-- H6. -/
theorem test_hmac_compute : let t := cmd sHmac 0x40
    t.p0.status = 0x00400005 ∧ t.sha.phase = .idle ∧ t.digest.toList.take 16 =
      [0xfd, 0x7a, 0xdb, 0x15, 0x2c, 0x05, 0xef, 0x80, 0xdc, 0xcf, 0x50, 0xa1, 0xfa, 0x4c, 0x05, 0xd5] := by
  decide +kernel

/-- A correct 16-byte tag gives MATCH (H8's form, with H6's values). -/
theorem test_hmac_verify : (cmd sVerify 0x41).p0.status = 0x00410007 := by decide +kernel
/-- One bit of the tag flipped gives no MATCH (H10's form). -/
theorem test_hmac_verify_wrong : (cmd (sVerify.bufWrite 16 [0xfc]) 0x41).p0.status = 0x00410005 := by decide +kernel

/-! ### The bus, reset -/

/-- `st32 0x202, 0` and a byte read of STATUS get BusError (section 2.1). -/
theorem test_bus_error : (after (step (pend s0 [.bus .main (.write 0x202 .w4 0)]))).reply =
      some { master := .main, response := .busError } ∧
    (after (step (pend s0 [.bus .main (.read 0x004 .w1)]))).reply = some { master := .main, response := .busError } := by
  decide +kernel
/-- `st8 0x203, 0x41` sets BUF[3] (section 2.1). -/
theorem test_narrow_store : (after (step (pend s0 [.bus .main (.write 0x203 .w1 0x41)]))).bufByte 3 = 0x41 := by
  decide +kernel
/-- `ld32 0x040` returns the ID (section 2.1). -/
theorem test_id : (after (step (pend s0 [.bus .main (.read 0x040 .w4)]))).reply =
    some { master := .main, response := .data 0x43544C53 } := by decide +kernel
/-- R340: asserting `rst` loads the reset values. -/
theorem test_reset : (after (step (pend { sAbc with p1 := { sAbc.p1 with res := 5 } } [.rst true]))).p1.res = 0 := by
  decide +kernel

/-! ### Witnesses: states and operands that meet the hypotheses of the obligations, clause by clause -/

/-- The result is a next state. -/
def isNext (r : Result State) : Bool :=
  match r with
  | .next _ => true
  | .fault _ => false
  | .refused _ => false

theorem next_after {r : Result State} (h : isNext r = true) : r = .next (after r) := by
  cases r with
  | next t => rfl
  | fault e => simp [isNext] at h
  | refused e => simp [isNext] at h

theorem witness_DecodeExactlyEncodings : (Instr.dcfSample true true).wellFormed = true := rfl

theorem witness_TableRowsPartitionWords_match : (0x310 : Word) &&& rowMask (.dcfSample true true) = rowMatch (.dcfSample true true) ∧
    (0x310 : Word) &&& rowMask (.dcfSample false false) = rowMatch (.dcfSample false false) := by decide
theorem witness_TableRowsPartitionWords_none (i : Instr) :
    (0x3 : Word) &&& rowMask i ≠ rowMatch i ∧ (0x400 : Word) &&& rowMask i ≠ rowMatch i := by
  cases i <;> constructor <;> simp only [rowMask, rowMatch] <;> decide

theorem witness_StepRunsDecodedCommand : let s := pend s0 [cmdWrite s0.cfg .interrupt .p1 0x310, .tick]
    s.rst = false ∧ s.inbox = cmdWrite s.cfg .interrupt .p1 0x310 :: [.tick] ∧
      decode 0x310 = .ok (.dcfSample true true) := ⟨rfl, rfl, by decide⟩

theorem witness_RejectedWordsWriteOnlyStatus : let s := pend s0 [cmdWrite s0.cfg .main .p0 0x1FF]
    s.rst = false ∧ s.inbox = cmdWrite s.cfg .main .p0 0x1FF :: [] := ⟨rfl, rfl⟩
theorem witness_RejectedWordsWriteOnlyStatus_illegal :
    (0x1FF : Word).toNat % 256 ∉ [0x00, 0x01, 0x02, 0x10, 0x20, 0x30, 0x31, 0x32, 0x40, 0x41] := by decide
theorem witness_RejectedWordsWriteOnlyStatus_flags :
    let legal := [0x00, 0x01, 0x02, 0x10, 0x20, 0x30, 0x31, 0x32, 0x40, 0x41]
    ((0x431 : Word).toNat % 256 ∈ legal ∧ (0x431 : Word).toNat / 1024 ≠ 0) ∧
    ((0x140 : Word).toNat % 256 ∈ legal ∧ (0x140 : Word).toNat / 256 % 2 = 1 ∧ (0x140 : Word).toNat % 256 ≠ 0x10 ∧
      (0x140 : Word).toNat % 256 ≠ 0x41) ∧
    ((0x241 : Word).toNat % 256 ∈ legal ∧ (0x241 : Word).toNat / 512 % 2 = 1 ∧ (0x241 : Word).toNat % 256 ≠ 0x10) := by
  decide

theorem witness_CommandFrame : exec .b64Decode sB64 = .next (after (exec .b64Decode sB64)) :=
  next_after (by decide +kernel)

theorem witness_ErrorsWriteOnlyStatus :
    let t := after (exec .b64Decode (withArgs s0 0 257 0))
    exec .b64Decode (withArgs s0 0 257 0) = .next t ∧ statusOk t.ownStatus = false :=
  ⟨next_after (by decide +kernel), by decide +kernel⟩

theorem witness_ArgThreeIsIgnored : ∃ t, (3 : Fin 4) ∉ operandArgs (.hmacVerify true) ∧ Port.p1 ≠ sVerify.port ∧
    exec (.hmacVerify true) sVerify = .next t := ⟨_, by decide, by decide, next_after (by decide +kernel)⟩

theorem witness_KeyIsUnobservable : ∃ t, Instr.shaUpdate ≠ .hmacCompute ∧ (∀ b, Instr.shaUpdate ≠ .hmacVerify b) ∧
    exec .shaUpdate sUpdate = .next t := ⟨_, by decide, by decide, next_after (by decide +kernel)⟩

theorem witness_MastersHaveEqualRights : ∃ t, busAccess (.further 7) (.write 0x20 .w4 0x30) s0 = .next t :=
  ⟨_, next_after (by decide +kernel)⟩

theorem witness_ClockReadLinksExtension : isClockRead .nowRaw = true ∧ isClockRead .wallSeconds = true ∧
    isClockRead (.dcfSample false true) = true := by decide

theorem witness_NopSetsStatus_flags : (0x100 : Word).toNat % 256 = 0 ∧ (0x100 : Word).toNat / 256 ≠ 0 ∧
    (0x80000000 : Word).toNat % 256 = 0 ∧ (0x80000000 : Word).toNat / 256 ≠ 0 := by decide

theorem witness_ClockNeverDecreases :
    let s : State := { s0 with clk := { e := 0x1FFFFFFFFFFFD, prev := 0xFFFFFFFFFFFEFFFF, off := 0 } }
    isClockRead .nowRaw = true ∧ s.clk.prev.toNat / 2 ^ 15 = s.clk.e.toNat ∧ s.clk.prev.toNat < 2 ^ 64 - 2 ^ 16 := by
  decide
/-- The equality clause: nothing ticked since the last read. -/
theorem witness_ClockNeverDecreases_equal :
    let s : State := { s0 with hwCnt := 0xFFFF, clk := { e := 1, prev := 0xFFFF, off := 0 } }
    s.clk.prev.toNat / 2 ^ 15 = s.clk.e.toNat ∧ (after (exec .nowRaw s)).clk.prev = s.clk.prev := by decide +kernel

theorem witness_WholeWrapsAreLost (k : Nat) :
    let s : State := pend s0 (cmdWrite s0.cfg .main .p1 (encode .nowRaw) ::
      (List.replicate (k * 2 ^ 16) .tick ++ [cmdWrite s0.cfg .main .p1 (encode .nowRaw)]))
    s.rst = false ∧ s.inbox = cmdWrite s.cfg .main .p1 (encode .nowRaw) ::
      (List.replicate (k * 2 ^ 16) .tick ++ [cmdWrite s.cfg .main .p1 (encode .nowRaw)]) := ⟨rfl, rfl⟩

/-- A schedule that starts at the largest count allowed and waits as long as allowed. -/
def clockPlan : ClockSchedule := [(0x7FFF, .p0, .nowRaw), (0, .p1, .wallSeconds), (0x7FFF, .p0, .dcfSample true true)]

theorem witness_ClockReadsAreExact :
    let s : State := pend { s0 with hwCnt := 0x7FFF } (clockEvents s0.cfg clockPlan)
    s.rst = false ∧ s.clk.e = 0 ∧ s.clk.prev = 0 ∧ s.hwCnt.toNat < 2 ^ 15 ∧ clockPlan ≠ [] ∧
      (∀ x ∈ clockPlan, x.1 < 2 ^ 15 ∧ isClockRead x.2.2 = true) ∧ s.hwCnt.toNat + clockTicks clockPlan < 2 ^ 64 ∧
      s.inbox = clockEvents s.cfg clockPlan :=
  ⟨rfl, rfl, rfl, by decide, by decide, by decide, by decide, rfl⟩

theorem witness_TickAdvancesCounter : (pend { s0 with hwCnt := 0xFFFF } [.tick]).inbox = .tick :: [] := rfl

/-! DCF77 edges: for each clause of `DcfSampleClassifiesEdges` the elapsed time at an end of its window (D1 to D19). -/

/-- Time elapsed since LAST_T at the sample in ARG. -/
def elapsed (s : State) : Nat := (s.argTime.toNat + 2 ^ 64 - s.dcf.lastT.toNat) % 2 ^ 64

theorem witness_DcfSample_rise : (sDcf false 1700000).dcf.level = false ∧ elapsed (sDcf false 1700000) = 700000 ∧
    elapsed (sDcf false 2000000) = 1000000 ∧ elapsed (sDcf false 2700000) = 1700000 ∧
    elapsed (sDcf false 3000000) = 2000000 ∧ elapsed (sDcf false 3000001) = 2000001 ∧
    elapsed (sDcf false 999999) = 2 ^ 64 - 1 := by decide
theorem witness_DcfSample_fall : (sDcf true 1070000).dcf.level = true ∧ elapsed (sDcf true 1070000) = 70000 ∧
    elapsed (sDcf true 1130000) = 130000 ∧ elapsed (sDcf true 1170000) = 170000 ∧
    elapsed (sDcf true 1230000) = 230000 ∧ elapsed (sDcf true 1130001) = 130001 ∧
    (sDcf true 1070000).dcf.count.toNat ≠ 60 := by decide
theorem witness_DcfSample_overflow :
    let s : State := { sDcf true 1100000 with dcf := { (sDcf true 0).dcf with count := 60 } }
    s.dcf.level = true ∧ s.dcf.count.toNat = 60 ∧ elapsed s = 100000 := by decide

theorem witness_MinuteRunsAnalysis_ok : sMinute.dcf.level = false ∧
    sMinute.cfg.tMinLo ≤ (sMinute.argTime - sMinute.dcf.lastT).toNat ∧
    (sMinute.argTime - sMinute.dcf.lastT).toNat ≤ sMinute.cfg.tMinHi ∧
    analysisCode (analyzeFrame sMinute.cfg.toParams sMinute.dcf.count.toNat sMinute.dcf.bits) = .ok := by decide +kernel
theorem witness_MinuteRunsAnalysis_error : (sDcf false 2700000).dcf.level = false ∧
    (sDcf false 2700000).cfg.tMinLo ≤ ((sDcf false 2700000).argTime - (sDcf false 2700000).dcf.lastT).toNat ∧
    analysisCode (analyzeFrame (sDcf false 2700000).cfg.toParams (sDcf false 2700000).dcf.count.toNat
      (sDcf false 2700000).dcf.bits) = .badCount := by decide +kernel

theorem witness_LivenessIndicator_success : let t := after (exec (.dcfSample true false) sMinute)
    sMinute.dcf.level = false ∧ t.dcf.event = .minute ∧ t.dcf.result = .ok := by decide +kernel
/-- D19c and D19d: 3600000000 microseconds are not yet too long. -/
theorem witness_LivenessIndicator_other : let s := withArgs s0 3600000001 0 0
    ¬ (s.dcf.level = false ∧ false = true ∧ (after (exec (.dcfSample false false) s)).dcf.event = .minute ∧
      (after (exec (.dcfSample false false) s)).dcf.result = .ok) ∧
    s.cfg.livenessUs < (s.argTime - s.dcf.lastOkT).toNat ∧
    ¬ s.cfg.livenessUs < ((withArgs s0 3600000000 0 0).argTime - s.dcf.lastOkT).toNat := by decide +kernel

/-- 59 bits before the last, each at an end of a window: with the last, 60 bits. -/
def minutePlan : List PulseBit :=
  List.replicate 29 { bit := false, pulse := 70000, low := 700000 } ++
  List.replicate 30 { bit := true, pulse := 230000, low := 1000000 }

def minuteLast : PulseBit := { bit := false, pulse := 130000, low := 1700000 }

theorem witness_OrdinaryMinuteIsAccumulated :
    let s : State := pend { s0 with dcf := { s0.dcf with level := true } }
      (minuteEvents s0.cfg .p1 s0.dcf.lastT (minutePlan ++ [minuteLast]))
    s.rst = false ∧ s.dcf.level = true ∧ s.dcf.count = 0 ∧ minutePlan.length < 60 ∧
      (∀ x ∈ minutePlan ++ [minuteLast], x.pulseOk s.cfg) ∧
      (∀ x ∈ minutePlan, s.cfg.tGapLo ≤ x.low.toNat ∧ x.low.toNat ≤ s.cfg.tGapHi) ∧
      s.cfg.tMinLo ≤ minuteLast.low.toNat ∧ minuteLast.low.toNat ≤ s.cfg.tMinHi ∧
      s.inbox = minuteEvents s.cfg .p1 s.dcf.lastT (minutePlan ++ [minuteLast]) := by
  refine ⟨rfl, rfl, rfl, by decide, ?_, by decide, by decide, by decide, rfl⟩
  unfold PulseBit.pulseOk
  decide

/-! DCF77 frames: V1 at 59 and at 60 bits, V5 (the smallest CET timestamp), and a frame under UTC_CHECK = none. -/

def paramsNone : Params := { Params.standard with utcCheck := .none }

/-- The timestamp of a frame that passes. -/
def frameTs (p : Params) (n : Nat) (b : BitVec 60) : Option Nat :=
  match analyzeFrame p n b with
  | .ok ts => some ts
  | .error _ => none

theorem witness_AnalysisReportsFirstFailure : frameTs Params.standard 59 frameV1 = some 1710509820 ∧
    frameTs Params.standard 60 frameV1 = some 1710509820 := by decide +kernel
theorem witness_SingleBitFlipIsCaught : Params.standard.utcCheck = .strict ∧
    frameTs Params.standard 60 frameV1 = some 1710509820 ∧ (0 : Nat) < 60 ∧ (59 : Nat) < 60 ∧
    (paramsNone.utcCheck ≠ .strict ∧ frameTs paramsNone 60 frameV1 = some 1710509820) :=
  ⟨rfl, by decide +kernel, by decide, by decide⟩
theorem witness_DecodedTimestampRange : 2000 ≤ Params.standard.baseYear ∧ Params.standard.utcCheck = .strict ∧
    frameTs Params.standard 59 0x0000381000140000 = some 946681200 ∧ 2000 ≤ paramsNone.baseYear ∧
    frameTs paramsNone 59 0x0490755296F00000 = some 1710513420 := by decide +kernel

theorem witness_CalendarCountsDays : validDate 2000 2 29 ∧ validDate 2100 2 28 ∧ validDate 2000 12 31 ∧
    validDate 2399 1 1 := by
  unfold validDate
  decide

theorem witness_SextetsFollowAlphabet : sextet 0x2F = some 63 ∧ sextet 0x41 = some 0 := by decide

/-! B64_DECODE: a clause each: the range (B24), the length (B13), the first bad character (B16, B20), success (B2, B7). -/

theorem witness_B64_range : sB64.cfg.bufSize < (0xFFFFFFFF : Word).toNat + (2 : Word).toNat ∧
    sB64.cfg.bufSize < (0 : Word).toNat + (257 : Word).toNat := by decide
theorem witness_B64_length : ((withArgs s0 0 1 0).regs .p0).arg1.toNat % 4 = 1 ∧
    0 + ((withArgs s0 0 1 0).regs .p0).arg1.toNat ≤ s0.cfg.bufSize := by decide
theorem witness_B64_bad_char : sextet 0x3D = none ∧ sextet 0x2A = none ∧
    (cmd (sB64.bufWrite 0 [0x2A, 0x3D, 0x41, 0x41]) 0x20).p0.status = 0x00200504 := by decide +kernel
theorem witness_B64_ok : sB64.argNat 0 + sB64.argNat 1 ≤ sB64.cfg.bufSize ∧ sB64.argNat 1 % 4 ≠ 1 ∧
    (cmd (withArgs sB64 256 0 0) 0x20).p0.status = 0x00200005 := by decide +kernel

theorem witness_B64RoundTrip : b64EncodePadded [0x61, 0x62] = [0x59, 0x57, 0x49, 0x3D] ∧
    sB64.argNat 1 = (b64EncodePadded [0x61, 0x62]).length ∧
    sB64.argNat 0 + (b64EncodePadded [0x61, 0x62]).length ≤ sB64.cfg.bufSize ∧
    sB64.bufRead (sB64.argNat 0) (b64EncodePadded [0x61, 0x62]).length = b64EncodePadded [0x61, 0x62] := by
  decide +kernel
theorem witness_B64RoundTrip_longest : (List.replicate 192 (0xFF : Byte)).length ≤ 3 * (s0.cfg.bufSize / 4) := by
  decide +kernel

/-! SHA-256 and HMAC: the error clauses and the boundary of a block and of a stream (S20, S22). -/

theorem witness_ShaUpdate_range : s0.cfg.bufSize < (withArgs s0 200 57 0).argNat 0 + (withArgs s0 200 57 0).argNat 1 := by
  decide
theorem witness_ShaUpdate_phase : 0 + sHmac.argNat 1 ≤ sHmac.cfg.bufSize ∧ sHmac.sha.phase ≠ .active := by decide
theorem witness_ShaUpdate_length :
    let c : ShaCtx := { shaStart with nbytes := 0x1FFFFFFFFFFFFFFD }
    ({ sUpdate with sha := c } : State).sha.phase = .active ∧ 2 ^ 61 - 1 < c.nbytes.toNat + 3 ∧
    ¬ 2 ^ 61 - 1 < c.nbytes.toNat + 2 := by decide
theorem witness_ShaUpdate_ok : 0 + sUpdate.argNat 1 ≤ sUpdate.cfg.bufSize ∧ sUpdate.sha.phase = .active ∧
    sUpdate.sha.nbytes.toNat + sUpdate.argNat 1 ≤ 2 ^ 61 - 1 ∧ sUpdate.sha.fill.toNat + sUpdate.argNat 1 ≤ 64 := by decide
theorem witness_ShaUpdate_full_block :
    let s : State := { withArgs s0 0 64 0 with sha := shaStart }
    s.sha.phase = .active ∧ s.sha.fill.toNat + s.argNat 1 = 64 := by decide

theorem witness_ShaFinal : sAbc.sha.phase = .active ∧ sAbc.sha.fill.toNat = sAbc.sha.nbytes.toNat % 64 ∧
    s0.sha.phase ≠ .active := by decide +kernel

/-- SHA_INIT, the host writes "abc" into BUF and sets the operands, SHA_UPDATE. -/
theorem witness_ShaStreamIsOneShot : ∃ s, StreamRun [0x61, 0x62, 0x63] s := by
  have h0 : StreamRun [] (after (exec .shaInit s0)) := .init s0 _ (next_after (by decide +kernel))
  have h1 : StreamRun [] sUpdate := .between [] _ _ h0 (by decide +kernel)
  have h2 := StreamRun.update [] _ _ h1 (next_after (r := exec .shaUpdate sUpdate) (by decide +kernel))
    (by decide +kernel)
  have h3 : [] ++ sUpdate.bufRead (sUpdate.argNat 0) (sUpdate.argNat 1) = [0x61, 0x62, 0x63] := by decide +kernel
  rw [h3] at h2
  exact ⟨_, h2⟩

theorem witness_ShaPaddingFillsBlocks : (shaPad 55).length = 9 ∧ (shaPad 56).length = 72 ∧ 1 + 8 < (shaPad 56).length := by
  decide

theorem witness_HmacCompute : sHmac.argNat 0 + sHmac.argNat 1 ≤ sHmac.cfg.bufSize ∧
    sHmac.cfg.bufSize < (withArgs s0 16 241 0).argNat 0 + (withArgs s0 16 241 0).argNat 1 := by decide
theorem witness_HmacVerify : sVerify.argNat 0 + sVerify.argNat 1 ≤ sVerify.cfg.bufSize ∧
    sVerify.argNat 2 + 32 ≤ sVerify.cfg.bufSize ∧ sVerify.cfg.bufSize < (withArgs s0 0 3 241).argNat 2 + 16 := by decide

theorem witness_CompressionCounts :
    exec .shaUpdate sUpdate = .next (after (exec .shaUpdate sUpdate)) ∧
    statusOk (after (exec .shaUpdate sUpdate)).ownStatus = true ∧
    exec .hmacCompute sHmac = .next (after (exec .hmacCompute sHmac)) ∧
    statusOk (after (exec .hmacCompute sHmac)).ownStatus = true ∧
    exec (.hmacVerify false) sVerify = .next (after (exec (.hmacVerify false) sVerify)) ∧
    statusOk (after (exec (.hmacVerify false) sVerify)).ownStatus = true :=
  ⟨next_after (by decide +kernel), by decide +kernel, next_after (by decide +kernel), by decide +kernel,
    next_after (by decide +kernel), by decide +kernel⟩

theorem witness_HmacWorkIsConstantTime :
    (sVerify.cfg = ({ sVerify with key := Vector.replicate 32 1 } : State).cfg ∧
      ∀ k, sVerify.arg k = ({ sVerify with key := Vector.replicate 32 1 } : State).arg k) ∧
    exec (.hmacVerify false) sVerify = .next (after (exec (.hmacVerify false) sVerify)) ∧
    statusOk (after (exec (.hmacVerify false) sVerify)).ownStatus = true ∧
    16 ≤ (List.replicate 32 (0 : Byte)).length :=
  ⟨⟨rfl, fun _ => rfl⟩, next_after (by decide +kernel), by decide +kernel, by decide⟩

/-- The comparison combines all pairs, whether the first or the last byte differs (spec/70_reset_and_hazards.md R361). -/
theorem test_ct_compare_no_early_exit : (ctCompare [1, 2, 3] [9, 2, 3] 3).2 = 3 ∧ (ctCompare [1, 2, 3] [1, 2, 9] 3).2 = 3 ∧
    ctEqual [1, 2, 3] [9, 2, 3] 3 = false ∧ ctEqual [1, 2, 3] [1, 2, 9] 3 = false ∧ ctEqual [1, 2, 3] [1, 2, 3] 3 = true := by
  decide

/-! The bus: offsets at the ends of each clause's range. -/

theorem witness_OnlyCmdWrites_cmd : s0.rst = false ∧ busTarget s0.cfg 0x020 .w4 = some (.reg (.cmd .p1)) := by decide
theorem witness_OnlyCmdWrites (p : Port) : busTarget s0.cfg 0x3FC .w4 ≠ some (.reg (.cmd p)) ∧
    busTarget s0.cfg 0x004 .w4 ≠ some (.reg (.cmd p)) ∧ busTarget s0.cfg 0x400 .w4 ≠ some (.reg (.cmd p)) := by
  cases p <;> decide
theorem witness_BusErrors : s0.rst = false ∧ (0x083 : Nat) < 0x84 ∧ Width.w1 ≠ .w4 ∧ 0x3FE % Width.w4.bytes ≠ 0 ∧
    (0x3FE : Nat) < 0x400 ∧ 0x3FC % Width.w4.bytes = 0 ∧ 0x084 % Width.w1.bytes = 0 ∧ 0x0FE % Width.w2.bytes = 0 ∧
    (0x0FE : Nat) < 0x100 ∧ (0x084 : Nat) ≤ 0x084 ∧ 0x101 % Width.w1.bytes = 0 ∧ ¬ (0x101 : Nat) < 0x100 := by decide

/-- R65, R70: a reserved offset of register space takes every width; the register below it does not (R63). -/
theorem test_narrow_reserved : busTarget s0.cfg 0x084 .w1 = some .reserved ∧ busTarget s0.cfg 0x0FE .w2 = some .reserved ∧
    busTarget s0.cfg 0x080 .w1 = none ∧ busTarget s0.cfg 0x082 .w2 = none := by decide
theorem witness_BufWordThenBytes : s0.rst = false ∧ 252 % Width.w4.bytes = 0 ∧ 252 + Width.w4.bytes ≤ s0.cfg.bufSize ∧
    254 % Width.w2.bytes = 0 ∧ 254 + Width.w2.bytes ≤ s0.cfg.bufSize ∧ 255 + Width.w1.bytes ≤ s0.cfg.bufSize ∧
    28 % Width.w4.bytes = 0 ∧ 28 + Width.w4.bytes ≤ 32 := by decide
theorem witness_KeyWindow : s0.rst = false ∧ 30 % Width.w2.bytes = 0 ∧ 30 + Width.w2.bytes ≤ 32 ∧
    28 % Width.w4.bytes = 0 ∧ 31 + Width.w1.bytes ≤ 32 := by decide
theorem witness_ArgRegistersReadBack : s0.rst = false ∧ (3 : Fin 4) ≠ 0 := by decide
theorem witness_ReservedAndReadOnly : s0.rst = false ∧ 0x84 % Width.w4.bytes = 0 ∧ 0xFF % Width.w1.bytes = 0 ∧
    0x1FE % Width.w2.bytes = 0 ∧ 0x200 + s0.cfg.bufSize ≤ 0x300 ∧ 0x11C % Width.w4.bytes = 0 ∧
    0x80 % Width.w4.bytes = 0 ∧ 0x20 % Width.w4.bytes = 0 ∧ 0x13F % Width.w1.bytes = 0 := by decide
theorem witness_RegisterReads : s0.rst = false := rfl
theorem witness_HostStatements : s0.rst = false ∧ s0.inbox = [] ∧ 253 + [0x41, 0x42, 0x43].length ≤ s0.cfg.bufSize := by
  decide

theorem witness_ResetLoadsEveryElement : (pend sAbc [.rst true, .rst false, .tick]).inbox =
    .rst true :: .rst false :: [.tick] := rfl
theorem witness_AccessInReset : let s := pend { s0 with rst := true } [.bus .main (.write 0 .w4 0)]
    s.rst = true ∧ s.inbox = .bus .main (.write 0 .w4 0) :: [] := ⟨rfl, rfl⟩
theorem witness_OnlyResetClearsDoneAndSynced :
    let s := pend { s0 with p0 := { s0.p0 with status := 0x00000005 }, dcf := { s0.dcf with synced := true } }
      [cmdWrite s0.cfg .main .p1 0x03]
    step s = .next (after (step s)) ∧ (∀ e rest, s.inbox = e :: rest → e ≠ .powerCycle ∧ ∀ l, e ≠ .rst l) ∧
      statusDoneBit (s.regs .p0).status = true ∧ s.dcf.synced = true := by
  refine ⟨next_after (by decide +kernel), ?_, by decide, rfl⟩
  intro e rest h
  have h' : e = cmdWrite s0.cfg .main .p1 0x03 := (List.cons.inj h).1.symm
  subst h'
  exact ⟨by decide, by intro l; cases l <;> decide⟩

theorem witness_PowerCycle : (pend sAbc [.powerCycle]).inbox = .powerCycle :: [] := rfl

/-- A state the reset state is not: an ACTIVE context, a command pending. -/
theorem witness_StepKeepsInvariant : let s := pend sAbc [cmdWrite s0.cfg .main .p0 0x32]
    s.Inv ∧ step s = .next (after (step s)) := by
  refine ⟨⟨rfl, by decide, by decide, fun _ => ⟨rfl, rfl, rfl, by decide⟩, ?_, Or.inl rfl, Or.inl rfl, ?_⟩,
    next_after (by decide +kernel)⟩
  · have h1 : sAbc.sha.nbytes.toNat ≤ shaMaxBytes := by decide +kernel
    have h2 : sAbc.sha.fill.toNat = sAbc.sha.nbytes.toNat % 64 := by decide +kernel
    exact ⟨h1, h2⟩
  · intro h
    exact absurd h (by decide)

end Sys2Proof.Tests
end

/-! The reasoning rules of the state family: what a command, a bus write and a step can do, said once each. -/

namespace Sys2Proof.Machine

/-! ### What a command can do -/

/-- `s.Completes i u m`: command `i` on `s` meets no error, and has left `u` when it writes `Done(opcode i, 0, m)`. -/
inductive State.Completes (s : State) : Instr → State → Bool → Prop where
  | nop : s.Completes .nop s false
  | nowRaw : s.Completes .nowRaw (s.nowRawState.setRes s.port s.nowRawResult) false
  | wallSeconds :
      s.Completes .wallSeconds (s.nowRawState.setRes s.port (wallSeconds s.clk.off s.nowRawResult)) false
  | dcfSampleArg (lvl : Bool) : s.Completes (.dcfSample lvl false) (s.dcfSampleAt lvl s.argTime) false
  | dcfSampleNow (lvl : Bool) : s.Completes (.dcfSample lvl true)
      ((s.nowRawState.setRes s.port s.nowRawResult).dcfSampleAt lvl s.nowRawResult) false
  | b64Decode (out : List Byte) (range : s.rangeOk (s.argNat 0) (s.argNat 1) = true)
      (decoded : base64Decode (s.bufRead (s.argNat 0) (s.argNat 1)) = .ok out) :
      s.Completes .b64Decode ((s.bufWrite (s.argNat 0) out).setRes s.port (BitVec.ofNat 64 out.length)) false
  | shaInit : s.Completes .shaInit { s with sha := shaStart } false
  | shaUpdate (range : s.rangeOk (s.argNat 0) (s.argNat 1) = true) (active : s.sha.phase = .active)
      (short : s.sha.nbytes.toNat + s.argNat 1 ≤ shaMaxBytes) :
      s.Completes .shaUpdate { s with sha := absorb s.sha (s.bufRead (s.argNat 0) (s.argNat 1)) } false
  | shaFinal (active : s.sha.phase = .active) :
      s.Completes .shaFinal { s with sha := shaFinish s.sha, digest := digestOf (shaFinish s.sha).h } false
  | hmacCompute (range : s.rangeOk (s.argNat 0) (s.argNat 1) = true) :
      s.Completes .hmacCompute
        { s with sha := ShaCtx.reset, digest := hmacSha256 s.key (s.bufRead (s.argNat 0) (s.argNat 1)) } false
  | hmacVerify (tag32 : Bool) (range : s.rangeOk (s.argNat 0) (s.argNat 1) = true)
      (tagRange : s.rangeOk (s.argNat 2) (tagBytes tag32) = true) :
      s.Completes (.hmacVerify tag32) { s with sha := ShaCtx.reset } (s.tagMatches tag32)

/-- The base64 decoder fails with R125's three errors only. -/
theorem base64Decode_error {s0 : List Byte} {e : ErrCode} (h : base64Decode s0 = .error e) :
    e = .b64Length ∨ e = .b64Char ∨ e = .b64Pad := by
  unfold base64Decode at h
  split at h
  · cases h
    simp
  · split at h
    · split at h <;> cases h <;> simp
    · cases h

/-- Everything a command can do: raise one of its errors (R301), or complete (R98). -/
theorem exec_cases {i : Instr} {s t : State} (h : exec i s = .next t) :
    (∃ e ∈ mayRaise i, t = s.raise (opcode i) e) ∨ ∃ u m, s.Completes i u m ∧ t = u.done (opcode i) m := by
  cases i with
  | nop => cases h; exact .inr ⟨_, _, .nop, rfl⟩
  | nowRaw => cases h; exact .inr ⟨_, _, .nowRaw, rfl⟩
  | wallSeconds => cases h; exact .inr ⟨_, _, .wallSeconds, rfl⟩
  | shaInit => cases h; exact .inr ⟨_, _, .shaInit, rfl⟩
  | dcfSample lvl tsrc =>
    cases tsrc with
    | false => cases h; exact .inr ⟨_, _, .dcfSampleArg lvl, rfl⟩
    | true => cases h; exact .inr ⟨_, _, .dcfSampleNow lvl, rfl⟩
  | b64Decode =>
    simp only [exec, execB64Decode] at h
    split at h
    next range =>
      split at h
      next e decoded =>
        cases h
        rcases base64Decode_error decoded with rfl | rfl | rfl <;> exact .inl ⟨_, by simp [mayRaise], rfl⟩
      next out decoded => cases h; exact .inr ⟨_, _, .b64Decode out range decoded, rfl⟩
    next => cases h; exact .inl ⟨.badRange, by simp [mayRaise], rfl⟩
  | shaUpdate =>
    simp only [exec, execShaUpdate] at h
    split at h
    next range =>
      split at h
      next active =>
        split at h
        next => cases h; exact .inl ⟨.shaLength, by simp [mayRaise], rfl⟩
        next short => cases h; exact .inr ⟨_, _, .shaUpdate range active (by omega), rfl⟩
      next => cases h; exact .inl ⟨.shaState, by simp [mayRaise], rfl⟩
    next => cases h; exact .inl ⟨.badRange, by simp [mayRaise], rfl⟩
  | shaFinal =>
    simp only [exec, execShaFinal] at h
    split at h
    next active => cases h; exact .inr ⟨_, _, .shaFinal active, rfl⟩
    next => cases h; exact .inl ⟨.shaState, by simp [mayRaise], rfl⟩
  | hmacCompute =>
    simp only [exec, execHmacCompute] at h
    split at h
    next range => cases h; exact .inr ⟨_, _, .hmacCompute range, rfl⟩
    next => cases h; exact .inl ⟨.badRange, by simp [mayRaise], rfl⟩
  | hmacVerify tag32 =>
    simp only [exec, execHmacVerify] at h
    split at h
    next range =>
      split at h
      next tagRange => cases h; exact .inr ⟨_, _, .hmacVerify tag32 range tagRange, rfl⟩
      next => cases h; exact .inl ⟨.badRange, by simp [mayRaise], rfl⟩
    next => cases h; exact .inl ⟨.badRange, by simp [mayRaise], rfl⟩

/-- MATCH is set by HMAC_VERIFY alone (R25). -/
theorem State.Completes.opcode_of_match {s u : State} {i : Instr} (h : s.Completes i u true) : opcode i = 0x41 := by
  generalize hm : true = m at h
  cases h <;> first | rfl | cases hm

theorem State.rangeOk_iff (s : State) (off len : Nat) : s.rangeOk off len = true ↔ off + len ≤ s.cfg.bufSize := by
  simp [State.rangeOk]

/-! ### What a bus write and a bus access can do -/

/-- What a write can do to `s` once its target accepts it (R23, R26, R62, R65, R66). -/
inductive State.WriteEffect (s : State) : State → Prop where
  | ignored : s.WriteEffect s
  | arg (p : Port) (k : Fin 4) (v : Word) : s.WriteEffect (s.setRegs p ((s.regs p).setArg k v))
  | key (k : Vector Byte 32) : s.WriteEffect { s with key := k }
  | buf (i : Nat) (bs : List Byte) (bound : i + bs.length ≤ s.cfg.bufSize) : s.WriteEffect (s.bufWrite i bs)
  | rejected (p : Port) (op : Byte) (e : ErrCode) : s.WriteEffect (({ s with port := p } : State).raise op e)
  | ran (p : Port) (i : Instr) {t : State} (run : exec i { s with port := p } = .next t) : s.WriteEffect t

theorem command_effect {p : Port} {w : Word} {s t : State} (h : command p w s = .next t) : s.WriteEffect t := by
  rcases command_cases p w s with ⟨e, -, he⟩ | ⟨i, -, hi⟩
  · cases he.symm.trans h
    exact .rejected p _ e
  · exact .ran p i (hi.symm.trans h)

theorem State.writeTarget_effect {s t : State} {tg : Target} {n : Width} {v : Word}
    (bound : ∀ i, tg = .buf i → i + n.bytes ≤ s.cfg.bufSize) (h : s.writeTarget tg n v = .next t) :
    s.WriteEffect t := by
  cases tg with
  | reserved => cases h; exact .ignored
  | digest i => cases h; exact .ignored
  | key i => cases h; exact .key _
  | buf i => cases h; exact .buf i _ (by simpa using bound i rfl)
  | reg r =>
    cases r with
    | cmd p => exact command_effect h
    | arg p k => cases h; exact .arg p k v
    | _ => cases h; exact .ignored

/-- Everything a bus access can do: only answer its master, or, with `rst` deasserted, write. -/
theorem busAccess_cases {m : Master} {a : Access} {s t : State} (h : busAccess m a s = .next t) :
    (∃ r, t = s.respond m r) ∨ (s.rst = false ∧ (s.respond m .written).WriteEffect t) := by
  unfold busAccess at h
  split at h
  next => cases h; exact .inl ⟨_, rfl⟩
  next running =>
    cases a with
    | read addr n =>
      dsimp only at h
      split at h <;> cases h <;> exact .inl ⟨_, rfl⟩
    | write addr n v =>
      dsimp only at h
      split at h
      next => cases h; exact .inl ⟨_, rfl⟩
      next tg reached =>
        refine .inr ⟨by simpa using running, State.writeTarget_effect (fun i hi => ?_) h⟩
        exact (busTarget_buf_bound (hi ▸ reached)).1

/-- Everything a step can do: nothing with no action pending, else the first action's effect. -/
theorem step_cases {s t : State} (h : step s = .next t) :
    t = s ∨ ∃ e rest, s.inbox = e :: rest ∧ deliver e { s with inbox := rest } = .next t := by
  cases hi : s.inbox with
  | nil =>
    rw [step_nil s hi] at h
    cases h
    exact .inl rfl
  | cons e rest =>
    rw [step_cons s e rest hi] at h
    exact .inr ⟨e, rest, rfl, h⟩

/-! ### What handling a DCF77 sample keeps -/

/-- A property that the single updates of the DCF77 unit keep is kept by a whole sample (R232). -/
theorem State.dcfSampleAt_keeps {P : State → Prop} (event : ∀ s e, P s → P (s.setDcfEvent e))
    (discard : ∀ s, P s → P s.discard) (edge : ∀ s lvl t, P s → P (s.edgeState lvl t))
    (append : ∀ s v, P s → P (s.appendBit v)) (analyze : ∀ s t, P s → P (s.analyze t))
    (liveness : ∀ s t, P s → P (s.liveness t)) {s : State} (lvl : Bool) (t : DWord) (h : P s) :
    P (s.dcfSampleAt lvl t) := by
  have rise (s : State) (d : DWord) (hs : P s) : P (s.rise d t) := by
    unfold State.rise
    split
    · exact event _ _ hs
    · split
      · exact event _ _ (discard _ (analyze _ t hs))
      · exact event _ _ (discard _ hs)
  have fall (s : State) (d : DWord) (hs : P s) : P (s.fall d) := by
    unfold State.fall
    split
    · exact append _ _ hs
    · split
      · exact append _ _ hs
      · exact event _ _ (discard _ hs)
  refine liveness _ t ?_
  unfold State.dcfStep
  split
  · exact event _ _ h
  · dsimp only
    split
    · exact rise _ _ (edge s lvl t h)
    · exact fall _ _ (edge s lvl t h)

end Sys2Proof.Machine

/-! The frame of every command (spec/10_state.md R41), and the link of CLK.PREV to CLK.E (R28). -/

namespace Sys2Proof.Machine

/-! ### Frames -/

/-- A clock read with its value in RES writes RES, CLK.E and CLK.PREV alone. -/
theorem State.keeps_nowRaw (s : State) (v : DWord) {ws : WriteSet} (hr : ws.res = true) (hc : ws.clk = true) :
    s.Keeps ws (s.nowRawState.setRes s.port v) where
  args _ := by simp
  other := by simp
  res h := by simp [hr] at h
  clk h := by simp [hc] at h
  off _ := by simp
  dcf _ := by simp
  sha _ := by simp
  digest _ := by simp
  key := by simp
  buf _ _ := by simp
  hwCnt := by simp
  rst := by simp
  cfg := by simp
  draws := by simp
  inbox := by simp
  reply := by simp
  port := by simp

/-- Bytes written to BUF with their number in RES write BUF and RES alone. -/
theorem State.keeps_bufWrite (s : State) (off : Nat) (bs : List Byte) (v : DWord) {ws : WriteSet} (hr : ws.res = true)
    (hb : ws.buf = true) : s.Keeps ws ((s.bufWrite off bs).setRes s.port v) where
  args _ := by simp
  other := by simp
  res h := by simp [hr] at h
  clk _ := by simp
  off _ := by simp
  dcf _ := by simp
  sha _ := by simp
  digest _ := by simp
  key := by simp
  buf h := by simp [hb] at h
  hwCnt := by simp
  rst := by simp
  cfg := by simp
  draws := by simp
  inbox := by simp
  reply := by simp
  port := by simp

/-- What changes the DCF77 unit and CLK.OFF alone keeps a frame that leaves both open. -/
theorem State.Keeps.dcfFrame {s t u : State} {ws : WriteSet} (h : s.Keeps ws t) (g : t.DcfFrame u)
    (ho : ws.off = true) (hd : ws.dcf = true) : s.Keeps ws u where
  args k := by rw [g.regs, h.args k]
  other := by rw [g.regs, h.other]
  res hr := by rw [g.regs, h.res hr]
  clk hc := by rw [g.e, g.prev]; exact h.clk hc
  off h := by simp [ho] at h
  dcf h := by simp [hd] at h
  sha hs := g.sha.trans (h.sha hs)
  digest hs := g.digest.trans (h.digest hs)
  key := g.key.trans h.key
  buf hb a := (g.bufByte a).trans (h.buf hb a)
  hwCnt := g.hwCnt.trans h.hwCnt
  rst := g.rst.trans h.rst
  cfg := g.cfg.trans h.cfg
  draws := g.draws.trans h.draws
  inbox := g.inbox.trans h.inbox
  reply := g.reply.trans h.reply
  port := g.port.trans h.port

theorem State.Completes.keeps {s u : State} {i : Instr} {m : Bool} (h : s.Completes i u m) :
    s.Keeps (writeSet i) u := by
  cases h with
  | nop => exact Keeps.refl s _
  | nowRaw => exact s.keeps_nowRaw _ rfl rfl
  | wallSeconds => exact s.keeps_nowRaw _ rfl rfl
  | dcfSampleArg lvl => exact (Keeps.refl s _).dcfFrame (s.dcfFrame_dcfSampleAt lvl _) rfl rfl
  | dcfSampleNow lvl => exact (s.keeps_nowRaw _ rfl rfl).dcfFrame (State.dcfFrame_dcfSampleAt _ lvl _) rfl rfl
  | b64Decode out range decoded => exact s.keeps_bufWrite _ out _ rfl rfl
  | shaInit => exact s.keeps_sha _ rfl
  | shaUpdate range active short => exact s.keeps_sha _ rfl
  | shaFinal active => exact s.keeps_sha_digest _ _ rfl rfl
  | hmacCompute range => exact s.keeps_sha_digest _ _ rfl rfl
  | hmacVerify tag32 range tagRange => exact s.keeps_sha _ rfl

/-- Settles O6: an error writes STATUS alone, a completion what `Completes` says and then STATUS. -/
theorem commandFrame : Obligations.CommandFrame := by
  intro i s t h
  rcases exec_cases h with ⟨e, -, rfl⟩ | ⟨u, m, hu, rfl⟩
  · exact s.keeps_raise _ _ e
  · exact hu.keeps.done _ m

/-! ### CLK.PREV[63:15] = CLK.E -/

/-- R192 returns {E', c[14:0]}, the recovery's two added half wraps included. -/
theorem nowRawValue_linked (e : BitVec 49) (prev : DWord) (c : BitVec 16) :
    (nowRawValue e prev c).2.toNat / 2 ^ 15 = (nowRawValue e prev c).1.toNat := by
  have hv := clockValue_toNat (halfWrapStep e c) c
  have he := (halfWrapStep e c).isLt
  simp only [nowRawValue]
  split
  · rw [BitVec.toNat_add, BitVec.toNat_add, hv]
    simp only [BitVec.reduceToNat]
    omega
  · dsimp only
    omega

theorem State.nowRawState_linked (s : State) :
    s.nowRawState.clk.prev.toNat / 2 ^ 15 = s.nowRawState.clk.e.toNat := nowRawValue_linked _ _ _

/-- The two spellings of R28's link. -/
theorem clock_linked_iff (prev : DWord) (e : BitVec 49) :
    prev.extractLsb' 15 49 = e ↔ prev.toNat / 2 ^ 15 = e.toNat := by
  have := prev.isLt
  rw [← BitVec.toNat_inj, BitVec.extractLsb'_toNat, Nat.shiftRight_eq_div_pow, Nat.mod_eq_of_lt (by omega)]

/-- Settles O16: what follows NowRaw() in the three commands leaves CLK.E and CLK.PREV as it wrote them. -/
theorem clockReadLinksExtension : Obligations.ClockReadLinksExtension := by
  intro i s hi
  cases i with
  | nowRaw => exact ⟨_, rfl, by simpa [State.done] using s.nowRawState_linked⟩
  | wallSeconds => exact ⟨_, rfl, by simpa [State.done] using s.nowRawState_linked⟩
  | dcfSample lvl tsrc =>
    obtain rfl : tsrc = true := hi
    have frame := (s.nowRawState.setRes s.port s.nowRawResult).dcfFrame_dcfSampleAt lvl s.nowRawResult
    refine ⟨_, rfl, ?_⟩
    simpa [State.done, frame.e, frame.prev] using s.nowRawState_linked
  | _ => cases hi

end Sys2Proof.Machine

/-! KEY is written by the bus alone and read by the HMAC commands alone (spec/10_state.md R36). -/

namespace Sys2Proof.Machine

/-- s with another key. -/
def State.withKey (s : State) (k : Vector Byte 32) : State := { s with key := k }

section
variable (s : State) (k : Vector Byte 32)

/-! ### What does not read KEY -/

@[simp] theorem State.withKey_regs (p : Port) : (s.withKey k).regs p = s.regs p := by cases p <;> rfl
theorem State.withKey_clk : (s.withKey k).clk = s.clk := rfl
theorem State.withKey_dcf : (s.withKey k).dcf = s.dcf := rfl
@[simp] theorem State.withKey_digest : (s.withKey k).digest = s.digest := rfl
@[simp] theorem State.withKey_sha : (s.withKey k).sha = s.sha := rfl
theorem State.withKey_cfg : (s.withKey k).cfg = s.cfg := rfl
theorem State.withKey_port : (s.withKey k).port = s.port := rfl
@[simp] theorem State.withKey_argNat (j : Fin 4) : (s.withKey k).argNat j = s.argNat j := by
  simp [State.argNat, State.arg, State.withKey_port]
@[simp] theorem State.withKey_argTime : (s.withKey k).argTime = s.argTime := by
  simp [State.argTime, State.arg, State.withKey_port]
@[simp] theorem State.withKey_rangeOk (off len : Nat) : (s.withKey k).rangeOk off len = s.rangeOk off len := rfl
@[simp] theorem State.withKey_bufRead (off n : Nat) : (s.withKey k).bufRead off n = s.bufRead off n := rfl
@[simp] theorem State.withKey_nowRawResult : (s.withKey k).nowRawResult = s.nowRawResult := rfl

/-! ### What commutes with a change of KEY -/

@[simp] theorem State.withKey_setRegs (p : Port) (r : PortRegs) :
    (s.withKey k).setRegs p r = (s.setRegs p r).withKey k := by cases p <;> rfl
@[simp] theorem State.withKey_setRes (p : Port) (v : DWord) :
    (s.withKey k).setRes p v = (s.setRes p v).withKey k := by simp [State.setRes]
@[simp] theorem State.withKey_done (op : Byte) (m : Bool) : (s.withKey k).done op m = (s.done op m).withKey k := by
  simp [State.done, State.setStatus, State.withKey_port]
@[simp] theorem State.withKey_raise (op : Byte) (e : ErrCode) :
    (s.withKey k).raise op e = (s.raise op e).withKey k := by simp [State.raise, State.setStatus, State.withKey_port]
@[simp] theorem State.withKey_nowRawState : (s.withKey k).nowRawState = s.nowRawState.withKey k := rfl
@[simp] theorem State.withKey_bufWrite (off : Nat) (bs : List Byte) :
    (s.withKey k).bufWrite off bs = (s.bufWrite off bs).withKey k := rfl
@[simp] theorem State.withKey_setShaDigest (c : ShaCtx) (d : Vector Byte 32) :
    ({ s.withKey k with sha := c, digest := d } : State) = ({ s with sha := c, digest := d } : State).withKey k := rfl

theorem State.withKey_analyze (t : DWord) : (s.withKey k).analyze t = (s.analyze t).withKey k := by
  simp only [State.analyze, State.withKey_cfg, State.withKey_dcf]
  split <;> rfl

theorem State.withKey_appendBit (v : Bool) : (s.withKey k).appendBit v = (s.appendBit v).withKey k := by
  by_cases full : s.dcf.count.toNat = frameBits <;>
    simp only [State.appendBit, State.withKey_dcf, full, if_true, if_false] <;> rfl

theorem State.withKey_rise (d t : DWord) : (s.withKey k).rise d t = (s.rise d t).withKey k := by
  simp only [State.rise, State.withKey_cfg, State.withKey_analyze]
  split_ifs <;> rfl

theorem State.withKey_fall (d : DWord) : (s.withKey k).fall d = (s.fall d).withKey k := by
  simp only [State.fall, State.withKey_cfg, State.withKey_appendBit]
  split_ifs <;> rfl

theorem State.withKey_dcfStep (lvl : Bool) (t : DWord) : (s.withKey k).dcfStep lvl t = (s.dcfStep lvl t).withKey k := by
  by_cases same : lvl = s.dcf.level
  · subst same
    rw [s.dcfStep_same]
    exact (s.withKey k).dcfStep_same t
  · cases lvl with
    | true =>
      have low : s.dcf.level = false := by simpa using same
      rw [s.dcfStep_rise t low, (s.withKey k).dcfStep_rise t low]
      exact (s.edgeState true t).withKey_rise k _ t
    | false =>
      have high : s.dcf.level = true := by simpa using same
      rw [s.dcfStep_fall t high, (s.withKey k).dcfStep_fall t high]
      exact (s.edgeState false t).withKey_fall k _

@[simp] theorem State.withKey_dcfSampleAt (lvl : Bool) (t : DWord) :
    (s.withKey k).dcfSampleAt lvl t = (s.dcfSampleAt lvl t).withKey k := by
  rw [State.dcfSampleAt, State.withKey_dcfStep, State.liveness_eq, State.dcfSampleAt, State.liveness_eq]
  rfl

/-! ### Reads and commands -/

/-- No target a read can name gives a byte of KEY: its own window reads 0. -/
theorem State.withKey_readTarget (tg : Target) (n : Width) : (s.withKey k).readTarget tg n = s.readTarget tg n := by
  cases tg with
  | reg r => cases r <;> simp [State.readTarget, State.readReg, State.withKey_clk, State.withKey_dcf]
  | _ => rfl

end

/-- The commands other than the two HMAC commands commute with a change of KEY. -/
theorem exec_withKey {i : Instr} {s t : State} (k : Vector Byte 32) (hc : i ≠ .hmacCompute)
    (hv : ∀ b, i ≠ .hmacVerify b) (h : exec i s = .next t) : exec i (s.withKey k) = .next (t.withKey k) := by
  cases i with
  | nop => cases h; simp [exec, execNop]
  | nowRaw => cases h; simp [exec, execNowRaw, State.withKey_port]
  | wallSeconds => cases h; simp [exec, execWallSeconds, State.withKey_clk, State.withKey_port]
  | dcfSample lvl tsrc => cases tsrc <;> cases h <;> simp [exec, execDcfSample, State.withKey_port]
  | b64Decode =>
    simp only [exec, execB64Decode] at h ⊢
    split at h
    next range => split at h <;> cases h <;> simp [*, State.withKey_port]
    next outside => cases h; simp [outside]
  | shaInit => cases h; simp [exec, execShaInit]
  | shaUpdate =>
    simp only [exec, execShaUpdate] at h ⊢
    split at h
    next range =>
      split at h
      next active => split at h <;> cases h <;> simp [*]
      next inactive => cases h; simp [range, inactive]
    next outside => cases h; simp [outside]
  | shaFinal =>
    simp only [exec, execShaFinal] at h ⊢
    split at h <;> cases h <;> simp [*]
  | hmacCompute => exact absurd rfl hc
  | hmacVerify b => exact absurd rfl (hv b)

/-- Settles O10: no read names a byte of KEY, and no other command than the HMAC commands looks at it. -/
theorem keyIsUnobservable : Obligations.KeyIsUnobservable := fun s k =>
  ⟨s.withKey_readTarget k, fun _ _ hc hv h => exec_withKey k hc hv h⟩

end Sys2Proof.Machine

/-! Bus reads and writes of the registers (spec/20_memory.md R61, R70), and the STATUS words (spec/10_state.md R25). -/

namespace Sys2Proof.Machine

/-! ### Accesses that reach a register -/

theorem busAccess_read {s : State} {c : Config} (m : Master) {addr : Nat} {n : Width} {tg : Target}
    (running : s.rst = false) (hc : s.cfg = c) (reached : busTarget c addr n = some tg) :
    busAccess m (.read addr n) s = .next (s.respond m (.data (s.readTarget tg n))) := by
  simp [busAccess, running, hc, reached]

theorem busAccess_write {s : State} (m : Master) {addr : Nat} {n : Width} (v : Word) {tg : Target}
    (running : s.rst = false) (reached : busTarget s.cfg addr n = some tg) :
    busAccess m (.write addr n v) s = (s.respond m .written).writeTarget tg n v := by
  simp [busAccess, running, reached]

/-- A 4-byte read at the offset of a register returns what the register reads as. -/
theorem busAccess_readReg {s : State} (m : Master) (off : Nat) (r : Reg) (running : s.rst = false)
    (aligned : off % 4 = 0) (mapped : regMap[off / 4]? = some r) :
    busAccess m (.read (s.cfg.base + off) .w4) s = .next (s.respond m (.data (s.readReg r))) :=
  busAccess_read m running rfl (busTarget_reg s.cfg off r aligned mapped)

/-! ### ARG -/

/-- The eight ARG registers in R70's map. -/
theorem busTarget_arg (c : Config) (p : Port) (k : Fin 4) :
    busTarget c (c.base + (if p = .p0 then 0x008 else 0x028) + 4 * k.val) .w4 = some (.reg (.arg p k)) := by
  rw [Nat.add_assoc]
  cases p <;> fin_cases k <;> exact busTarget_reg c _ _ rfl rfl

/-- Settles O48: the same offset is one ARG register for the write and for the read. -/
theorem argRegistersReadBack : Obligations.ArgRegistersReadBack := by
  intro s m p k v running addr
  have reached := busTarget_arg s.cfg p k
  refine ⟨_, busAccess_write m v running reached, ?_⟩
  have back := busAccess_read (s := (s.respond m .written).setRegs p ((s.regs p).setArg k v)) m
    (by simpa using running) (by simp) reached
  simp only [State.readTarget, State.readReg, State.setRegs_regs, PortRegs.arg_setArg] at back
  exact ⟨back, fun k' hk => by simp [PortRegs.arg_setArg_ne _ _ _ _ hk], by simp, by simp, by simp, by simp, by simp,
    by simp, by simp, by simp, fun a => by simp⟩

/-! ### The views -/

/-- R32's codes. -/
theorem eventCode_listed (e : DcfEvent) : (e, (eventCode e).toNat) ∈
    ([(.none, 0), (.gap, 1), (.minute, 2), (.riseCorrupt, 3), (.bit0, 4), (.bit1, 5), (.fallCorrupt, 6),
      (.overflow, 7)] : List (DcfEvent × Nat)) := by
  cases e <;> decide

/-- R33's codes. -/
theorem resultCode_listed (r : DcfResult) : (r, (resultCode r).toNat) ∈
    ([(.none, 0), (.ok, 1), (.badCount, 2), (.leapBit, 3), (.startMarker, 4), (.timeMarker, 5),
      (.parityMin, 6), (.parityHour, 7), (.parityDate, 8), (.bcdMin, 9), (.bcdHour, 10), (.bcdDay, 11), (.bcdDow, 12),
      (.bcdMonth, 13), (.bcdYear, 14), (.utcOffset, 15), (.century, 16)] : List (DcfResult × Nat)) := by
  cases r <;> decide

/-- R34's phase codes. -/
theorem phaseCode_listed (ph : ShaPhase) : (ph, (phaseCode ph).toNat) ∈
    ([(.idle, 0), (.active, 1), (.finalized, 2)] : List (ShaPhase × Nat)) := by
  cases ph <;> decide

/-- Concatenated fields as a sum, the low field's width being the high field's weight. -/
theorem append_toNat {a b : Nat} (x : BitVec a) (y : BitVec b) : (x ++ y).toNat = x.toNat * 2 ^ b + y.toNat := by
  rw [BitVec.toNat_append, ← Nat.shiftLeft_add_eq_or_of_lt y.isLt, Nat.shiftLeft_eq]

theorem dcfStatWord_eq (d : DcfRegs) : dcfStatWord d = BitVec.ofNat 32 (d.synced.toNat * 2 ^ 18 +
    d.syncErr.toNat * 2 ^ 17 + (resultCode d.result).toNat * 2 ^ 12 + (eventCode d.event).toNat * 2 ^ 8 +
    d.level.toNat * 2 ^ 7 + d.count.toNat) := by
  rw [← BitVec.setWidth_eq (dcfStatWord d), ← BitVec.ofNat_toNat]
  congr 1
  simp only [dcfStatWord, append_toNat, BitVec.toNat_ofBool, BitVec.toNat_ofNat]
  omega

theorem shaStatWord_eq (c : ShaCtx) :
    shaStatWord c = BitVec.ofNat 32 (c.fill.toNat * 2 ^ 8 + (phaseCode c.phase).toNat) := by
  rw [← BitVec.setWidth_eq (shaStatWord c), ← BitVec.ofNat_toNat]
  congr 1
  simp only [shaStatWord, append_toNat, BitVec.toNat_ofNat]
  omega

/-- Settles O51: each view is one register of R70's map, its word the sum of its fields. -/
theorem statusViewsReadFields : Obligations.StatusViewsReadFields := by
  intro s m running
  have dcf := busAccess_readReg m 0x044 .dcfStat running rfl rfl
  have sha := busAccess_readReg m 0x080 .shaStat running rfl rfl
  simp only [State.readReg, dcfStatWord_eq] at dcf
  simp only [State.readReg, shaStatWord_eq] at sha
  exact ⟨_, _, _, eventCode_listed _, resultCode_listed _, phaseCode_listed _, dcf, sha,
    busAccess_readReg m 0x040 .id running rfl rfl, busAccess_readReg m 0x004 (.status .p0) running rfl rfl,
    busAccess_readReg m 0x024 (.status .p1) running rfl rfl⟩

/-! ### STATUS words -/

/-- R300's codes run from 1 to 8. -/
theorem errCode_range (e : ErrCode) : 1 ≤ (errCode e).toNat ∧ (errCode e).toNat ≤ 8 := by
  cases e <;> decide

/-- Settles O12: both kinds of word are `statusWord`, whose value is the sum of its fields. -/
theorem statusWordFields : Obligations.StatusWordFields := by
  intro op e m
  refine ⟨?_, ?_, errCode_range e⟩
  · simp [statusDone, statusWord_toNat]
  · simp [statusError, statusWord_toNat]

end Sys2Proof.Machine

/-! The invariant of the machine, and what only a reset clears: both follow the cases of a step. -/

namespace Sys2Proof.Machine

/-! ### STATUS words are legal (spec/10_state.md R25, spec/60_exceptions.md R300) -/

/-- The bits outside a STATUS word's fields are 0. -/
theorem statusWord_reserved (op err : Byte) (d m ok : Bool) : statusWord op err d m ok &&& 0xFF0000F8#32 = 0#32 := by
  have fields : (0#8 ++ op ++ err ++ 0#5 ++ BitVec.ofBool d ++ BitVec.ofBool m ++ BitVec.ofBool ok) &&&
      (0xFF#8 ++ 0#8 ++ 0#8 ++ 0x1F#5 ++ 0#1 ++ 0#1 ++ 0#1) = 0 := by
    simp only [BitVec.and_append, BitVec.zero_and, BitVec.and_zero]
    rfl
  exact fields

theorem statusLegal_statusError (op : Byte) (e : ErrCode) : statusLegal (statusError op e) := by
  obtain ⟨low, high⟩ := errCode_range e
  have nonzero : errCode e ≠ 0#8 := by
    intro h
    simp [h] at low
  exact .inr (by simp [statusError, statusWord_reserved, nonzero, high])

theorem statusLegal_statusDone (op : Byte) (m : Bool) (h : m = true → op = 0x41) : statusLegal (statusDone op m) :=
  .inr (by simpa [statusDone, statusWord_reserved] using h)

/-! ### SHA-256 contexts are legal (R34) -/

theorem shaLegal_reset : shaLegal ShaCtx.reset := ⟨by decide, rfl⟩

theorem shaLegal_start : shaLegal shaStart := ⟨by decide, rfl⟩

/-- Absorbing a message that stays within R154's bound keeps FILL = NBYTES mod 64 (R144). -/
theorem shaLegal_absorb {c : ShaCtx} {bs : List Byte} (h : shaLegal c) (active : c.phase = .active)
    (short : c.nbytes.toNat + bs.length ≤ shaMaxBytes) : shaLegal (absorb c bs) := by
  obtain ⟨-, hfill⟩ := h
  rw [active] at hfill
  have hn : (absorb c bs).nbytes.toNat = c.nbytes.toNat + bs.length := by
    simp only [shaMaxBytes] at short
    simp only [absorb, BitVec.toNat_ofNat]
    omega
  have hp : (absorb c bs).phase = .active := by simp [absorb, active]
  have hf : (absorb c bs).fill.toNat = (c.fill.toNat + bs.length) % 64 := absorbBytes_fill c bs
  refine ⟨by omega, ?_⟩
  rw [hp]
  dsimp only at hfill ⊢
  omega

/-- The padding fills the last block exactly (R146, R147). -/
theorem shaLegal_finish {c : ShaCtx} (h : shaLegal c) (active : c.phase = .active) : shaLegal (shaFinish c) := by
  obtain ⟨hn, hfill⟩ := h
  rw [active] at hfill
  have hf : (shaFinish c).fill.toNat = (c.fill.toNat + (shaPad c.nbytes.toNat).length) % 64 := absorbBytes_fill c _
  refine ⟨by simpa [shaFinish] using hn, BitVec.eq_of_toNat_eq ?_⟩
  rw [hf, shaPad_length]
  dsimp only at hfill
  change _ = 0
  split <;> omega

/-! ### The DCF77 unit -/

/-- The invariant's two parts on the DCF77 unit and CLK.OFF (R239, R250). -/
structure State.DcfInv (s : State) : Prop where
  countBound : s.dcf.count.toNat ≤ 60
  unsynced : s.dcf.synced = false → s.dcf.lastOkT = 0 ∧ s.dcf.lastTs = 0 ∧ s.clk.off = 0 ∧ s.dcf.result ≠ .ok

theorem State.DcfInv.discard {s : State} (h : s.DcfInv) : s.discard.DcfInv := ⟨Nat.zero_le _, h.unsynced⟩

/-- A full frame is discarded, so a bit is appended at most at place 59 (R235). -/
theorem State.DcfInv.appendBit {s : State} (h : s.DcfInv) (v : Bool) : (s.appendBit v).DcfInv := by
  unfold State.appendBit
  split
  · exact ⟨Nat.zero_le _, h.unsynced⟩
  · have room := h.countBound
    refine ⟨?_, h.unsynced⟩
    simp only [frameBits, BitVec.toNat_add, BitVec.reduceToNat] at *
    omega

/-- A failed analysis never reports OK, a successful one sets SYNCED (R250, R251). -/
theorem State.DcfInv.analyze {s : State} (h : s.DcfInv) (t : DWord) : (s.analyze t).DcfInv := by
  unfold State.analyze
  split
  next r failed =>
    refine ⟨h.countBound, fun hs => ?_⟩
    obtain ⟨ht, hts, ho, -⟩ := h.unsynced hs
    exact ⟨ht, hts, ho, analyzeFrame_error_ne_ok failed⟩
  next ts _ => exact ⟨h.countBound, fun hs => Bool.noConfusion hs⟩

theorem State.DcfInv.liveness {s : State} (h : s.DcfInv) (t : DWord) : (s.liveness t).DcfInv := by
  rw [State.liveness_eq]
  exact ⟨h.countBound, h.unsynced⟩

theorem State.DcfInv.dcfSampleAt {s : State} (h : s.DcfInv) (lvl : Bool) (t : DWord) : (s.dcfSampleAt lvl t).DcfInv :=
  State.dcfSampleAt_keeps (fun _ _ g => ⟨g.countBound, g.unsynced⟩) (fun _ g => g.discard)
    (fun _ _ _ g => ⟨g.countBound, g.unsynced⟩) (fun _ v g => g.appendBit v) (fun _ t g => g.analyze t)
    (fun _ t g => g.liveness t) lvl t h

/-- Nothing a sample does clears SYNCED (R30). -/
theorem State.dcfSampleAt_synced {s : State} (lvl : Bool) (t : DWord) (h : s.dcf.synced = true) :
    (s.dcfSampleAt lvl t).dcf.synced = true := by
  refine State.dcfSampleAt_keeps (P := fun s => s.dcf.synced = true) (fun _ _ g => g) (fun _ g => g) (fun _ _ _ g => g)
    (fun s v g => ?_) (fun s t g => ?_) (fun s t g => ?_) lvl t h
  · unfold State.appendBit
    split <;> exact g
  · unfold State.analyze
    split
    · exact g
    · rfl
  · rw [State.liveness_eq]
    exact g

/-! ### The invariant under each update of the state -/

namespace State.Inv

variable {s : State} (h : s.Inv)

include h

theorem dcf : s.DcfInv := ⟨h.countBound, h.unsynced⟩

/-- The inputs and the model's own fields take no part in the invariant. -/
theorem setAgents (c : BitVec 16) (l : List Event) (r : Option Reply) (p : Port) :
    ({ s with hwCnt := c, inbox := l, reply := r, port := p } : State).Inv where
  bufWf := h.bufWf
  clockLinked := h.clockLinked
  countBound := h.countBound
  unsynced := h.unsynced
  shaOk := h.shaOk
  status0 := h.status0
  status1 := h.status1
  inReset hr := by
    obtain ⟨h0, h1, hclk, hdcf, hsha, hdig, hkey, hbuf⟩ := h.inReset hr
    exact ⟨h0, h1, hclk, hdcf, hsha, hdig, hkey, hbuf⟩

variable (running : s.rst = false)

include running

omit h in
/-- With `rst` deasserted the reset values are not claimed. -/
theorem not_inReset {t : State} (hr : t.rst = s.rst) : t.rst = true → t.AtReset := by simp [hr, running]

theorem setRegs (p : Port) {r : PortRegs} (legal : statusLegal r.status) : (s.setRegs p r).Inv where
  bufWf := by simpa using h.bufWf
  clockLinked := by simpa using h.clockLinked
  countBound := by simpa using h.countBound
  unsynced := by simpa using h.unsynced
  shaOk := by simpa using h.shaOk
  status0 := by
    cases p
    · exact legal
    · exact h.status0
  status1 := by
    cases p
    · exact h.status1
    · exact legal
  inReset := not_inReset running (by simp)

omit running in
theorem status (p : Port) : statusLegal (s.regs p).status := by
  cases p
  · exact h.status0
  · exact h.status1

theorem setRes (p : Port) (v : DWord) : (s.setRes p v).Inv := h.setRegs running p (h.status p)

theorem raise (op : Byte) (e : ErrCode) : (s.raise op e).Inv :=
  h.setRegs running _ (statusLegal_statusError op e)

theorem done (op : Byte) (m : Bool) (hm : m = true → op = 0x41) : (s.done op m).Inv :=
  h.setRegs running _ (statusLegal_statusDone op m hm)

theorem nowRawState : s.nowRawState.Inv where
  bufWf := h.bufWf
  clockLinked := (clock_linked_iff _ _).mpr s.nowRawState_linked
  countBound := h.countBound
  unsynced := h.unsynced
  shaOk := h.shaOk
  status0 := h.status0
  status1 := h.status1
  inReset := not_inReset running rfl

theorem bufWrite {off : Nat} {bs : List Byte} (bound : off + bs.length ≤ s.cfg.bufSize) : (s.bufWrite off bs).Inv where
  bufWf := Memory.writeBytes_wf h.bufWf bound
  clockLinked := h.clockLinked
  countBound := h.countBound
  unsynced := h.unsynced
  shaOk := h.shaOk
  status0 := h.status0
  status1 := h.status1
  inReset := not_inReset running rfl

theorem setShaDigestKey {c : ShaCtx} (d k : Vector Byte 32) (legal : shaLegal c) :
    ({ s with sha := c, digest := d, key := k } : State).Inv where
  bufWf := h.bufWf
  clockLinked := h.clockLinked
  countBound := h.countBound
  unsynced := h.unsynced
  shaOk := legal
  status0 := h.status0
  status1 := h.status1
  inReset := not_inReset running rfl

theorem dcfSampleAt (lvl : Bool) (t : DWord) : (s.dcfSampleAt lvl t).Inv where
  bufWf := by
    rw [(s.dcfFrame_dcfSampleAt lvl t).buf, (s.dcfFrame_dcfSampleAt lvl t).cfg]
    exact h.bufWf
  clockLinked := by
    rw [(s.dcfFrame_dcfSampleAt lvl t).prev, (s.dcfFrame_dcfSampleAt lvl t).e]
    exact h.clockLinked
  countBound := (h.dcf.dcfSampleAt lvl t).countBound
  unsynced := (h.dcf.dcfSampleAt lvl t).unsynced
  shaOk := by
    rw [(s.dcfFrame_dcfSampleAt lvl t).sha]
    exact h.shaOk
  status0 := by
    rw [(s.dcfFrame_dcfSampleAt lvl t).p0]
    exact h.status0
  status1 := by
    rw [(s.dcfFrame_dcfSampleAt lvl t).p1]
    exact h.status1
  inReset := not_inReset running (s.dcfFrame_dcfSampleAt lvl t).rst

end State.Inv

/-- Reset values meet the invariant (R340). -/
theorem State.AtReset.inv {s : State} (h : s.AtReset) : s.Inv where
  bufWf := by rw [h.buf]; rfl
  clockLinked := by rw [h.clk]; rfl
  countBound := by rw [h.dcf]; decide
  unsynced _ := by rw [h.dcf, h.clk]; exact ⟨rfl, rfl, rfl, by decide⟩
  shaOk := by rw [h.sha]; exact shaLegal_reset
  status0 := by rw [h.p0]; exact .inl rfl
  status1 := by rw [h.p1]; exact .inl rfl
  inReset _ := h

/-- So does the state a reset or a power cycle loads, whatever the two inputs are. -/
theorem State.inv_loadReset (s : State) (level : Bool) (c : BitVec 16) :
    ({ s.loadReset with rst := level, hwCnt := c } : State).Inv :=
  State.AtReset.inv ⟨rfl, rfl, rfl, rfl, rfl, rfl, rfl, rfl⟩

/-! ### The invariant through commands, bus accesses and steps -/

/-- What a command that completes has written before STATUS. -/
theorem State.Completes.inv {s u : State} {i : Instr} {m : Bool} (hc : s.Completes i u m) (h : s.Inv)
    (running : s.rst = false) : u.Inv := by
  have read := h.nowRawState running
  cases hc with
  | nop => exact h
  | nowRaw => exact read.setRes running _ _
  | wallSeconds => exact read.setRes running _ _
  | dcfSampleArg lvl => exact h.dcfSampleAt running lvl _
  | dcfSampleNow lvl => exact (read.setRes running _ _).dcfSampleAt (by simpa using running) lvl _
  | b64Decode out range decoded =>
    have fits := (s.rangeOk_iff _ _).mp range
    have length := base64Decode_length decoded
    rw [State.bufRead_length] at length
    exact (h.bufWrite running (by omega)).setRes running _ _
  | shaInit => exact h.setShaDigestKey running _ _ shaLegal_start
  | shaUpdate range active short =>
    exact h.setShaDigestKey running _ _ (shaLegal_absorb h.shaOk active (by simpa using short))
  | shaFinal active => exact h.setShaDigestKey running _ _ (shaLegal_finish h.shaOk active)
  | hmacCompute range => exact h.setShaDigestKey running _ _ shaLegal_reset
  | hmacVerify tag32 range tagRange => exact h.setShaDigestKey running _ _ shaLegal_reset

theorem exec_keeps_inv {i : Instr} {s t : State} (h : s.Inv) (running : s.rst = false) (he : exec i s = .next t) :
    t.Inv := by
  rcases exec_cases he with ⟨e, -, rfl⟩ | ⟨u, m, hu, rfl⟩
  · exact h.raise running _ e
  · refine (hu.inv h running).done (hu.keeps.rst.trans running) _ m fun hm => ?_
    subst hm
    exact hu.opcode_of_match

theorem State.WriteEffect.inv {s t : State} (hw : s.WriteEffect t) (h : s.Inv) (running : s.rst = false) : t.Inv := by
  cases hw with
  | ignored => exact h
  | arg p k v => exact h.setRegs running p (by simpa using h.status p)
  | key k => exact h.setShaDigestKey running _ k h.shaOk
  | buf i bs bound => exact h.bufWrite running bound
  | rejected p op e => exact (h.setAgents _ _ _ p).raise running op e
  | ran p i run => exact exec_keeps_inv (h.setAgents _ _ _ p) running run

theorem busAccess_keeps_inv {m : Master} {a : Access} {s t : State} (h : s.Inv) (hb : busAccess m a s = .next t) :
    t.Inv := by
  rcases busAccess_cases hb with ⟨r, rfl⟩ | ⟨running, hw⟩
  · exact h.setAgents _ _ _ _
  · exact hw.inv (h.setAgents _ _ _ _) running

theorem State.driveRst_keeps_inv {s : State} (h : s.Inv) (level : Bool) : (s.driveRst level).Inv := by
  rcases s.driveRst_cases level with ⟨-, hd⟩ | ⟨-, -, hd⟩ | ⟨-, -, hd⟩ <;> rw [hd]
  · exact s.inv_loadReset _ _
  · exact s.inv_loadReset _ _
  · exact h

/-- Settles O59: by the cases of a step; a power cycle and `rst` load reset values, a bus access only answers while
`rst` is asserted. -/
theorem stepKeepsInvariant : Obligations.StepKeepsInvariant := by
  intro s t h hs
  rcases step_cases hs with rfl | ⟨e, rest, -, he⟩
  · exact h
  · have hrest : ({ s with inbox := rest } : State).Inv := h.setAgents _ _ _ _
    cases e with
    | bus m a => exact busAccess_keeps_inv hrest he
    | tick => cases he; exact hrest.setAgents _ _ _ _
    | rst level => cases he; exact State.driveRst_keeps_inv hrest level
    | powerCycle => cases he; exact State.inv_loadReset _ _ _

/-! ### DONE and SYNCED -/

/-- t has every DONE bit and the SYNCED bit that s has (R25, R30). -/
structure State.Latches (s t : State) : Prop where
  done : ∀ p, statusDoneBit (s.regs p).status = true → statusDoneBit (t.regs p).status = true
  synced : s.dcf.synced = true → t.dcf.synced = true

theorem State.latches_setRegs (s : State) (p : Port) {r : PortRegs}
    (hr : statusDoneBit (s.regs p).status = true → statusDoneBit r.status = true) : s.Latches (s.setRegs p r) where
  done q hq := by
    rw [State.setRegs_regs_if]
    split
    next same => exact hr (same ▸ hq)
    next => exact hq
  synced hs := by simpa using hs

/-- Every STATUS word a command or an error writes has DONE = 1 (R97, R98). -/
theorem State.latches_setStatus (s : State) (p : Port) (op err : Byte) (m ok : Bool) :
    s.Latches (s.setStatus p (statusWord op err true m ok)) := s.latches_setRegs p fun _ => by simp

theorem State.Completes.synced {s u : State} {i : Instr} {m : Bool} (hc : s.Completes i u m)
    (h : s.dcf.synced = true) : u.dcf.synced = true := by
  cases hc with
  | dcfSampleArg lvl => exact State.dcfSampleAt_synced lvl _ h
  | dcfSampleNow lvl => exact State.dcfSampleAt_synced lvl _ (by simpa using h)
  | nop | nowRaw | wallSeconds | b64Decode | shaInit | shaUpdate | shaFinal | hmacCompute | hmacVerify =>
    simpa using h

theorem exec_latches {i : Instr} {s t : State} (he : exec i s = .next t) : s.Latches t := by
  rcases exec_cases he with ⟨e, -, rfl⟩ | ⟨u, m, hu, rfl⟩
  · exact s.latches_setStatus s.port _ _ _ _
  · refine ⟨fun p hp => ?_, fun hs => by simpa [State.done] using hu.synced hs⟩
    rcases Port.eq_or_other s.port p with rfl | rfl
    · rw [← hu.keeps.port, State.done, State.setStatus_regs]
      simp [statusDone]
    · rwa [State.done, hu.keeps.port, State.setStatus_regs_other, hu.keeps.other]

theorem State.WriteEffect.latches {s t : State} (hw : s.WriteEffect t) : s.Latches t := by
  cases hw with
  | ignored => exact ⟨fun _ h => h, id⟩
  | arg p k v => exact s.latches_setRegs p fun hd => by simpa using hd
  | key k => exact ⟨fun p h => by cases p <;> exact h, id⟩
  | buf i bs bound => exact ⟨fun p h => by simpa using h, id⟩
  | rejected p op e =>
    obtain ⟨hd, hs⟩ := State.latches_setStatus { s with port := p } p op (errCode e) false false
    exact ⟨fun q h => hd q (by cases q <;> exact h), hs⟩
  | ran p i run =>
    obtain ⟨hd, hs⟩ := exec_latches run
    exact ⟨fun q h => hd q (by cases q <;> exact h), hs⟩

theorem busAccess_latches {m : Master} {a : Access} {s t : State} (hb : busAccess m a s = .next t) : s.Latches t := by
  rcases busAccess_cases hb with ⟨r, rfl⟩ | ⟨-, hw⟩
  · exact ⟨fun p h => by simpa using h, id⟩
  · obtain ⟨hd, hs⟩ := hw.latches
    exact ⟨fun p h => hd p (by simpa using h), hs⟩

/-- Settles O56: every step but those two latches both bits. -/
theorem onlyResetClearsDoneAndSynced : Obligations.OnlyResetClearsDoneAndSynced := by
  intro s t hstep hno
  suffices h : s.Latches t from ⟨h.done, h.synced⟩
  rcases step_cases hstep with rfl | ⟨e, rest, hi, he⟩
  · exact ⟨fun _ h => h, id⟩
  · obtain ⟨hpower, hrst⟩ := hno e rest hi
    cases e with
    | bus m a =>
      obtain ⟨hd, hs⟩ := busAccess_latches he
      exact ⟨fun p h => hd p (by cases p <;> exact h), hs⟩
    | tick => cases he; exact ⟨fun p h => by cases p <;> exact h, id⟩
    | rst level => exact absurd rfl (hrst level)
    | powerCycle => exact absurd rfl hpower

end Sys2Proof.Machine

/-! The reply is read by nothing in the block: every command, and so every access, commutes with a change of it
(spec/20_memory.md R66, R72). -/

namespace Sys2Proof.Machine

/-! ### Updates outside the DCF77 unit -/

/-- `f` keeps the parameters of R7 and commutes with every update of the DCF77 unit and the clock. -/
structure OutsideDcf (f : State → State) : Prop where
  cfg : ∀ s, (f s).cfg = s.cfg
  update : ∀ (s : State) (d : DcfRegs) (c : ClockRegs),
    f { s with dcf := d, clk := c } = { f s with dcf := d, clk := c }

namespace OutsideDcf

variable {f : State → State} (h : OutsideDcf f) (s : State)
include h

theorem dcf : (f s).dcf = s.dcf := (congrArg State.dcf (h.update s s.dcf s.clk) :)

theorem clk : (f s).clk = s.clk := (congrArg State.clk (h.update s s.dcf s.clk) :)

theorem setDcf (d : DcfRegs) : { f s with dcf := d } = f { s with dcf := d } := by
  rw [h.update s d s.clk, ← h.clk s]

theorem setDcfEvent (e : DcfEvent) : (f s).setDcfEvent e = f (s.setDcfEvent e) := by
  rw [State.setDcfEvent, h.dcf, h.setDcf, State.setDcfEvent]

theorem discard : (f s).discard = f s.discard := by rw [State.discard, h.dcf, h.setDcf, State.discard]

theorem analyze (t : DWord) : (f s).analyze t = f (s.analyze t) := by
  simp only [State.analyze, h.cfg, h.dcf]
  split
  · rw [State.setDcfResult, h.dcf, h.setDcf, State.setDcfResult]
  · simp only [State.acceptFrame, State.setWallClock, h.dcf, h.clk]
    exact (h.update s _ _).symm

theorem appendBit (v : Bool) : (f s).appendBit v = f (s.appendBit v) := by
  simp only [State.appendBit, h.dcf, h.setDcf, h.discard, h.setDcfEvent, apply_ite f]

theorem rise (d t : DWord) : (f s).rise d t = f (s.rise d t) := by
  simp only [State.rise, h.cfg, h.setDcfEvent, h.analyze, h.discard, apply_ite f]

theorem fall (d : DWord) : (f s).fall d = f (s.fall d) := by
  simp only [State.fall, h.cfg, h.appendBit, h.discard, h.setDcfEvent, apply_ite f]

theorem dcfStep (lvl : Bool) (t : DWord) : (f s).dcfStep lvl t = f (s.dcfStep lvl t) := by
  simp only [State.dcfStep, h.dcf, h.setDcf, h.setDcfEvent, h.rise, h.fall, apply_ite f]

theorem liveness (t : DWord) : (f s).liveness t = f (s.liveness t) := by
  simp only [State.liveness, h.dcf, h.setDcf, apply_ite f]
  rw [h.cfg]

/-- An update outside the DCF77 unit and the clock commutes with a whole sample (R232). -/
theorem dcfSampleAt (lvl : Bool) (t : DWord) : (f s).dcfSampleAt lvl t = f (s.dcfSampleAt lvl t) := by
  rw [State.dcfSampleAt, h.dcfStep, h.liveness, State.dcfSampleAt]

end OutsideDcf

/-! ### Results up to a change of the next state -/

/-- The result with `f` applied to its next state. -/
def mapNext (f : State → State) : Result State → Result State
  | .next t => .next (f t)
  | .fault e => .fault e
  | .refused e => .refused e

@[simp] theorem mapNext_next (f : State → State) (t : State) : mapNext f (.next t) = .next (f t) := rfl

theorem mapNext_eq_next {f : State → State} {r : Result State} {t : State} :
    mapNext f r = .next t ↔ ∃ u, r = .next u ∧ f u = t := by
  cases r <;> simp [mapNext]

/-! ### What does not look at the reply -/

/-- s with another reply standing on the bus. -/
def State.withReply (s : State) (r : Option Reply) : State := { s with reply := r }

theorem State.respond_eq_withReply (s : State) (m : Master) (x : Response) :
    s.respond m x = s.withReply (some { master := m, response := x }) := rfl

theorem outsideDcf_withReply (r : Option Reply) : OutsideDcf (·.withReply r) := ⟨fun _ => rfl, fun _ _ _ => rfl⟩

section
variable (s : State) (r : Option Reply)

@[simp] theorem State.withReply_regs (p : Port) : (s.withReply r).regs p = s.regs p := by cases p <;> rfl
theorem State.withReply_port : (s.withReply r).port = s.port := rfl
@[simp] theorem State.withReply_digest : (s.withReply r).digest = s.digest := rfl
@[simp] theorem State.withReply_sha : (s.withReply r).sha = s.sha := rfl
theorem State.withReply_clk : (s.withReply r).clk = s.clk := rfl
@[simp] theorem State.withReply_argNat (k : Fin 4) : (s.withReply r).argNat k = s.argNat k := rfl
@[simp] theorem State.withReply_argTime : (s.withReply r).argTime = s.argTime := rfl
@[simp] theorem State.withReply_rangeOk (off len : Nat) : (s.withReply r).rangeOk off len = s.rangeOk off len := rfl
@[simp] theorem State.withReply_bufRead (off n : Nat) : (s.withReply r).bufRead off n = s.bufRead off n := rfl
@[simp] theorem State.withReply_tagMatches (b : Bool) : (s.withReply r).tagMatches b = s.tagMatches b := rfl
@[simp] theorem State.withReply_readTarget (tg : Target) (n : Width) :
    (s.withReply r).readTarget tg n = s.readTarget tg n := rfl

@[simp] theorem State.withReply_nowRawResult : (s.withReply r).nowRawResult = s.nowRawResult := rfl

@[simp] theorem State.withReply_nowRawState : (s.withReply r).nowRawState = s.nowRawState.withReply r := rfl
@[simp] theorem State.withReply_bufWrite (off : Nat) (bs : List Byte) :
    (s.withReply r).bufWrite off bs = (s.bufWrite off bs).withReply r := rfl
@[simp] theorem State.withReply_setShaDigest (c : ShaCtx) (d : Vector Byte 32) :
    ({ s.withReply r with sha := c, digest := d } : State) = ({ s with sha := c, digest := d } : State).withReply r := rfl
@[simp] theorem State.withReply_hmacSha256 (m : List Byte) :
    hmacSha256 (s.withReply r).key m = hmacSha256 s.key m := rfl
@[simp] theorem State.withReply_shaClobber : (s.withReply r).shaClobber = s.shaClobber.withReply r := rfl
@[simp] theorem State.withReply_setRegs (p : Port) (x : PortRegs) :
    (s.withReply r).setRegs p x = (s.setRegs p x).withReply r := by cases p <;> rfl
@[simp] theorem State.withReply_setRes (p : Port) (v : DWord) :
    (s.withReply r).setRes p v = (s.setRes p v).withReply r := s.withReply_setRegs r p _
@[simp] theorem State.withReply_done (op : Byte) (m : Bool) :
    (s.withReply r).done op m = (s.done op m).withReply r := s.withReply_setRegs r s.port _
@[simp] theorem State.withReply_raise (op : Byte) (e : ErrCode) :
    (s.withReply r).raise op e = (s.raise op e).withReply r := s.withReply_setRegs r s.port _
@[simp] theorem State.withReply_dcfSampleAt (lvl : Bool) (t : DWord) :
    (s.withReply r).dcfSampleAt lvl t = (s.dcfSampleAt lvl t).withReply r :=
  (outsideDcf_withReply r).dcfSampleAt s lvl t

/-- No command looks at the reply, nor writes it. -/
theorem exec_withReply (i : Instr) : exec i (s.withReply r) = mapNext (·.withReply r) (exec i s) := by
  cases i with
  | nop => simp [exec, execNop]
  | nowRaw => simp [exec, execNowRaw, State.withReply_port]
  | wallSeconds => simp [exec, execWallSeconds, State.withReply_port, State.withReply_clk]
  | dcfSample lvl tsrc => cases tsrc <;> simp [exec, execDcfSample, State.withReply_port]
  | b64Decode =>
    simp only [exec, execB64Decode, apply_ite (mapNext _)]
    cases hd : base64Decode (s.bufRead (s.argNat 0) (s.argNat 1)) <;> simp [hd, State.withReply_port]
  | shaInit => simp [exec, execShaInit]
  | shaUpdate => simp [exec, execShaUpdate, apply_ite (mapNext _)]
  | shaFinal => simp [exec, execShaFinal, apply_ite (mapNext _)]
  | hmacCompute => simp [exec, execHmacCompute, apply_ite (mapNext _)]
  | hmacVerify b => simp [exec, execHmacVerify, apply_ite (mapNext _)]

theorem command_withReply (p : Port) (w : Word) :
    command p w (s.withReply r) = mapNext (·.withReply r) (command p w s) := by
  unfold command
  cases decode w with
  | error e => exact congrArg _ (({ s with port := p } : State).withReply_raise r _ e)
  | ok i => exact exec_withReply { s with port := p } r i

theorem State.writeTarget_withReply (tg : Target) (n : Width) (v : Word) :
    (s.withReply r).writeTarget tg n v = mapNext (·.withReply r) (s.writeTarget tg n v) := by
  cases tg with
  | reg x =>
    cases x with
    | cmd p => exact command_withReply s r p v
    | arg p k => simp [State.writeTarget]
    | _ => rfl
  | _ => rfl

end

/-- An access has one effect and one response, whoever issues it: the master is only whom the response goes to. -/
theorem busAccess_eq (a : Access) (s : State) : ∃ (res : Result State) (r : Response), ∀ m : Master,
    busAccess m a s = mapNext (·.withReply (some { master := m, response := r })) res := by
  unfold busAccess
  split
  · exact ⟨.next s, .notAccepted, fun _ => rfl⟩
  · cases a with
    | read addr n =>
      cases hb : busTarget s.cfg addr n with
      | none => exact ⟨.next s, .busError, fun _ => by simp [hb]; rfl⟩
      | some tg => exact ⟨.next s, .data (s.readTarget tg n), fun _ => by simp [hb]; rfl⟩
    | write addr n v =>
      cases hb : busTarget s.cfg addr n with
      | none => exact ⟨.next s, .busError, fun _ => by simp [hb]; rfl⟩
      | some tg => exact ⟨s.writeTarget tg n v, .written, fun _ => by
          simp only [hb]
          exact s.writeTarget_withReply _ tg n v⟩

/-- Settles O11: the effect of an access is the same for both masters, and stands under the reply. -/
theorem mastersHaveEqualRights : Obligations.MastersHaveEqualRights := by
  intro s t m m' a h
  obtain ⟨res, r, access⟩ := busAccess_eq a s
  obtain ⟨u, hu, rfl⟩ := mapNext_eq_next.mp ((access m).symm.trans h)
  exact ⟨r, rfl, by rw [access m', hu]; rfl⟩

end Sys2Proof.Machine

/-! Bus accesses (spec/20_memory.md): what an access answers, which targets are stored to, and the windows of R62. -/

namespace Sys2Proof.Machine

/-! ### Commands always answer -/

theorem runs_ite {c : Prop} [Decidable c] {a b : Result State} (ha : runs a) (hb : runs b) :
    runs (if c then a else b) := by
  split
  · exact ha
  · exact hb

theorem exec_runs (i : Instr) (s : State) : runs (exec i s) := by
  cases i with
  | nop => exact ⟨_, rfl⟩
  | nowRaw => exact ⟨_, rfl⟩
  | wallSeconds => exact ⟨_, rfl⟩
  | dcfSample lvl tsrc => exact runs_ite ⟨_, rfl⟩ ⟨_, rfl⟩
  | b64Decode =>
    refine runs_ite ?_ ⟨_, rfl⟩
    split <;> exact ⟨_, rfl⟩
  | shaInit => exact ⟨_, rfl⟩
  | shaUpdate => exact runs_ite (runs_ite (runs_ite ⟨_, rfl⟩ ⟨_, rfl⟩) ⟨_, rfl⟩) ⟨_, rfl⟩
  | shaFinal => exact runs_ite ⟨_, rfl⟩ ⟨_, rfl⟩
  | hmacCompute => exact runs_ite ⟨_, rfl⟩ ⟨_, rfl⟩
  | hmacVerify tag32 => exact runs_ite (runs_ite ⟨_, rfl⟩ ⟨_, rfl⟩) ⟨_, rfl⟩

theorem command_runs (p : Port) (w : Word) (s : State) : runs (command p w s) := by
  rcases command_cases p w s with ⟨e, -, he⟩ | ⟨i, -, hi⟩
  · exact ⟨_, he⟩
  · exact hi ▸ exec_runs i _

theorem State.writeTarget_runs (s : State) (tg : Target) (n : Width) (v : Word) : runs (s.writeTarget tg n v) := by
  cases tg with
  | reg r =>
    cases r with
    | cmd p => exact command_runs p v s
    | _ => exact ⟨_, rfl⟩
  | _ => exact ⟨_, rfl⟩

/-! ### Accesses and their targets -/

theorem busAccess_inReset {s : State} (m : Master) (a : Access) (inReset : s.rst = true) :
    busAccess m a s = .next (s.respond m .notAccepted) := by simp [busAccess, inReset]

theorem busAccess_readError {s : State} (m : Master) {addr : Nat} {n : Width} (running : s.rst = false)
    (unreached : busTarget s.cfg addr n = none) :
    busAccess m (.read addr n) s = .next (s.respond m .busError) := by simp [busAccess, running, unreached]

theorem busAccess_writeError {s : State} (m : Master) {addr : Nat} {n : Width} (v : Word) (running : s.rst = false)
    (unreached : busTarget s.cfg addr n = none) :
    busAccess m (.write addr n v) s = .next (s.respond m .busError) := by simp [busAccess, running, unreached]

theorem busTarget_accepts {c : Config} {addr : Nat} {n : Width} {tg : Target} (h : busTarget c addr n = some tg) :
    tg.accepts n = true := by
  unfold busTarget at h
  split_ifs at h with _ _ ok
  rwa [← Option.some.inj h]

/-- A read answers from the block alone: the reply standing on the bus before it does not count (R66). -/
theorem busAccess_read_eq (s : State) (m : Master) (addr : Nat) (n : Width) : ∃ r, ∀ x,
    busAccess m (.read addr n) (s.withReply x) = .next (s.respond m r) := by
  cases inReset : s.rst with
  | true => exact ⟨.notAccepted, fun x => busAccess_inReset (s := s.withReply x) m _ inReset⟩
  | false =>
    cases reached : busTarget s.cfg addr n with
    | none => exact ⟨.busError, fun x => busAccess_readError (s := s.withReply x) m inReset reached⟩
    | some tg => exact ⟨.data (s.readTarget tg n), fun x => busAccess_read (s := s.withReply x) m inReset rfl reached⟩

theorem State.sameBlock_respond (s : State) (m : Master) (r : Response) : s.SameBlock (s.respond m r) := by
  constructor <;> intros <;> rfl

/-! ### Stores -/

/-- Of the block, t differs from s at most in ARG, KEY and BUF (R66). -/
structure State.Stores (s t : State) : Prop where
  clk : t.clk = s.clk
  dcf : t.dcf = s.dcf
  sha : t.sha = s.sha
  digest : t.digest = s.digest
  hwCnt : t.hwCnt = s.hwCnt
  rst : t.rst = s.rst
  regs : ∀ p, (t.regs p).res = (s.regs p).res ∧ (t.regs p).status = (s.regs p).status

theorem State.Stores.refl (s : State) : s.Stores s := by constructor <;> simp

theorem State.stores_respond (s : State) (m : Master) (r : Response) : s.Stores (s.respond m r) := by
  constructor <;> simp

/-- A write to any target but CMD only stores (R66). -/
theorem State.writeTarget_stores (s : State) {tg : Target} (n : Width) (v : Word) (store : ∀ p, tg ≠ .reg (.cmd p)) :
    ∃ t, s.writeTarget tg n v = .next t ∧ s.Stores t := by
  cases tg with
  | reserved => exact ⟨s, rfl, .refl s⟩
  | digest i => exact ⟨s, rfl, .refl s⟩
  | key i => exact ⟨_, rfl, rfl, rfl, rfl, rfl, rfl, rfl, fun p => by cases p <;> exact ⟨rfl, rfl⟩⟩
  | buf i => exact ⟨_, rfl, by constructor <;> simp⟩
  | reg r =>
    cases r with
    | cmd p => exact absurd rfl (store p)
    | arg p k =>
      refine ⟨_, rfl, by simp, by simp, by simp, by simp, by simp, by simp, fun q => ?_⟩
      rw [State.setRegs_regs_if]
      split
      next same => simp [same]
      next => simp
    | _ => exact ⟨s, rfl, .refl s⟩

/-- Settles O44: a read only answers; a write runs a command at CMD, and stores anywhere else. -/
theorem onlyCmdWritesHaveSideEffects : Obligations.OnlyCmdWritesHaveSideEffects := by
  intro s m addr n
  obtain ⟨r, answer⟩ := busAccess_read_eq s m addr n
  refine ⟨⟨s.respond m r, answer s.reply, s.sameBlock_respond m r, answer _⟩, fun v => ⟨fun p running reached => ?_,
    fun store => ?_⟩⟩
  · exact ⟨by simpa [Target.accepts] using busTarget_accepts reached, busAccess_write m v running reached⟩
  · suffices h : ∃ t, busAccess m (.write addr n v) s = .next t ∧ s.Stores t by
      obtain ⟨t, ht, st⟩ := h
      exact ⟨t, ht, st.clk, st.dcf, st.sha, st.digest, st.hwCnt, st.rst, st.regs⟩
    cases inReset : s.rst with
    | true => exact ⟨_, busAccess_inReset m _ inReset, s.stores_respond m _⟩
    | false =>
      cases reached : busTarget s.cfg addr n with
      | none => exact ⟨_, busAccess_writeError m v inReset reached, s.stores_respond m _⟩
      | some tg =>
        obtain ⟨t, ht, st⟩ := (s.respond m .written).writeTarget_stores n v
          (fun p hp => store p (hp ▸ reached))
        exact ⟨t, (busAccess_write m v inReset reached).trans ht, st.clk, st.dcf, st.sha, st.digest, st.hwCnt, st.rst,
          by simpa using st.regs⟩

/-! ### The map's regions -/

theorem bytes_pos (n : Width) : 0 < n.bytes := by cases n <;> decide

/-- The windows' first offsets are multiples of 4, so alignment in a window is alignment in the block. -/
theorem aligned_add (n : Width) {b i : Nat} (window : b % 4 = 0) (h : i % n.bytes = 0) : (b + i) % n.bytes = 0 := by
  cases n <;> simp only [Width.bytes] at * <;> omega

/-- Below 0x84 every word is a register (R70). -/
theorem targetAt_low (b off : Nat) (below : off < 0x84) : ∃ r, targetAt b off = .reg r := by
  obtain ⟨r, hr⟩ : ∃ r, regMap[off / 4]? = some r :=
    ⟨_, List.getElem?_eq_getElem (by rw [regMap_length]; omega)⟩
  exact ⟨r, targetAt_reg b off r hr⟩

/-- Registers take whole words only, everything from 0x84 on takes any width (R62, R63, R65). -/
theorem targetAt_accepts (b off : Nat) (n : Width) : (targetAt b off).accepts n = true ↔ (off < 0x84 → n = .w4) := by
  by_cases below : off < 0x84
  · obtain ⟨r, hr⟩ := targetAt_low b off below
    simp [hr, Target.accepts, below]
  · rw [targetAt_high _ _ (by omega)]
    simp only [below, false_implies, iff_true]
    split_ifs <;> rfl

/-- Misaligned, or narrow at a register: such an access reaches nothing (R63, R64). -/
theorem busTarget_error (c : Config) (off : Nat) (n : Width) (inWindow : off < 0x400)
    (bad : off % n.bytes ≠ 0 ∨ (off < 0x84 ∧ n ≠ .w4)) : busTarget c (c.base + off) n = none := by
  rw [busTarget_offset c off n inWindow]
  rcases bad with misaligned | ⟨below, narrow⟩
  · exact if_pos misaligned
  · rw [if_neg (show ¬ _ from fun ok => narrow ((targetAt_accepts _ _ _).mp ok below)), ite_self]

/-- Any other access of the window reaches its target. -/
theorem busTarget_reaches (c : Config) (off : Nat) (n : Width) (inWindow : off < 0x400) (aligned : off % n.bytes = 0)
    (whole : off < 0x84 → n = .w4) : busTarget c (c.base + off) n = some (targetAt c.bufSize off) := by
  rw [busTarget_offset c off n inWindow, if_neg (not_not.mpr aligned), if_pos ((targetAt_accepts _ _ _).mpr whole)]

/-- The reserved offsets of R70. -/
theorem busTarget_reserved (c : Config) (off : Nat) (n : Width) (aligned : off % n.bytes = 0) (inWindow : off < 0x400)
    (reserved : (0x84 ≤ off ∧ off < 0x100) ∨ (0x140 ≤ off ∧ off < 0x200) ∨ 0x200 + c.bufSize ≤ off) :
    busTarget c (c.base + off) n = some .reserved := by
  rw [busTarget_reaches c off n inWindow aligned (by omega), targetAt_high _ _ (by omega)]
  split_ifs <;> first | rfl | omega

/-- A byte of DIGEST takes every aligned access (R62). -/
theorem busTarget_digest (c : Config) (i : Nat) (n : Width) (aligned : (0x100 + i) % n.bytes = 0) (inside : i < 32) :
    busTarget c (c.base + (0x100 + i)) n = some (.digest i) := by
  rw [busTarget_reaches c _ n (by omega) aligned (by omega), targetAt_high _ _ (by omega), if_neg (by omega),
    if_pos (by omega), Nat.add_sub_cancel_left]

/-- A byte of KEY takes every aligned access (R62). -/
theorem busTarget_key (c : Config) (i : Nat) (n : Width) (aligned : (0x120 + i) % n.bytes = 0) (inside : i < 32) :
    busTarget c (c.base + (0x120 + i)) n = some (.key i) := by
  rw [busTarget_reaches c _ n (by omega) aligned (by omega), targetAt_high _ _ (by omega), if_neg (by omega),
    if_neg (by omega), if_pos (by omega), Nat.add_sub_cancel_left]

/-- Settles O45: the error cases reach no target, and every target answers. -/
theorem busErrorsChangeNothing : Obligations.BusErrorsChangeNothing := by
  intro s m off n v running inWindow
  refine ⟨fun bad => ?_, fun aligned _ above below => ?_, fun aligned whole => ?_⟩
  · have unreached := busTarget_error s.cfg off n inWindow bad
    exact ⟨busAccess_readError m running unreached, busAccess_writeError m v running unreached⟩
  · have reached := busTarget_reserved s.cfg off n aligned inWindow (.inl ⟨above, below⟩)
    exact ⟨busAccess_read m running rfl reached, busAccess_write m v running reached⟩
  · have reached := busTarget_reaches s.cfg off n inWindow aligned whole
    obtain ⟨t, ht⟩ := s.writeTarget_runs (targetAt s.cfg.bufSize off) n v
    have write := busAccess_write m v running reached
    rw [State.respond_eq_withReply, State.writeTarget_withReply, ht] at write
    exact ⟨⟨_, busAccess_read m running rfl reached⟩, _, write, rfl⟩

/-! ### Read-only registers -/

/-- The registers that a write leaves alone: all but CMD and ARG (R70). -/
def Reg.readOnly : Reg → Bool
  | .cmd _ | .arg _ _ => false
  | _ => true

theorem State.writeTarget_readOnly (s : State) {r : Reg} (n : Width) (v : Word) (h : r.readOnly = true) :
    s.writeTarget (.reg r) n v = .next s := by
  cases r with
  | cmd p => cases h
  | arg p k => cases h
  | _ => rfl

/-- The words of the read-only registers in R70's map. -/
theorem regMap_readOnly : ∀ k < 33, k = 1 ∨ k = 9 ∨ (6 ≤ k ∧ k < 8) ∨ 14 ≤ k →
    (regMap[k]?).any Reg.readOnly = true := by decide

/-- Settles O49: each offset's target, and that the target is not written or reads 0. -/
theorem reservedAndReadOnlyOffsets : Obligations.ReservedAndReadOnlyOffsets := by
  intro s m off n v running aligned inWindow
  refine ⟨fun reserved => ?_, fun whole readOnly => ?_, fun low high => ?_, fun writeOnly => ?_⟩
  · have reached := busTarget_reserved s.cfg off n aligned inWindow reserved
    exact ⟨busAccess_read m running rfl reached, busAccess_write m v running reached⟩
  · subst whole
    have word : off % 4 = 0 := aligned
    obtain ⟨r, mapped, unwritten⟩ := Option.any_eq_true _ _ |>.mp (regMap_readOnly (off / 4) (by omega) (by omega))
    rw [busAccess_write m v running (busTarget_reg s.cfg off r word mapped)]
    exact State.writeTarget_readOnly _ _ _ unwritten
  · obtain ⟨i, rfl⟩ := Nat.exists_eq_add_of_le low
    exact busAccess_write m v running (busTarget_digest s.cfg i n aligned (by omega))
  · rcases writeOnly with ⟨rfl, rfl | rfl⟩ | ⟨low, high⟩
    · exact busAccess_readReg m 0x00 (.cmd .p0) running rfl rfl
    · exact busAccess_readReg m 0x20 (.cmd .p1) running rfl rfl
    · obtain ⟨i, rfl⟩ := Nat.exists_eq_add_of_le low
      exact busAccess_read m running rfl (busTarget_key s.cfg i n aligned (by omega))

/-! ### The bytes of the windows -/

theorem wordByte_eq (v : Word) (j : Nat) : wordByte v j = BitVec.ofNat 8 (v.toNat / 2 ^ (8 * j)) := by
  apply BitVec.eq_of_toNat_eq
  rw [wordByte_toNat, BitVec.toNat_ofNat]

theorem leNat_lt (bs : List Byte) : leNat bs < 256 ^ bs.length := by
  induction bs with
  | nil => decide
  | cons b bs ih =>
    have := b.isLt
    rw [leNat, List.length_cons, Nat.pow_succ]
    omega

/-- Bytes in address order are the digits of their number to the base 256 (R61). -/
theorem leNat_eq_sum (f : Nat → Byte) (n : Nat) :
    leNat ((List.range n).map f) = ((List.range n).map fun j => (f j).toNat * 2 ^ (8 * j)).sum := by
  induction n generalizing f with
  | zero => rfl
  | succ n ih =>
    have shift (j : Nat) : (f (j + 1)).toNat * 2 ^ (8 * (j + 1)) = 256 * ((f (j + 1)).toNat * 2 ^ (8 * j)) := by
      rw [Nat.mul_add, Nat.pow_add]
      ring
    have tail := ih (fun j => f (j + 1))
    simp only [List.range_succ_eq_map, List.map_cons, List.map_map, Function.comp_def, leNat, List.sum_cons,
      Nat.succ_eq_add_one, shift, List.sum_map_mul_left, tail, Nat.mul_zero, Nat.pow_zero, Nat.mul_one]

/-- An access of up to four bytes carries them all. -/
theorem leWord_toNat (f : Nat → Byte) (n : Width) : (leWord ((List.range n.bytes).map f)).toNat =
    ((List.range n.bytes).map fun j => (f j).toNat * 2 ^ (8 * j)).sum := by
  have bound := leNat_lt ((List.range n.bytes).map f)
  have fits : 256 ^ n.bytes ≤ 2 ^ 32 := by cases n <;> decide
  rw [List.length_map, List.length_range] at bound
  rw [leWord, BitVec.toNat_ofNat, Nat.mod_eq_of_lt (by omega), leNat_eq_sum]

/-- Settles O46: the write stores the word's bytes, and a read is the sum of the bytes it covers. -/
theorem bufWordThenBytes : Obligations.BufWordThenBytes := by
  intro s m i n v running aligned inside
  refine ⟨(s.respond m .written).bufWrite i (busBytes v n.bytes),
    busAccess_write m v running (busTarget_buf s.cfg i n aligned (by have := bytes_pos n; omega)), fun a => ?_,
    ⟨rfl, rfl, rfl, rfl, rfl, rfl, rfl, rfl⟩, fun r a aligned' => ⟨fun inBuf => ?_, fun inDigest => ?_⟩⟩
  · rw [State.bufByte_bufWrite, busBytes_length]
    split
    next covered =>
      rw [busBytes_getD _ _ _ (by omega), wordByte_eq]
      apply BitVec.eq_of_toNat_eq
      simp
    next => rfl
  · have reached := busTarget_buf s.cfg a r aligned' (by have := bytes_pos r; omega)
    exact ⟨_, busAccess_read m running rfl reached, leWord_toNat _ r⟩
  · have reached := busTarget_digest s.cfg a r (aligned_add r rfl aligned') (by have := bytes_pos r; omega)
    rw [Nat.add_assoc]
    exact ⟨_, busAccess_read m running rfl reached, leWord_toNat _ r⟩

/-- Settles O47: the write stores the word's bytes into KEY, and KEY's window reads 0. -/
theorem keyWindowIsWriteOnly : Obligations.KeyWindowIsWriteOnly := by
  intro s m i n v running aligned inside
  have pos := bytes_pos n
  have reached := busTarget_key s.cfg i n (aligned_add n rfl aligned) (by omega)
  rw [Nat.add_assoc]
  refine ⟨busAccess_read m running rfl reached, keyWrite s.key i (busBytes v n.bytes),
    busAccess_write m v running reached, fun a ha => ?_⟩
  rw [keyWrite_getD _ _ _ _ ha, busBytes_length]
  split
  next covered => rw [busBytes_getD _ _ _ (by omega), wordByte_eq]
  next => rfl

/-! ### Register pairs -/

theorem lo32_eq (v : DWord) : lo32 v = BitVec.ofNat 32 (v.toNat % 2 ^ 32) := by
  rw [← lo32_toNat, BitVec.ofNat_toNat, BitVec.setWidth_eq]

theorem hi32_eq (v : DWord) : hi32 v = BitVec.ofNat 32 (v.toNat / 2 ^ 32) := by
  rw [← hi32_toNat, BitVec.ofNat_toNat, BitVec.setWidth_eq]

/-- The LO word of an element narrower than its pair (R70). -/
theorem lo32_setWidth {w : Nat} (x : BitVec w) : x.extractLsb' 0 32 = lo32 (x.setWidth 64) := by
  apply BitVec.eq_of_toNat_eq
  rw [lo32_toNat, BitVec.toNat_setWidth, BitVec.extractLsb'_toNat, Nat.shiftRight_zero]
  omega

/-- The HI word of an element narrower than its pair, zero-extended (R70). -/
theorem hi32_setWidth {k : Nat} (x : BitVec (32 + k)) (narrow : k ≤ 32) :
    (x.extractLsb' 32 k).setWidth 32 = hi32 (x.setWidth 64) := by
  have bound : x.toNat / 2 ^ 32 < 2 ^ k := Nat.div_lt_of_lt_mul (Nat.pow_add 2 32 k ▸ x.isLt)
  have half : 2 ^ k ≤ 2 ^ 32 := Nat.pow_le_pow_right (by decide) narrow
  apply BitVec.eq_of_toNat_eq
  rw [hi32_toNat, BitVec.toNat_setWidth, BitVec.toNat_setWidth, BitVec.extractLsb'_toNat, Nat.shiftRight_eq_div_pow,
    Nat.mod_eq_of_lt bound]
  omega

/-- Two words at neighbouring offsets that hold the halves of a 64-bit value (R61). -/
theorem busAccess_readPair {s : State} (m : Master) (off : Nat) (lo hi : Reg) (x : DWord) (running : s.rst = false)
    (aligned : off % 4 = 0) (mappedLo : regMap[off / 4]? = some lo) (mappedHi : regMap[(off + 4) / 4]? = some hi)
    (hlo : s.readReg lo = lo32 x) (hhi : s.readReg hi = hi32 x) :
    busAccess m (.read (s.cfg.base + off) .w4) s =
      .next (s.respond m (.data (BitVec.ofNat 32 (x.toNat % 2 ^ 32)))) ∧
    busAccess m (.read (s.cfg.base + off + 4) .w4) s =
      .next (s.respond m (.data (BitVec.ofNat 32 (x.toNat / 2 ^ 32)))) := by
  rw [Nat.add_assoc, ← lo32_eq, ← hi32_eq, ← hlo, ← hhi]
  exact ⟨busAccess_readReg m off lo running aligned mappedLo,
    busAccess_readReg m (off + 4) hi running (by omega) mappedHi⟩

/-- Settles O50: each pair is two neighbouring registers of R70's map, reading the halves of its element. -/
theorem registerPairsReadWhole : Obligations.RegisterPairsReadWhole := by
  intro s m running
  simp only [List.forall_mem_cons, List.not_mem_nil, false_implies, implies_true, and_true]
  refine ⟨?_, ?_, ?_, ?_, ?_, ?_, ?_, ?_, ?_⟩
  · exact busAccess_readPair m 0x018 (.resLo .p0) (.resHi .p0) _ running rfl rfl rfl rfl rfl
  · exact busAccess_readPair m 0x038 (.resLo .p1) (.resHi .p1) _ running rfl rfl rfl rfl rfl
  · exact busAccess_readPair m 0x048 .dcfBitsLo .dcfBitsHi _ running rfl rfl rfl (lo32_setWidth _)
      (hi32_setWidth _ (by decide))
  · exact busAccess_readPair m 0x050 .dcfEdgeLo .dcfEdgeHi _ running rfl rfl rfl rfl rfl
  · exact busAccess_readPair m 0x058 .dcfOkLo .dcfOkHi _ running rfl rfl rfl rfl rfl
  · exact busAccess_readPair m 0x060 .dcfTsLo .dcfTsHi _ running rfl rfl rfl rfl rfl
  · exact busAccess_readPair m 0x068 .clkExtLo .clkExtHi _ running rfl rfl rfl (lo32_setWidth _)
      (hi32_setWidth _ (by decide))
  · exact busAccess_readPair m 0x070 .clkPrevLo .clkPrevHi _ running rfl rfl rfl rfl rfl
  · exact busAccess_readPair m 0x078 .clkOffLo .clkOffHi _ running rfl rfl rfl rfl rfl

/-! ### The Timebase -/

/-- Settles O20: the tick is taken from the inbox and counted. -/
theorem tickAdvancesCounter : Obligations.TickAdvancesCounter := by
  intro s rest pending
  have count : s.hwCnt + 1 = BitVec.ofNat 16 (s.hwCnt.toNat + 1) := by
    apply BitVec.eq_of_toNat_eq
    simp [BitVec.toNat_add]
  rw [step_cons s .tick rest pending, ← count]
  rfl

end Sys2Proof.Machine

/-! Decoding and encoding of command words (spec/30_encoding.md R90 to R103), and the step that runs one. -/

namespace Sys2Proof.Machine

/-! ### A word by its fields -/

theorem word_eq_iff (w v : Word) :
    w = v ↔ fieldOp w = fieldOp v ∧ fieldF0 w = fieldF0 v ∧ fieldF1 w = fieldF1 v ∧ fieldRsv w = fieldRsv v := by
  constructor
  · rintro rfl
    simp
  · rintro ⟨op, f0, f1, rsv⟩
    rw [word_fields w, word_fields v, op, f0, f1, rsv]

theorem toNat_decide_odd (n : Nat) : (decide (n % 2 = 1)).toNat = n % 2 := by
  rcases Nat.mod_two_eq_zero_or_one n with h | h <;> simp [h]

theorem word_toNat_fields (w : Word) : w.toNat =
    (fieldOp w).toNat + 256 * (fieldF0 w).toNat + 512 * (fieldF1 w).toNat + 1024 * (fieldRsv w).toNat := by
  rw [fieldOp_toNat, fieldRsv_toNat, fieldF0_eq, fieldF1_eq, toNat_decide_odd, toNat_decide_odd]
  omega

@[simp] theorem fieldOp_and (w v : Word) : fieldOp (w &&& v) = fieldOp w &&& fieldOp v := BitVec.extractLsb'_and
@[simp] theorem fieldRsv_and (w v : Word) : fieldRsv (w &&& v) = fieldRsv w &&& fieldRsv v := BitVec.extractLsb'_and
@[simp] theorem fieldF0_and (w v : Word) : fieldF0 (w &&& v) = (fieldF0 w && fieldF0 v) := BitVec.getLsbD_and
@[simp] theorem fieldF1_and (w v : Word) : fieldF1 (w &&& v) = (fieldF1 w && fieldF1 v) := BitVec.getLsbD_and

/-! ### Opcodes and the flags they use (R93, R100) -/

/-- Opcodes that use F0: DCF_SAMPLE and HMAC_VERIFY. -/
def usesF0 (op : Byte) : Bool := op == 0x10 || op == 0x41
/-- Opcodes that use F1: DCF_SAMPLE. -/
def usesF1 (op : Byte) : Bool := op == 0x10

theorem flagsBad_eq_false_iff (w : Word) : flagsBad w = false ↔
    (fieldF0 w && !usesF0 (fieldOp w)) = false ∧ (fieldF1 w && !usesF1 (fieldOp w)) = false ∧ fieldRsv w = 0 := by
  simp only [flagsBad, usesF0, usesF1, Bool.or_eq_false_iff, bne_eq_false_iff_eq]
  tauto

/-- A command holds no flag that its opcode does not use. -/
theorem flags_used (i : Instr) :
    (flag0 i && !usesF0 (opcode i)) = false ∧ (flag1 i && !usesF1 (opcode i)) = false := by
  cases i <;> simp [flag0, flag1, usesF0, usesF1, opcode]

theorem and_used {flag used : Bool} (h : (flag && !used) = false) : (flag && used) = flag := by
  revert flag used
  decide

theorem mem_legalOps_iff (op : Byte) : op ∈ legalOps ↔ ∃ i, opcode i = op := by
  constructor
  · intro legal
    simp only [legalOps, List.mem_cons, List.not_mem_nil, or_false] at legal
    rcases legal with rfl | rfl | rfl | rfl | rfl | rfl | rfl | rfl | rfl | rfl
    · exact ⟨.nop, rfl⟩
    · exact ⟨.nowRaw, rfl⟩
    · exact ⟨.wallSeconds, rfl⟩
    · exact ⟨.dcfSample false false, rfl⟩
    · exact ⟨.b64Decode, rfl⟩
    · exact ⟨.shaInit, rfl⟩
    · exact ⟨.shaUpdate, rfl⟩
    · exact ⟨.shaFinal, rfl⟩
    · exact ⟨.hmacCompute, rfl⟩
    · exact ⟨.hmacVerify false, rfl⟩
  · rintro ⟨i, rfl⟩
    cases i <;> simp [legalOps, opcode]

/-- The opcode map gives the command of that opcode, with the flags it uses (R93). -/
theorem opcodeMap_eq_some_iff (op : Byte) (f0 f1 : Bool) (i : Instr) : opcodeMap op f0 f1 = some i ↔
    op = opcode i ∧ (f0 && usesF0 op) = flag0 i ∧ (f1 && usesF1 op) = flag1 i := by
  constructor
  · intro h
    have byte (n : Nat) (hn : op.toNat = n) : op = BitVec.ofNat 8 n := by
      rw [← hn, BitVec.ofNat_toNat, BitVec.setWidth_eq]
    unfold opcodeMap at h
    split at h <;> cases h <;> (next hn => rw [byte _ hn]; simp [opcode, usesF0, usesF1, flag0, flag1])
  · rintro ⟨rfl, h0, h1⟩
    cases i <;> simp_all [opcodeMap, opcode, usesF0, usesF1, flag0, flag1]

theorem exists_opcodeMap_iff (op : Byte) (f0 f1 : Bool) : (∃ i, opcodeMap op f0 f1 = some i) ↔ op ∈ legalOps := by
  rw [mem_legalOps_iff]
  constructor
  · rintro ⟨i, h⟩
    exact ⟨i, ((opcodeMap_eq_some_iff op f0 f1 i).mp h).1.symm⟩
  · rintro ⟨i, rfl⟩
    cases i <;> exact ⟨_, rfl⟩

/-! ### The decoder, case by case (R90) -/

/-- R99: the opcode is looked up before the flags are. -/
theorem decode_illegalOp {w : Word} (illegal : fieldOp w ∉ legalOps) : decode w = .error .illegalOp := by
  unfold decode
  cases h : opcodeMap (fieldOp w) (fieldF0 w) (fieldF1 w) with
  | none => rfl
  | some i => exact absurd ((exists_opcodeMap_iff _ _ _).mp ⟨i, h⟩) illegal

/-- R100. -/
theorem decode_badFlags {w : Word} (legal : fieldOp w ∈ legalOps) (bad : flagsBad w = true) :
    decode w = .error .badFlags := by
  obtain ⟨i, hi⟩ := (exists_opcodeMap_iff _ (fieldF0 w) (fieldF1 w)).mpr legal
  simp [decode, hi, bad]

theorem decode_eq_ok_iff (w : Word) (i : Instr) : decode w = .ok i ↔
    opcodeMap (fieldOp w) (fieldF0 w) (fieldF1 w) = some i ∧ flagsBad w = false := by
  unfold decode
  cases opcodeMap (fieldOp w) (fieldF0 w) (fieldF1 w) <;> cases flagsBad w <;> simp

/-- The words that are commands: a legal opcode, and no flag or reserved bit set that it does not use. -/
theorem exists_decode_iff (w : Word) : (∃ i, decode w = .ok i) ↔ fieldOp w ∈ legalOps ∧ flagsBad w = false := by
  simp only [decode_eq_ok_iff, exists_and_right, exists_opcodeMap_iff]

theorem opcode_of_decode {w : Word} {i : Instr} (h : decode w = .ok i) : opcode i = fieldOp w := by
  obtain ⟨mapped, -⟩ := (decode_eq_ok_iff w i).mp h
  exact ((opcodeMap_eq_some_iff _ _ _ i).mp mapped).1.symm

/-- A word is a command exactly when its fields are the command's and its reserved bits are 0. -/
theorem decode_eq_ok_iff_fields (w : Word) (i : Instr) : decode w = .ok i ↔
    fieldOp w = opcode i ∧ fieldF0 w = flag0 i ∧ fieldF1 w = flag1 i ∧ fieldRsv w = 0 := by
  rw [decode_eq_ok_iff, opcodeMap_eq_some_iff, flagsBad_eq_false_iff]
  obtain ⟨used0, used1⟩ := flags_used i
  constructor
  · rintro ⟨⟨op, f0, f1⟩, unused0, unused1, rsv⟩
    exact ⟨op, (and_used unused0).symm.trans f0, (and_used unused1).symm.trans f1, rsv⟩
  · rintro ⟨op, f0, f1, rsv⟩
    rw [op, f0, f1]
    exact ⟨⟨rfl, and_used used0, and_used used1⟩, used0, used1, rsv⟩

/-! ### The encoder and the table's rows (R103) -/

@[simp] theorem fieldF0_encode (i : Instr) : fieldF0 (encode i) = flag0 i := by
  rw [fieldF0, encode, BitVec.getLsbD_append, BitVec.getLsbD_append]
  simp
@[simp] theorem fieldF1_encode (i : Instr) : fieldF1 (encode i) = flag1 i := by
  rw [fieldF1, encode, BitVec.getLsbD_append, BitVec.getLsbD_append, BitVec.getLsbD_append]
  simp

/-- The family `TableRow` as one lemma. -/
theorem tableRow (i : Instr) : Laws.TableRow.Statement i :=
  match i with
  | .nop => Laws.TableRow.nop
  | .nowRaw => Laws.TableRow.nowRaw
  | .wallSeconds => Laws.TableRow.wallSeconds
  | .dcfSample lvl tsrc => Laws.TableRow.dcfSample lvl tsrc
  | .b64Decode => Laws.TableRow.b64Decode
  | .shaInit => Laws.TableRow.shaInit
  | .shaUpdate => Laws.TableRow.shaUpdate
  | .shaFinal => Laws.TableRow.shaFinal
  | .hmacCompute => Laws.TableRow.hmacCompute
  | .hmacVerify tag32 => Laws.TableRow.hmacVerify tag32

@[simp] theorem fieldOp_encode (i : Instr) : fieldOp (encode i) = opcode i := by
  obtain ⟨-, op, -⟩ := tableRow i
  exact op
@[simp] theorem fieldRsv_encode (i : Instr) : fieldRsv (encode i) = 0 := by
  obtain ⟨-, -, rsv⟩ := tableRow i
  exact rsv

theorem ofNat_toNat_mod (w : Word) : BitVec.ofNat 32 (w.toNat % 2 ^ 32) = w := by
  rw [Nat.mod_eq_of_lt w.isLt, BitVec.ofNat_toNat, BitVec.setWidth_eq]

theorem decode_eq_ok_iff_encode (w : Word) (i : Instr) : decode w = .ok i ↔ w = encode i := by
  rw [decode_eq_ok_iff_fields, word_eq_iff, fieldOp_encode, fieldF0_encode, fieldF1_encode, fieldRsv_encode]

@[simp] theorem decode_encode (i : Instr) : decode (encode i) = .ok i := (decode_eq_ok_iff_encode _ i).mpr rfl

/-- The four bytes of a word, read back as a word. -/
theorem decodeTableWord_toNat (w : Word) : decodeTableWord 32 w.toNat = (decode w).toOption := by
  have bytes : decodeBytes [wordByte w 0, wordByte w 1, wordByte w 2, wordByte w 3] = decode w :=
    congrArg decode (leWord_busBytes w)
  simp only [decodeTableWord, ofNat_toNat_mod, bytes]
  cases decode w <;> rfl

/-- Settles O1: a word is its four fields, and the decoder fixes all four. -/
theorem decodeExactlyEncodings : Obligations.DecodeExactlyEncodings :=
  ⟨decode_eq_ok_iff_encode, fun i _ => by rw [decodeTableWord_toNat, decode_encode]; rfl⟩

/-- A row's match holds the opcode alone. -/
theorem rowMatch_fields (i : Instr) : fieldOp (rowMatch i) = opcode i ∧ fieldF0 (rowMatch i) = false ∧
    fieldF1 (rowMatch i) = false ∧ fieldRsv (rowMatch i) = 0 := by
  cases i <;> simp only [rowMatch, opcode] <;> decide

/-- A row's mask leaves out the flags its opcode uses. -/
theorem rowMask_fields (i : Instr) : fieldOp (rowMask i) = BitVec.allOnes 8 ∧
    fieldF0 (rowMask i) = !usesF0 (opcode i) ∧ fieldF1 (rowMask i) = !usesF1 (opcode i) ∧
    fieldRsv (rowMask i) = BitVec.allOnes 22 := by
  cases i <;> simp only [rowMask, opcode] <;> decide

/-- A word matches a row exactly when it has the row's opcode and passes the flag test of R100. -/
theorem and_rowMask_eq_iff (w : Word) (i : Instr) :
    w &&& rowMask i = rowMatch i ↔ fieldOp w = opcode i ∧ flagsBad w = false := by
  obtain ⟨matchOp, matchF0, matchF1, matchRsv⟩ := rowMatch_fields i
  obtain ⟨maskOp, maskF0, maskF1, maskRsv⟩ := rowMask_fields i
  rw [word_eq_iff, fieldOp_and, fieldF0_and, fieldF1_and, fieldRsv_and, matchOp, matchF0, matchF1, matchRsv, maskOp,
    maskF0, maskF1, maskRsv, BitVec.and_allOnes, BitVec.and_allOnes, flagsBad_eq_false_iff]
  exact and_congr_right fun op => by rw [op]

theorem encode_toNat (i : Instr) :
    (encode i).toNat = (rowMatch i).toNat + 256 * (flag0 i).toNat + 512 * (flag1 i).toNat := by
  obtain ⟨op, f0, f1, rsv⟩ := rowMatch_fields i
  rw [word_toNat_fields (encode i), word_toNat_fields (rowMatch i), op, f0, f1, rsv, fieldOp_encode, fieldF0_encode,
    fieldF1_encode, fieldRsv_encode]
  simp

/-! ### Words written to CMD (R90, R97) -/

theorem command_of_decode {w : Word} {i : Instr} (p : Port) (s : State) (h : decode w = .ok i) :
    command p w s = exec i { s with port := p } := by
  simp only [command, h]

theorem command_of_error {w : Word} {e : ErrCode} (p : Port) (s : State) (h : decode w = .error e) :
    command p w s = .next (({ s with port := p } : State).setStatus p (statusError (fieldOp w) e)) := by
  simp only [command, h]
  rfl

/-- Settles O2: each clause through the opcode and the flag test that a row's match and mask come to. -/
theorem tableRowsPartitionWords : Obligations.TableRowsPartitionWords := by
  refine ⟨encode_toNat, fun w => ⟨fun i => ⟨fun row => ?_, ?_⟩, fun i j rowI rowJ => ?_, fun unmatched p s => ?_⟩⟩
  · obtain ⟨op, good⟩ := (and_rowMask_eq_iff w i).mp row
    obtain ⟨j, hj⟩ := (exists_decode_iff w).mpr ⟨(mem_legalOps_iff _).mpr ⟨i, op.symm⟩, good⟩
    exact ⟨j, hj, (opcode_of_decode hj).trans op⟩
  · rintro ⟨j, hj, op⟩
    obtain ⟨-, good⟩ := (exists_decode_iff w).mp ⟨j, hj⟩
    exact (and_rowMask_eq_iff w i).mpr ⟨(opcode_of_decode hj).symm.trans op, good⟩
  · obtain ⟨opI, -⟩ := (and_rowMask_eq_iff w i).mp rowI
    obtain ⟨opJ, -⟩ := (and_rowMask_eq_iff w j).mp rowJ
    exact opI.symm.trans opJ
  · by_cases legal : fieldOp w ∈ legalOps
    · obtain ⟨i, op⟩ := (mem_legalOps_iff _).mp legal
      have bad : flagsBad w = true := by
        by_contra good
        exact unmatched i ((and_rowMask_eq_iff w i).mpr ⟨op.symm, by simpa using good⟩)
      rw [if_pos legal, command_of_error p s (decode_badFlags legal bad)]
    · rw [if_neg legal, command_of_error p s (decode_illegalOp legal)]

/-- Settles O3: each sample is the encoding of its command. -/
theorem sampleWordsDecode : Obligations.SampleWordsDecode :=
  ⟨decode_encode .nop, decode_encode .nowRaw, decode_encode (.dcfSample true true),
    decode_encode (.dcfSample false true), decode_encode .b64Decode, decode_encode .shaUpdate,
    decode_encode (.hmacVerify true)⟩

/-- A CMD write taken from the inbox is the command on its port, in the state `State.taken`. -/
theorem step_cmdWrite {s : State} {m : Master} {p : Port} {w : Word} {rest : List Event} (running : s.rst = false)
    (pending : s.inbox = cmdWrite s.cfg m p w :: rest) :
    step s = command p w (({ s with inbox := rest } : State).respond m .written) :=
  (step_cons s _ rest pending).trans (deliver_cmdWrite { s with inbox := rest } m p w running s.cfg rfl)

theorem step_of_decode {s : State} {m : Master} {p : Port} {w : Word} {i : Instr} {rest : List Event}
    (running : s.rst = false) (pending : s.inbox = cmdWrite s.cfg m p w :: rest) (h : decode w = .ok i) :
    step s = exec i (s.taken m p rest) := (step_cmdWrite running pending).trans (command_of_decode p _ h)

theorem step_of_error {s : State} {m : Master} {p : Port} {w : Word} {e : ErrCode} {rest : List Event}
    (running : s.rst = false) (pending : s.inbox = cmdWrite s.cfg m p w :: rest) (h : decode w = .error e) :
    step s = .next ((s.taken m p rest).setStatus p (statusError (fieldOp w) e)) :=
  (step_cmdWrite running pending).trans (command_of_error p _ h)

/-- Settles O4: the CMD write is the command; `withFetchWord` puts the encoding's write first. -/
theorem stepRunsDecodedCommand : Obligations.StepRunsDecodedCommand := by
  refine ⟨fun s m p w i rest => step_of_decode, fun s i => ?_⟩
  exact step_of_decode (s := s.withFetchWord 32 (encode i).toNat) rfl rfl (by rw [ofNat_toNat_mod, decode_encode])

/-! ### Rejected words over the naturals (R99, R100) -/

theorem fieldOp_mem_legalOps_iff (w : Word) : fieldOp w ∈ legalOps ↔
    w.toNat % 256 ∈ [0x00, 0x01, 0x02, 0x10, 0x20, 0x30, 0x31, 0x32, 0x40, 0x41] := by
  rw [← fieldOp_toNat, ← List.mem_map_of_injective BitVec.toNat_injective]
  rfl

/-- The flag test: a reserved bit, an unused F0, or an unused F1. -/
theorem flagsBad_iff (w : Word) : flagsBad w = true ↔
    w.toNat / 1024 ≠ 0 ∨ (w.toNat / 256 % 2 = 1 ∧ w.toNat % 256 ≠ 0x10 ∧ w.toNat % 256 ≠ 0x41) ∨
      (w.toNat / 512 % 2 = 1 ∧ w.toNat % 256 ≠ 0x10) := by
  simp only [flagsBad, fieldF0_eq, fieldF1_eq, ← fieldOp_toNat, ← fieldRsv_toNat, Bool.or_eq_true, Bool.and_eq_true,
    bne_iff_ne, ← BitVec.toNat_inj.ne, Bool.not_eq_true', Bool.or_eq_false_iff, beq_eq_false_iff_ne, decide_eq_true_eq,
    or_assoc]
  rfl

theorem statusError_eq_ofNat (w : Word) (e : ErrCode) : statusError (fieldOp w) e =
    BitVec.ofNat 32 (w.toNat % 256 * 65536 + ((errCode e).toNat * 256 + 4)) := by
  have word := statusWord_toNat (fieldOp w) (errCode e) true false false
  rw [fieldOp_toNat] at word
  rw [← BitVec.setWidth_eq (statusError _ _), ← BitVec.ofNat_toNat, statusError, word]
  simp [Nat.add_assoc]

/-- Settles O5: the two errors of the decoder, and STATUS as a number. -/
theorem rejectedWordsWriteOnlyStatus : Obligations.RejectedWordsWriteOnlyStatus := by
  intro s m p w rest running pending op f0 f1
  refine ⟨fun illegal => ?_, fun legal bad => ?_⟩
  · have h := decode_illegalOp (mt (fieldOp_mem_legalOps_iff w).mp illegal)
    rw [step_of_error running pending h, statusError_eq_ofNat]
    rfl
  · have h := decode_badFlags ((fieldOp_mem_legalOps_iff w).mpr legal) ((flagsBad_iff w).mpr bad)
    rw [step_of_error running pending h, statusError_eq_ofNat]
    rfl

end Sys2Proof.Machine

/-! Errors change STATUS alone, and commands read no ARG register beside their operands (spec/30_encoding.md R92 to
R97). -/

namespace Sys2Proof.Machine

/-! ### A command that ends without OK -/

/-- Settles O7: a completion sets OK, so what ended without OK is the error case. -/
theorem errorsWriteOnlyStatus : Obligations.ErrorsWriteOnlyStatus := by
  intro i s t h notOk
  rcases exec_cases h with error | ⟨u, m, -, rfl⟩
  · exact error
  · rw [State.done_ownStatus, statusOk_statusDone] at notOk
    cases notOk

/-! ### A write to one ARG register -/

/-- s with another value in an ARG register. -/
def State.withArg (s : State) (p : Port) (k : Fin 4) (v : Word) : State := s.setRegs p ((s.regs p).setArg k v)

theorem PortRegs.setArg_setStatus (r : PortRegs) (k : Fin 4) (v w : Word) :
    { r.setArg k v with status := w } = ({ r with status := w } : PortRegs).setArg k v := by
  fin_cases k <;> rfl

theorem PortRegs.setArg_setRes (r : PortRegs) (k : Fin 4) (v : Word) (x : DWord) :
    { r.setArg k v with res := x } = ({ r with res := x } : PortRegs).setArg k v := by
  fin_cases k <;> rfl

/-- Updates of different ports commute. -/
theorem State.setRegs_comm (s : State) {p q : Port} (h : q ≠ p) (r r' : PortRegs) :
    (s.setRegs p r).setRegs q r' = (s.setRegs q r').setRegs p r := by
  cases p <;> cases q <;> first | rfl | exact absurd rfl h

theorem outsideDcf_withArg (p : Port) (k : Fin 4) (v : Word) : OutsideDcf (·.withArg p k v) :=
  ⟨fun s => by simp [State.withArg], fun _ _ _ => by cases p <;> rfl⟩

section
variable (s : State) (p : Port) (k : Fin 4) (v : Word)

theorem State.withArg_port : (s.withArg p k v).port = s.port := by simp [State.withArg]
theorem State.withArg_clk : (s.withArg p k v).clk = s.clk := by simp [State.withArg]
@[simp] theorem State.withArg_digest : (s.withArg p k v).digest = s.digest := by simp [State.withArg]
@[simp] theorem State.withArg_sha : (s.withArg p k v).sha = s.sha := by simp [State.withArg]
@[simp] theorem State.withArg_hmacSha256 (m : List Byte) :
    hmacSha256 (s.withArg p k v).key m = hmacSha256 s.key m := by simp [State.withArg]
@[simp] theorem State.withArg_rangeOk (off len : Nat) : (s.withArg p k v).rangeOk off len = s.rangeOk off len := by
  simp [State.rangeOk, State.withArg]
@[simp] theorem State.withArg_bufRead (off n : Nat) : (s.withArg p k v).bufRead off n = s.bufRead off n := by
  simp [State.withArg]
@[simp] theorem State.withArg_nowRawResult : (s.withArg p k v).nowRawResult = s.nowRawResult := by
  simp [State.nowRawResult, State.withArg]

@[simp] theorem State.withArg_nowRawState : (s.withArg p k v).nowRawState = s.nowRawState.withArg p k v := by
  cases p <;> rfl
@[simp] theorem State.withArg_bufWrite (off : Nat) (bs : List Byte) :
    (s.withArg p k v).bufWrite off bs = (s.bufWrite off bs).withArg p k v := by cases p <;> rfl
@[simp] theorem State.withArg_setShaDigest (c : ShaCtx) (d : Vector Byte 32) :
    ({ s.withArg p k v with sha := c, digest := d } : State) =
      ({ s with sha := c, digest := d } : State).withArg p k v := by cases p <;> rfl
@[simp] theorem State.withArg_shaClobber : (s.withArg p k v).shaClobber = s.shaClobber.withArg p k v := by
  cases p <;> rfl
@[simp] theorem State.withArg_dcfSampleAt (lvl : Bool) (t : DWord) :
    (s.withArg p k v).dcfSampleAt lvl t = (s.dcfSampleAt lvl t).withArg p k v :=
  (outsideDcf_withArg p k v).dcfSampleAt s lvl t

@[simp] theorem State.withArg_setStatus (q : Port) (w : Word) :
    (s.withArg p k v).setStatus q w = (s.setStatus q w).withArg p k v := by
  by_cases h : q = p
  · subst h
    simp only [State.withArg, State.setStatus, State.setRegs_regs, State.setRegs_setRegs, PortRegs.setArg_setStatus]
  · simp only [State.withArg, State.setStatus, State.setRegs_regs_ne _ _ _ _ h,
      State.setRegs_regs_ne _ _ _ _ (Ne.symm h), State.setRegs_comm _ h]
@[simp] theorem State.withArg_setRes (q : Port) (x : DWord) :
    (s.withArg p k v).setRes q x = (s.setRes q x).withArg p k v := by
  by_cases h : q = p
  · subst h
    simp only [State.withArg, State.setRes, State.setRegs_regs, State.setRegs_setRegs, PortRegs.setArg_setRes]
  · simp only [State.withArg, State.setRes, State.setRegs_regs_ne _ _ _ _ h,
      State.setRegs_regs_ne _ _ _ _ (Ne.symm h), State.setRegs_comm _ h]
@[simp] theorem State.withArg_done (op : Byte) (m : Bool) :
    (s.withArg p k v).done op m = (s.done op m).withArg p k v := by simp [State.done, State.withArg_port]
@[simp] theorem State.withArg_raise (op : Byte) (e : ErrCode) :
    (s.withArg p k v).raise op e = (s.raise op e).withArg p k v := by simp [State.raise, State.withArg_port]

/-! ### Operands -/

variable {p k}

/-- An operand is the same as before when the write was to the other port or to no operand. -/
theorem State.withArg_arg {i : Instr} (unused : p ≠ s.port ∨ k ∉ operandArgs i) {j : Fin 4}
    (operand : j ∈ operandArgs i) : (s.withArg p k v).arg j = s.arg j := by
  rw [State.arg, State.withArg_port, State.withArg, State.setRegs_regs_if]
  split
  next same =>
    have notOperand := unused.resolve_left (not_not.mpr same.symm)
    rw [← same, PortRegs.arg_setArg_ne _ _ _ _ (ne_of_mem_of_not_mem operand notOperand), State.arg]
  next => rfl

theorem State.withArg_argNat {i : Instr} (unused : p ≠ s.port ∨ k ∉ operandArgs i) {j : Fin 4}
    (operand : j ∈ operandArgs i) : (s.withArg p k v).argNat j = s.argNat j :=
  congrArg BitVec.toNat (s.withArg_arg v unused operand)

theorem State.withArg_argTime {i : Instr} (unused : p ≠ s.port ∨ k ∉ operandArgs i) (low : 0 ∈ operandArgs i)
    (high : 1 ∈ operandArgs i) : (s.withArg p k v).argTime = s.argTime := by
  rw [State.argTime, s.withArg_arg v unused low, s.withArg_arg v unused high, State.argTime]

/-- A command commutes with a write to an ARG register that is none of its operands (R94). -/
theorem exec_withArg {i : Instr} (unused : p ≠ s.port ∨ k ∉ operandArgs i) :
    exec i (s.withArg p k v) = mapNext (·.withArg p k v) (exec i s) := by
  have argNat (j : Fin 4) (operand : j ∈ operandArgs i) := s.withArg_argNat v unused operand
  cases i with
  | nop => simp [exec, execNop]
  | nowRaw => simp [exec, execNowRaw, State.withArg_port]
  | wallSeconds => simp [exec, execWallSeconds, State.withArg_port, State.withArg_clk]
  | dcfSample lvl tsrc =>
    cases tsrc with
    | true => simp [exec, execDcfSample, State.withArg_port]
    | false =>
      have time := s.withArg_argTime v unused (by simp [operandArgs]) (by simp [operandArgs])
      simp [exec, execDcfSample, time]
  | b64Decode =>
    have off := argNat 0 (by decide)
    have len := argNat 1 (by decide)
    simp only [exec, execB64Decode, off, len, apply_ite (mapNext _)]
    cases hd : base64Decode (s.bufRead (s.argNat 0) (s.argNat 1)) <;> simp [hd, State.withArg_port]
  | shaInit => simp [exec, execShaInit]
  | shaUpdate =>
    have off := argNat 0 (by decide)
    have len := argNat 1 (by decide)
    simp [exec, execShaUpdate, off, len, apply_ite (mapNext _)]
  | shaFinal => simp [exec, execShaFinal, apply_ite (mapNext _)]
  | hmacCompute =>
    have off := argNat 0 (by decide)
    have len := argNat 1 (by decide)
    simp [exec, execHmacCompute, off, len, apply_ite (mapNext _)]
  | hmacVerify tag32 =>
    have off := argNat 0 (by simp [operandArgs])
    have len := argNat 1 (by simp [operandArgs])
    have tag := argNat 2 (by simp [operandArgs])
    simp [exec, execHmacVerify, State.tagMatches, off, len, tag, apply_ite (mapNext _)]

end

theorem arg3_not_mem_operandArgs (i : Instr) : (3 : Fin 4) ∉ operandArgs i := by
  cases i with
  | dcfSample lvl tsrc => cases tsrc <;> simp [operandArgs]
  | _ => simp [operandArgs]

/-- Settles O9: every command commutes with a write to a register it does not read. -/
theorem argThreeIsIgnored : Obligations.ArgThreeIsIgnored := by
  refine ⟨arg3_not_mem_operandArgs, fun i s t p k v unused h => ?_⟩
  have commutes := exec_withArg s v unused
  rw [h] at commutes
  exact commutes

end Sys2Proof.Machine

/-! The host's statements `arg64` and `bufstr`, store by store (spec/30_encoding.md R102). -/

namespace Sys2Proof.Machine

/-! ### Steps of a run -/

/-- s with other actions pending. -/
def State.withInbox (s : State) (l : List Event) : State := { s with inbox := l }

/-- The reply that a completed write gives. -/
def writeReply (m : Master) : Option Reply := some { master := m, response := .written }

theorem coreRun_succ {M : Host.Core} {s t : M.State} (n : Nat) (h : M.step s = .next t) :
    M.run (n + 1) s = M.run n t := by
  simp only [Host.Core.run, h]

theorem run_succ_of_step {s t : State} (n : Nat) (h : step s = .next t) :
    Host.Core.run Sys2Proof.core (n + 1) s = Host.Core.run Sys2Proof.core n t := coreRun_succ n h

theorem State.enqueue_eq_withInbox {s : State} (m : Master) (stmt : HostStmt) (idle : s.inbox = []) :
    s.enqueue m stmt = s.withInbox (hostEvents s.cfg m stmt) := by
  rw [State.enqueue, idle, List.nil_append, State.withInbox]

/-- The step of a pending write that reaches a target. -/
theorem step_write {s : State} (m : Master) {addr : Nat} {n : Width} {v : Word} {tg : Target} (rest : List Event)
    (running : s.rst = false) (reached : busTarget s.cfg addr n = some tg) :
    step (s.withInbox (.bus m (.write addr n v) :: rest)) =
      ((s.withInbox rest).respond m .written).writeTarget tg n v :=
  (step_cons (s.withInbox _) _ rest rfl).trans (busAccess_write (s := s.withInbox rest) m v running reached)

/-! ### Stores to ARG -/

theorem busTarget_argOffset (c : Config) (p : Port) (k : Fin 4) :
    busTarget c (c.base + argOffset p k.val) .w4 = some (.reg (.arg p k)) := by
  rw [← busTarget_arg c p k, Nat.add_assoc]
  cases p <;> rfl

theorem step_storeArg {s : State} {c : Config} (m : Master) (p : Port) (k : Fin 4) (v : Word) (rest : List Event)
    (running : s.rst = false) (hc : c = s.cfg) :
    step (s.withInbox (store32 c m (argOffset p k.val) v :: rest)) =
      .next (((s.withArg p k v).withReply (writeReply m)).withInbox rest) := by
  subst hc
  rw [store32, step_write m rest running (busTarget_argOffset s.cfg p k)]
  cases p <;> rfl

/-- Two stores to ARG registers of one port. -/
theorem run_storeArg_storeArg {s : State} (m : Master) (p : Port) (j k : Fin 4) (v w : Word) (running : s.rst = false) :
    Host.Core.run Sys2Proof.core 2
        (s.withInbox [store32 s.cfg m (argOffset p j.val) v, store32 s.cfg m (argOffset p k.val) w]) =
      .next ((((s.withArg p j v).withArg p k w).withReply (writeReply m)).withInbox []) := by
  rw [run_succ_of_step 1 (step_storeArg m p j v _ running rfl),
    run_succ_of_step 0 (step_storeArg m p k w _ (by simpa [State.withArg, State.withReply] using running)
      (by simp [State.withArg, State.withReply]))]
  cases p <;> rfl

theorem State.withArg_regs (s : State) (p : Port) (k : Fin 4) (v : Word) :
    (s.withArg p k v).regs p = (s.regs p).setArg k v := by simp [State.withArg]

theorem State.withArg_regs_other (s : State) (p : Port) (k : Fin 4) (v : Word) :
    (s.withArg p k v).regs p.other = s.regs p.other := by simp [State.withArg]

@[simp] theorem State.withInbox_regs (s : State) (p : Port) (l : List Event) : (s.withInbox l).regs p = s.regs p := by
  cases p <;> rfl

theorem hi32_append_lo32 (v : DWord) : (hi32 v ++ lo32 v : BitVec 64) = v := by
  apply BitVec.eq_of_toNat_eq
  rw [append_toNat, hi32_toNat, lo32_toNat]
  omega

theorem hi32_lo32_toNat (v : DWord) : (hi32 v).toNat * 2 ^ 32 + (lo32 v).toNat = v.toNat := by
  rw [← append_toNat, hi32_append_lo32]

/-- The 64-bit operand of the port p is its ARG1 and ARG0 (R92). -/
theorem State.argTime_ofPort (s : State) (p : Port) :
    ({ s with port := p } : State).argTime = ((s.regs p).arg1 ++ (s.regs p).arg0 : BitVec 64) := by
  cases p <;> rfl

/-- Settles O52: the two stores go to ARG k and ARG k + 1. -/
theorem argSixtyFourLoadsOperand : Obligations.ArgSixtyFourLoadsOperand := by
  intro s m p k v running idle hk
  rw [s.enqueue_eq_withInbox m _ idle]
  rcases hk with rfl | rfl
  · refine ⟨_, run_storeArg_storeArg m p 0 1 _ _ running, rfl, fun _ => ?_, by simp, by simp [State.withArg_regs_other]⟩
    simp only [State.argTime_ofPort, State.withInbox_regs, State.withReply_regs, State.withArg_regs]
    exact ⟨hi32_lo32_toNat v, hi32_append_lo32 v, rfl, rfl⟩
  · refine ⟨_, run_storeArg_storeArg m p 2 3 _ _ running, rfl, by simp, fun _ => ?_, by simp [State.withArg_regs_other]⟩
    simp only [State.withInbox_regs, State.withReply_regs, State.withArg_regs]
    exact ⟨hi32_lo32_toNat v, rfl, rfl⟩

/-! ### Bytes carried by a word -/

/-- Byte j of a number written in address order (R61). -/
theorem leNat_div_mod (bs : List Byte) (j : Nat) : leNat bs / 2 ^ (8 * j) % 256 = (bs.getD j 0).toNat := by
  induction bs generalizing j with
  | nil => simp [leNat]
  | cons b bs ih =>
    have := b.isLt
    cases j with
    | zero => simp only [leNat, Nat.mul_zero, Nat.pow_zero, Nat.div_one, List.getD_cons_zero]; omega
    | succ j =>
      have split : 2 ^ (8 * (j + 1)) = 256 * 2 ^ (8 * j) := by rw [Nat.mul_succ, Nat.pow_add, Nat.mul_comm]
      have tail : (b.toNat + 256 * leNat bs) / 256 = leNat bs := by omega
      rw [leNat, split, ← Nat.div_div_eq_div_mul, tail, ih, List.getD_cons_succ]

/-- Up to four bytes put into a bus value are the bytes it carries (R61, R62). -/
theorem busBytes_leWord {bs : List Byte} (short : bs.length ≤ 4) : busBytes (leWord bs) bs.length = bs := by
  have fits : leNat bs < 2 ^ 32 := (leNat_lt bs).trans_le (Nat.pow_le_pow_right (by decide) short)
  apply List.ext_getElem (busBytes_length _ _)
  intro j h1 h2
  apply BitVec.eq_of_toNat_eq
  rw [← List.getD_eq_getElem _ 0 h1, busBytes_getD _ _ _ h2, wordByte_toNat, leWord, BitVec.toNat_ofNat,
    Nat.mod_eq_of_lt fits, leNat_div_mod, List.getD_eq_getElem _ 0 h2]

/-! ### Stores to BUF -/

theorem step_storeBuf {s : State} {c : Config} (m : Master) {i : Nat} {n : Width} {bs : List Byte} (rest : List Event)
    (running : s.rst = false) (hc : c = s.cfg) (whole : bs.length = n.bytes) (aligned : i % n.bytes = 0)
    (inside : i < c.bufSize) :
    step (s.withInbox (.bus m (.write (c.base + (0x200 + i)) n (leWord bs)) :: rest)) =
      .next (((s.bufWrite i bs).withReply (writeReply m)).withInbox rest) := by
  subst hc
  have short : bs.length ≤ 4 := by rw [whole]; cases n <;> decide
  rw [step_write m rest running (Nat.add_assoc _ _ _ ▸ busTarget_buf s.cfg i n aligned inside), State.writeTarget,
    ← whole, busBytes_leWord short]
  rfl

theorem Memory.writeBytes_append (mem : Memory) (a : Nat) (xs ys : List Byte) :
    mem.writeBytes a (xs ++ ys) = (mem.writeBytes a xs).writeBytes (a + xs.length) ys := by
  induction xs generalizing mem a with
  | nil => rfl
  | cons x xs ih =>
    rw [List.cons_append, Memory.writeBytes, ih, Memory.writeBytes, List.length_cons, Nat.add_right_comm,
      Nat.add_assoc]

theorem State.bufWrite_append (s : State) (i : Nat) (xs ys : List Byte) :
    s.bufWrite i (xs ++ ys) = (s.bufWrite i xs).bufWrite (i + xs.length) ys := by
  rw [State.bufWrite, Memory.writeBytes_append]
  rfl

/-- Running the pending actions on s writes the bytes to BUF from i on, and gives some reply. -/
def WritesBuf (s : State) (events : List Event) (i : Nat) (bs : List Byte) : Prop :=
  ∃ r, Host.Core.run Sys2Proof.core events.length (s.withInbox events) =
    .next (((s.bufWrite i bs).withReply r).withInbox [])

theorem writesBuf_nil (s : State) (i : Nat) : WritesBuf s [] i [] := ⟨s.reply, rfl⟩

/-- A store of bytes, and then the stores that write the bytes after them. -/
theorem writesBuf_cons {s : State} {c : Config} (m : Master) {i : Nat} {n : Width} {bs rest : List Byte}
    {events : List Event} (running : s.rst = false) (hc : c = s.cfg) (whole : bs.length = n.bytes)
    (aligned : i % n.bytes = 0) (inside : i < c.bufSize)
    (tail : WritesBuf ((s.bufWrite i bs).withReply (writeReply m)) events (i + bs.length) rest) :
    WritesBuf s (.bus m (.write (c.base + (0x200 + i)) n (leWord bs)) :: events) i (bs ++ rest) := by
  obtain ⟨r, run⟩ := tail
  refine ⟨r, ?_⟩
  rw [List.length_cons, run_succ_of_step _ (step_storeBuf m events running hc whole aligned inside), run,
    State.withReply_bufWrite, ← State.bufWrite_append]
  rfl

theorem writesBuf_store8 {s : State} {c : Config} (m : Master) {i : Nat} {b : Byte} {rest : List Byte}
    {events : List Event} (running : s.rst = false) (hc : c = s.cfg) (inside : i < c.bufSize)
    (tail : WritesBuf ((s.bufWrite i [b]).withReply (writeReply m)) events (i + 1) rest) :
    WritesBuf s (store8 c m (0x200 + i) b :: events) i (b :: rest) := by
  rw [store8, ← leWord_one]
  exact writesBuf_cons m (n := .w1) running hc rfl (Nat.mod_one i) inside tail

/-- The stores of `bufstr` write the text's bytes in order, a word or a byte at a time. -/
theorem bufstrEvents_writesBuf {s : State} {c : Config} (m : Master) {i : Nat} {text : List Byte}
    (running : s.rst = false) (hc : c = s.cfg) (inside : i + text.length ≤ c.bufSize) :
    WritesBuf s (bufstrEvents c m i text) i text := by
  fun_induction bufstrEvents c m i text generalizing s with
  | case1 i b0 b1 b2 b3 rest aligned ih =>
    simp only [List.length_cons] at inside
    exact writesBuf_cons m (n := .w4) (bs := [b0, b1, b2, b3]) running hc rfl aligned (by omega)
      (ih running hc (by omega))
  | case2 i b0 b1 b2 b3 rest misaligned ih =>
    simp only [List.length_cons] at inside ih
    exact writesBuf_store8 m running hc (by omega) (ih running hc (by omega))
  | case3 i b rest short ih =>
    simp only [List.length_cons] at inside
    exact writesBuf_store8 m running hc (by omega) (ih running hc (by omega))
  | case4 i => exact writesBuf_nil s i

/-- Settles O53: the stores together are one write of the text into BUF. -/
theorem bufstrWritesText : Obligations.BufstrWritesText := by
  intro s m i text running idle inside
  obtain ⟨r, run⟩ := bufstrEvents_writesBuf m running rfl inside
  rw [s.enqueue_eq_withInbox m _ idle]
  refine ⟨_, run, rfl, s.bufRead_bufWrite i text, fun a outside => ?_, rfl, rfl⟩
  exact (s.bufByte_bufWrite i text a).trans (if_neg (by omega))

end Sys2Proof.Machine

/-! The base64 unit: the alphabet both ways, B64_DECODE on every state, and the round trip with RFC 4648's encoding
(spec/40_base64.md). -/

namespace Sys2Proof.Machine

/-! ### The alphabet (R120) -/

/-- The table of R120: k is the sextet value of the character of code n. -/
def IsSextetCode (n k : Nat) : Prop :=
  (k < 26 ∧ n = k + 0x41) ∨ (26 ≤ k ∧ k < 52 ∧ n + 26 = k + 0x61) ∨ (52 ≤ k ∧ k < 62 ∧ n + 52 = k + 0x30) ∨
    (k = 62 ∧ n = 0x2B) ∨ (k = 63 ∧ n = 0x2F)

theorem sextet_eq_some_iff_code {c : Byte} {k : Nat} : sextet c = some k ↔ IsSextetCode c.toNat k := by
  simp only [sextet, IsSextetCode]
  split_ifs
  case neg => rw [false_iff]; omega
  all_goals rw [Option.some_inj]; omega

theorem isSextetCode_alphabetChar {k : Nat} (hk : k < 64) : IsSextetCode (alphabetChar k).toNat k := by
  unfold alphabetChar IsSextetCode
  split_ifs <;> simp only [BitVec.toNat_ofNat, BitVec.ofNat_eq_ofNat, and_true] <;> omega

theorem sextet_alphabetChar {k : Nat} (hk : k < 64) : sextet (alphabetChar k) = some k :=
  sextet_eq_some_iff_code.mpr (isSextetCode_alphabetChar hk)

theorem sextet_getD_alphabetChar {k : Nat} (hk : k < 64) : (sextet (alphabetChar k)).getD 0 = k := by
  rw [sextet_alphabetChar hk, Option.getD_some]

/-- The table gives a sextet value to one code only. -/
theorem sextet_eq_some_iff {c : Byte} {k : Nat} : sextet c = some k ↔ k < 64 ∧ c = alphabetChar k := by
  refine ⟨fun h => ?_, fun ⟨hk, hc⟩ => hc ▸ sextet_alphabetChar hk⟩
  have code := sextet_eq_some_iff_code.mp h
  have hk : k < 64 := by unfold IsSextetCode at code; omega
  have same := isSextetCode_alphabetChar hk
  refine ⟨hk, BitVec.eq_of_toNat_eq ?_⟩
  unfold IsSextetCode at code same
  omega

/-- Settles O32: alphabet and sextet value are the same table. -/
theorem sextetsFollowAlphabet : Obligations.SextetsFollowAlphabet :=
  ⟨fun _ => sextet_alphabetChar, fun _ _ => sextet_eq_some_iff.mp, rfl, rfl⟩

theorem inAlphabet_iff {c : Byte} : inAlphabet c ↔ (sextet c).isNone = false := by
  rw [Option.isNone_eq_false_iff, Option.isSome_iff_exists]
  exact exists_congr fun k => sextet_eq_some_iff.symm

theorem not_inAlphabet_iff {c : Byte} : ¬ inAlphabet c ↔ (sextet c).isNone = true := by
  rw [inAlphabet_iff, Bool.not_eq_false]

theorem not_inAlphabet_padChar : ¬ inAlphabet padChar := not_inAlphabet_iff.mpr rfl

/-! ### The decoder's checks and its output (R121 to R124) -/

/-- The decoder pads to whole quadruplets what has a length it accepts (R121). -/
theorem virtualPad_of_length {s0 : List Byte} (h : s0.length % 4 ≠ 1) :
    virtualPad s0 = some (s0 ++ List.replicate ((4 - s0.length % 4) % 4) padChar) := by
  rw [virtualPad_eq, if_neg h]

theorem base64Decode_of_length {s0 : List Byte} (h : s0.length % 4 = 1) :
    base64Decode s0 = .error .b64Length := by
  rw [base64Decode, virtualPad_eq, if_pos h]

theorem base64Decode_of_bad {s0 s : List Byte} {c : Byte} (padded : virtualPad s0 = some s)
    (bad : firstBadChar s = some c) :
    base64Decode s0 = .error (if c = padChar then .b64Pad else .b64Char) := by
  simp only [base64Decode, padded, bad, apply_ite Except.error]

theorem base64Decode_of_good {s0 s : List Byte} (padded : virtualPad s0 = some s) (good : firstBadChar s = none) :
    base64Decode s0 = .ok (decodeQuads s) := by
  simp only [base64Decode, padded, good]

/-- The first bad character is the data character outside the alphabet with none before it (R122). -/
theorem firstBadChar_of_first {s : List Byte} {i : Nat} (data : i < s.length - padCount s)
    (bad : ¬ inAlphabet (s.getD i 0)) (first : ∀ j < i, inAlphabet (s.getD j 0)) :
    firstBadChar s = some (s.getD i 0) := by
  have inside : i < (s.take (s.length - padCount s)).length := by rw [List.length_take]; omega
  rw [firstBadChar, List.find?_eq_some_iff_getElem]
  refine ⟨not_inAlphabet_iff.mp bad, i, inside, ?_, fun j hj => ?_⟩
  · rw [List.getElem_take, List.getD_eq_getElem]
  · rw [List.getElem_take, ← List.getD_eq_getElem s 0, inAlphabet_iff.mp (first j hj)]
    rfl

theorem firstBadChar_eq_none {s : List Byte} (good : ∀ c ∈ s.take (s.length - padCount s), inAlphabet c) :
    firstBadChar s = none :=
  List.find?_eq_none.mpr fun c hc => by simp [inAlphabet_iff.mp (good c hc)]

theorem firstBadChar_of_all {s : List Byte} (good : ∀ i < s.length - padCount s, inAlphabet (s.getD i 0)) :
    firstBadChar s = none := by
  refine firstBadChar_eq_none fun c hc => ?_
  obtain ⟨i, hi, rfl⟩ := List.mem_take_iff_getElem.mp hc
  rw [← List.getD_eq_getElem s 0]
  exact good i (by omega)

/-- Byte k of the output is byte k of the quadruplets (R123). -/
theorem decodeQuads_getD (s : List Byte) {k : Nat} (hk : k < decodedLength s) :
    (decodeQuads s).getD k 0 = (quadsBytes s).getD k 0 := by
  simp [decodeQuads, hk]

/-- Byte j of a quadruplet, the most significant first (R123). -/
theorem quadBytes_getD (c0 c1 c2 c3 : Byte) {j : Nat} (hj : j < 3) : (quadBytes c0 c1 c2 c3).getD j 0 =
    BitVec.ofNat 8 (((sextet c0).getD 0 * 2 ^ 18 + (sextet c1).getD 0 * 2 ^ 12 + (sextet c2).getD 0 * 2 ^ 6 +
      (sextet c3).getD 0) / 2 ^ (16 - 8 * j)) := by
  match j, hj with
  | 0, _ => rfl
  | 1, _ => rfl
  | 2, _ => simp [quadBytes]

/-! ### The command, case by case (R125) -/

@[simp] theorem State.done_bufByte (s : State) (op : Byte) (m : Bool) (a : Nat) :
    (s.done op m).bufByte a = s.bufByte a := by simp [State.done]

@[simp] theorem State.done_ownRes (s : State) (op : Byte) (m : Bool) : (s.done op m).ownRes = s.ownRes := by
  simp [State.done, State.ownRes]

section
variable {s : State}

theorem exec_b64Decode_outside (outside : s.cfg.bufSize < s.argNat 0 + s.argNat 1) :
    exec .b64Decode s = .next (s.raise 0x20 .badRange) := by
  have range : ¬ s.rangeOk (s.argNat 0) (s.argNat 1) = true := by rw [State.rangeOk_iff]; omega
  simp only [exec, execB64Decode, range]
  rfl

theorem exec_b64Decode_of_error {e : ErrCode} (inside : s.argNat 0 + s.argNat 1 ≤ s.cfg.bufSize)
    (decoded : base64Decode (s.bufRead (s.argNat 0) (s.argNat 1)) = .error e) :
    exec .b64Decode s = .next (s.raise 0x20 e) := by
  simp only [exec, execB64Decode, (s.rangeOk_iff _ _).mpr inside, if_true, decoded]

/-- A completed B64_DECODE: STATUS, RES and every byte of BUF. -/
theorem exec_b64Decode_of_ok {out : List Byte} (inside : s.argNat 0 + s.argNat 1 ≤ s.cfg.bufSize)
    (decoded : base64Decode (s.bufRead (s.argNat 0) (s.argNat 1)) = .ok out) :
    ∃ t, exec .b64Decode s = .next t ∧ t.ownStatus = 0x00200005 ∧ t.ownRes = BitVec.ofNat 64 out.length ∧
      ∀ a, t.bufByte a = (s.bufWrite (s.argNat 0) out).bufByte a := by
  refine ⟨((s.bufWrite (s.argNat 0) out).setRes s.port (BitVec.ofNat 64 out.length)).done 0x20 false, ?_, ?_, ?_, ?_⟩
  · simp only [exec, execB64Decode, (s.rangeOk_iff _ _).mpr inside, if_true, decoded]
  · rw [State.done_ownStatus]
    rfl
  · rw [State.done_ownRes]
    simp [State.ownRes]
  · simp

end

/-- Settles O33: each clause's premises pick one case of the decoder. -/
theorem b64DecodeChecksThenDecodes : Obligations.B64DecodeChecksThenDecodes := by
  intro s off len padded q n sx
  obtain ⟨t, run⟩ := exec_runs .b64Decode s
  have answer {u : State} (h : exec .b64Decode s = .next u) : t = u := Host.Outcome.next.inj (run.symm.trans h)
  have pads : padCount padded = q := padCount_eq padded
  have virtual (whole : len % 4 ≠ 1) : virtualPad (s.bufRead off len) = some padded := by
    rw [virtualPad_of_length (by rwa [State.bufRead_length]), State.bufRead_length]
    rfl
  refine ⟨t, run, commandFrame _ _ _ run, fun outside => answer (exec_b64Decode_outside outside),
    fun inside short => ?_, fun inside whole => ⟨fun i data bad first => ?_, fun good => ?_⟩⟩
  · exact answer (exec_b64Decode_of_error inside (base64Decode_of_length (by rwa [State.bufRead_length])))
  · have badChar : firstBadChar padded = some (padded.getD i 0) := firstBadChar_of_first (pads ▸ data) bad first
    rw [answer (exec_b64Decode_of_error inside (base64Decode_of_bad (virtual whole) badChar))]
    by_cases pad : padded.getD i 0 = 0x3D#8
    · rw [pad]
      rfl
    · rw [if_neg pad, if_neg (show padded.getD i 0 ≠ padChar from pad)]
      rfl
  · have decoded := base64Decode_of_good (virtual whole) (firstBadChar_of_all (pads ▸ good))
    have quads := virtualPad_length (virtual whole)
    have length : decodedLength padded = n := by rw [decodedLength, pads]
    have size := (decodeQuads_length padded quads).trans length
    have shorter := base64Decode_length decoded
    rw [size, State.bufRead_length] at shorter
    obtain ⟨u, run, status, res, written⟩ := exec_b64Decode_of_ok inside decoded
    obtain rfl := answer run
    have bytes (a : Nat) : t.bufByte a =
        if off ≤ a ∧ a < off + n then (decodeQuads padded).getD (a - off) 0 else s.bufByte a := by
      rw [written, State.bufByte_bufWrite, size]
      rfl
    refine ⟨status, shorter, size ▸ res, fun a outside => ?_, fun k hk => ?_⟩ <;> rw [bytes]
    · exact if_neg (by omega)
    · rw [if_pos (by omega), Nat.add_sub_cancel_left, decodeQuads_getD padded (length ▸ hk),
        quadsBytes_getD padded quads k (by omega), quadBytes_getD _ _ _ _ (Nat.mod_lt k (by decide))]

/-! ### RFC 4648's encoding: its characters and lengths -/

theorem inAlphabet_alphabetChar (k : Nat) : inAlphabet (alphabetChar k) := by
  by_cases hk : k < 64
  · exact ⟨k, hk, rfl⟩
  · have last : alphabetChar k = 0x2F := by
      rw [alphabetChar, if_neg (by omega), if_neg (by omega), if_neg (by omega), if_neg (by omega)]
    exact ⟨63, by decide, last⟩

theorem inAlphabet_of_mem_b64Encode {x : List Byte} : ∀ c ∈ b64Encode x, inAlphabet c := by
  fun_induction b64Encode x with
  | case1 x y z rest v ih => simpa [inAlphabet_alphabetChar] using ih
  | case2 x y v => simp [inAlphabet_alphabetChar]
  | case3 x v => simp [inAlphabet_alphabetChar]
  | case4 => simp

theorem b64Encode_length (x : List Byte) : (b64Encode x).length = (4 * x.length + 2) / 3 := by
  fun_induction b64Encode x with
  | case1 x y z rest v ih => simp only [List.length_cons, ih]; omega
  | case2 x y v => simp
  | case3 x v => simp
  | case4 => rfl

theorem b64EncodePadded_length (x : List Byte) : (b64EncodePadded x).length = 4 * ((x.length + 2) / 3) := by
  rw [b64EncodePadded, List.length_append, List.length_replicate, b64Encode_length]
  omega

/-- Virtual padding makes the padded encoding of either form (R121). -/
theorem virtualPad_b64Encode {x enc : List Byte} (h : enc = b64EncodePadded x ∨ enc = b64Encode x) :
    virtualPad enc = some (b64EncodePadded x) := by
  rcases h with rfl | rfl
  · have whole : (b64EncodePadded x).length % 4 = 0 := by rw [b64EncodePadded_length]; omega
    rw [virtualPad_of_length (by omega), whole]
    simp
  · exact virtualPad_of_length (by rw [b64Encode_length]; omega)

/-! ### Decoding an encoding -/

/-- Pad characters after alphabet characters are the trailing ones (R122). -/
theorem trailingPads_append_replicate {l : List Byte} (h : ∀ c ∈ l, inAlphabet c) (k : Nat) :
    trailingPads (l ++ List.replicate k padChar) = k := by
  have stop : l.reverse.takeWhile (fun c => c == padChar) = [] := by
    refine List.takeWhile_eq_nil_iff.mpr fun inside pad => not_inAlphabet_padChar ?_
    rw [← beq_iff_eq.mp pad]
    exact h _ (List.mem_reverse.mp (List.getElem_mem inside))
  rw [trailingPads, List.reverse_append, List.reverse_replicate, List.takeWhile_append_of_pos (by simp), stop]
  simp

theorem padCount_b64EncodePadded (x : List Byte) :
    padCount (b64EncodePadded x) = (b64EncodePadded x).length - (b64Encode x).length := by
  rw [padCount, b64EncodePadded_length, b64EncodePadded, trailingPads_append_replicate inAlphabet_of_mem_b64Encode,
    b64Encode_length]
  omega

/-- The data characters of an encoding are all in the alphabet. -/
theorem firstBadChar_b64EncodePadded (x : List Byte) : firstBadChar (b64EncodePadded x) = none := by
  refine firstBadChar_eq_none fun c hc => inAlphabet_of_mem_b64Encode (x := x) c ?_
  have data : (b64EncodePadded x).length - padCount (b64EncodePadded x) = (b64Encode x).length := by
    rw [padCount_b64EncodePadded, b64EncodePadded_length, b64Encode_length]
    omega
  rwa [data, b64EncodePadded, List.take_left] at hc

/-- A quadruplet whose sextets are the four digits of a 24-bit number decodes to its three bytes. -/
theorem quadBytes_of_sextets {c2 c3 a b c : Byte} {v : Nat} (hv : v = a.toNat * 2 ^ 16 + b.toNat * 2 ^ 8 + c.toNat)
    (h2 : (sextet c2).getD 0 = v / 2 ^ 6 % 64) (h3 : (sextet c3).getD 0 = v % 64) :
    quadBytes (alphabetChar (v / 2 ^ 18)) (alphabetChar (v / 2 ^ 12 % 64)) c2 c3 = [a, b, c] := by
  have ha := a.isLt
  have hb := b.isLt
  have hc := c.isLt
  have h0 : (sextet (alphabetChar (v / 2 ^ 18))).getD 0 = v / 2 ^ 18 := sextet_getD_alphabetChar (by omega)
  have h1 : (sextet (alphabetChar (v / 2 ^ 12 % 64))).getD 0 = v / 2 ^ 12 % 64 := sextet_getD_alphabetChar (by omega)
  have whole : v / 2 ^ 18 * 2 ^ 18 + v / 2 ^ 12 % 64 * 2 ^ 12 + v / 2 ^ 6 % 64 * 2 ^ 6 + v % 64 = v := by omega
  simp only [quadBytes, h0, h1, h2, h3, whole, List.cons.injEq, and_true]
  refine ⟨?_, ?_, ?_⟩ <;> apply BitVec.eq_of_toNat_eq <;> rw [BitVec.toNat_ofNat] <;> omega

/-- The padding of an encoding is that of its last quadruplet. -/
theorem b64EncodePadded_cons (x y z : Byte) (rest : List Byte) :
    let v := x.toNat * 2 ^ 16 + y.toNat * 2 ^ 8 + z.toNat
    b64EncodePadded (x :: y :: z :: rest) = alphabetChar (v / 2 ^ 18) :: alphabetChar (v / 2 ^ 12 % 64) ::
      alphabetChar (v / 2 ^ 6 % 64) :: alphabetChar (v % 64) :: b64EncodePadded rest := by
  simp [b64EncodePadded, b64Encode, Nat.add_assoc]

/-- The quadruplets of an encoding start with the bytes encoded (R123). -/
theorem quadsBytes_b64EncodePadded (x : List Byte) : (quadsBytes (b64EncodePadded x)).take x.length = x := by
  induction x using b64Encode.induct with
  | case1 x y z rest ih =>
    have quad := quadBytes_of_sextets (a := x) (b := y) (c := z) rfl (sextet_getD_alphabetChar (by omega))
      (sextet_getD_alphabetChar (by omega))
    rw [b64EncodePadded_cons, quadsBytes, quad]
    simp [ih]
  | case2 x y =>
    have last : 0 = (x.toNat * 2 ^ 16 + y.toNat * 2 ^ 8) % 64 := by omega
    have quad := quadBytes_of_sextets (c3 := padChar) (a := x) (b := y) (c := 0) (by simp)
      (sextet_getD_alphabetChar (by omega)) last
    exact congrArg (List.take 2) quad
  | case3 x =>
    have third : 0 = x.toNat * 2 ^ 16 / 2 ^ 6 % 64 := by omega
    have last : 0 = x.toNat * 2 ^ 16 % 64 := by omega
    have quad := quadBytes_of_sextets (c2 := padChar) (c3 := padChar) (a := x) (b := 0) (c := 0) (by simp) third last
    exact congrArg (List.take 1) quad
  | case4 => rfl

theorem decodeQuads_b64EncodePadded (x : List Byte) : decodeQuads (b64EncodePadded x) = x := by
  have length : decodedLength (b64EncodePadded x) = x.length := by
    rw [decodedLength, padCount_b64EncodePadded, b64EncodePadded_length, b64Encode_length]
    omega
  rw [decodeQuads, length, quadsBytes_b64EncodePadded]

/-- Settles O34: the decoder takes either form to the padded one, and that one to its bytes. -/
theorem b64RoundTrip : Obligations.B64RoundTrip := by
  refine fun s x => ⟨fun short => ?_, fun enc form size inside read => ?_⟩
  · rw [b64EncodePadded_length]
    omega
  · rw [← size] at inside read
    have decoded := base64Decode_of_good (virtualPad_b64Encode form) (firstBadChar_b64EncodePadded x)
    rw [decodeQuads_b64EncodePadded, ← read] at decoded
    obtain ⟨t, run, status, res, written⟩ := exec_b64Decode_of_ok inside decoded
    exact ⟨t, run, status, res, (State.bufRead_congr written).trans (s.bufRead_bufWrite _ x)⟩

end Sys2Proof.Machine

/-! The SHA-256 unit: the padding, the compression written out, the three commands on every state, and a stream of them
as the one-shot digest (spec/41_sha256.md). -/

namespace Sys2Proof.Machine

/-! ### The padding (R146) -/

theorem be64_length (n : Nat) : (be64 n).length = 8 := by simp [be64]

/-- The first k of the eight bytes, read most significant first, are the number's top k base-256 digits. -/
theorem foldl_be64_leading (n : Nat) {k : Nat} (hk : k ≤ 8) :
    ((List.range k).map fun j => BitVec.ofNat 8 (n / 2 ^ (8 * (7 - j)))).foldl (fun acc b => acc * 256 + b.toNat) 0 =
      n / 2 ^ (8 * (8 - k)) % 256 ^ k := by
  induction k with
  | zero => simp [Nat.mod_one]
  | succ k ih =>
    have shift : n / 2 ^ (8 * (8 - k)) = n / 2 ^ (8 * (7 - k)) / 256 := by
      rw [Nat.div_div_eq_div_mul, show 8 * (8 - k) = 8 * (7 - k) + 8 by omega, Nat.pow_add]
    rw [List.range_succ, List.map_append, List.foldl_append, ih (by omega), shift, show 8 - (k + 1) = 7 - k by omega,
      Nat.pow_succ', Nat.mod_mul]
    simp only [List.map_cons, List.map_nil, List.foldl_cons, List.foldl_nil, BitVec.toNat_ofNat, Nat.reducePow]
    omega

/-- Read most significant byte first, the eight bytes are the number modulo 2^64. -/
theorem foldl_be64 (n : Nat) : (be64 n).foldl (fun acc b => acc * 256 + b.toNat) 0 = n % 2 ^ 64 := by
  rw [be64, foldl_be64_leading n (Nat.le_refl 8), Nat.sub_self, Nat.mul_zero, Nat.pow_zero, Nat.div_one,
    show 256 ^ 8 = 2 ^ 64 from rfl]

/-- With its padding a message fills whole blocks. -/
theorem add_shaPad_length_mod (n : Nat) : (n + (shaPad n).length) % 64 = 0 := by
  rw [shaPad_length]
  split <;> omega

/-- The padding ends with the bit length. -/
theorem drop_shaPad (n : Nat) : (shaPad n).drop ((shaPad n).length - 8) = be64 (8 * n) := by
  rw [shaPad, ← List.cons_append, List.length_append, be64_length, Nat.add_sub_cancel, List.drop_left]

/-- Between its first byte and the bit length the padding is zero. -/
theorem shaPad_getD_zero {n k : Nat} (after : 1 ≤ k) (before : k + 8 < (shaPad n).length) :
    (shaPad n).getD k 1 = 0#8 := by
  obtain ⟨j, rfl⟩ : ∃ j, k = j + 1 := ⟨k - 1, by omega⟩
  simp only [shaPad, List.length_cons, List.length_append, be64_length] at before ⊢
  rw [List.getD_cons_succ, List.getD_append _ _ _ _ (by omega), List.getD_replicate _ (by simp at before; omega)]
  rfl

/-- Settles O40: the padding's bytes from its three parts, its length case by case. -/
theorem shaPaddingFillsBlocks : Obligations.ShaPaddingFillsBlocks := fun n =>
  ⟨add_shaPad_length_mod n, shaPad_length n, rfl, fun _ => shaPad_getD_zero, by rw [drop_shaPad, foldl_be64]⟩

/-! ### The one-shot digest, block by block (R144, R152) -/

theorem sha256_eq_blockwise (m : List Byte) : sha256 m = sha256Blockwise m := by
  obtain ⟨chained, -⟩ := absorbBytes_blocks shaStart (m ++ shaPad m.length)
  have fill : shaStart.fill.toNat = 0 := rfl
  rw [fill, Nat.zero_add, List.take_zero, List.nil_append] at chained
  rw [sha256, chained]
  rfl

/-! ### The compression, written out (R140, R148 to R150) -/

/-- R140's rotation as two shifts. -/
theorem rotateRight_eq_shifts (x : Word) {n : Nat} (hn : n < 32) : x.rotateRight n = x >>> n ||| x <<< (32 - n) :=
  BitVec.rotateRight_eq_rotateRightAux_of_lt hn

/-- W[t], t < 16, as a big-endian number. -/
theorem blockWord_toNat (b : List Byte) (t : Nat) :
    (blockWord b t).toNat = (b.getD (4 * t) 0).toNat * 2 ^ 24 + (b.getD (4 * t + 1) 0).toNat * 2 ^ 16 +
      (b.getD (4 * t + 2) 0).toNat * 2 ^ 8 + (b.getD (4 * t + 3) 0).toNat := by
  simp only [blockWord, append_toNat]
  omega

/-- The working variables of R149 before round t. -/
def workingVars (h : Hash8) (b : List Byte) (t : Nat) : Hash8 := ((roundK.zip (schedule b)).take t).foldl shaRound h

theorem workingVars_zero (h : Hash8) (b : List Byte) : workingVars h b 0 = h := rfl

theorem roundK_length : roundK.length = 64 := rfl

theorem workingVars_succ (h : Hash8) (b : List Byte) {t : Nat} (ht : t < 64) :
    workingVars h b (t + 1) = shaRound (workingVars h b t) (roundK.getD t 0, (schedule b).getD t 0) := by
  have inK : t < roundK.length := by rwa [roundK_length]
  have inW : t < (schedule b).length := by rwa [schedule_length]
  rw [workingVars, List.take_succ_eq_append_getElem (by rw [List.length_zip]; omega), List.foldl_append,
    List.getElem_zip, List.getD_eq_getElem _ _ inK, List.getD_eq_getElem _ _ inW]
  rfl

/-- Compress adds to H the working variables after the 64 rounds. -/
theorem compress_eq_workingVars (h : Hash8) (b : List Byte) : compress h b = hashAdd h (workingVars h b 64) := by
  rw [compress, workingVars, List.take_of_length_le (by rw [List.length_zip, roundK_length, schedule_length]; rfl)]

/-- Settles O39: W is the schedule, and the working variables are those before each round. -/
theorem shaIsBlockwise : Obligations.ShaIsBlockwise := by
  refine ⟨sha256_eq_blockwise, fun h b => ⟨fun t => (schedule b).getD t 0, workingVars h b, fun t ht => ?_,
    fun t low high => ?_, workingVars_zero h b, fun t ht => ?_, compress_eq_workingVars h b⟩⟩
  · dsimp only
    rw [schedule_first b t ht, blockWord_toNat]
  · dsimp only
    rw [schedule_rec b t low high]
    simp only [smallSigma0, smallSigma1, rotateRight_eq_shifts, Nat.reduceLT]
  · rw [workingVars_succ h b ht]
    simp only [shaRound, bigSigma0, bigSigma1, shaCh, shaMaj, rotateRight_eq_shifts, Nat.reduceLT]

/-! ### Absorbing a message (R144) and the digest's bytes (R151) -/

@[simp] theorem absorb_phase (c : ShaCtx) (bs : List Byte) : (absorb c bs).phase = c.phase := absorbBytes_phase c bs

theorem absorb_nbytes_toNat {c : ShaCtx} {bs : List Byte} (short : c.nbytes.toNat + bs.length ≤ shaMaxBytes) :
    (absorb c bs).nbytes.toNat = c.nbytes.toNat + bs.length := by
  simp only [shaMaxBytes] at short
  rw [absorb, BitVec.toNat_ofNat, Nat.mod_eq_of_lt (by omega)]

/-- The byte count takes no part in absorbing. -/
theorem absorbBytes_absorb (c : ShaCtx) (as bs : List Byte) : absorbBytes (absorb c as) bs =
    { absorbBytes c (as ++ bs) with nbytes := (absorb c as).nbytes } := by
  rw [absorbBytes_append, absorb, absorbBytes_mk]
  simp only [absorbBytes_phase]

/-- Absorbing two messages in turn is absorbing their concatenation. -/
theorem absorb_absorb (c : ShaCtx) (as bs : List Byte) : absorb (absorb c as) bs = absorb c (as ++ bs) := by
  have count : BitVec.ofNat 64 ((absorb c as).nbytes.toNat + bs.length) =
      BitVec.ofNat 64 (c.nbytes.toNat + (as ++ bs).length) := by
    apply BitVec.eq_of_toNat_eq
    simp only [absorb, BitVec.toNat_ofNat, List.length_append]
    omega
  rw [absorb, absorbBytes_absorb, count]
  rfl

/-- Byte 4i + j of the digest as digits of H[i]. -/
theorem digestOf_getD_toNat (h : Hash8) {i j : Nat} (hi : i < 8) (hj : j < 4) :
    ((digestOf h).toList.getD (4 * i + j) 0).toNat = (hashWord h i).toNat / 2 ^ (24 - 8 * j) % 256 := by
  rw [digestOf_getD h _ (by omega), show (4 * i + j) / 4 = i by omega, show (4 * i + j) % 4 = j by omega,
    BitVec.extractLsb'_toNat, Nat.shiftRight_eq_div_pow]

theorem hashWord_eq_getD (h : Hash8) {i : Nat} (hi : i < 8) :
    hashWord h i = [h.h0, h.h1, h.h2, h.h3, h.h4, h.h5, h.h6, h.h7].getD i 0 := by
  match i, hi with
  | 0, _ | 1, _ | 2, _ | 3, _ | 4, _ | 5, _ | 6, _ | 7, _ => rfl

theorem shaFinish_phase (c : ShaCtx) : (shaFinish c).phase = .finalized := rfl

theorem shaFinish_nbytes (c : ShaCtx) : (shaFinish c).nbytes = c.nbytes := absorbBytes_nbytes c _

/-- The padding completes the last block (R151). -/
theorem shaFinish_fill {c : ShaCtx} (linked : c.fill.toNat = c.nbytes.toNat % 64) : (shaFinish c).fill = 0 := by
  have whole := add_shaPad_length_mod c.nbytes.toNat
  have fill : (shaFinish c).fill.toNat = (c.fill.toNat + (shaPad c.nbytes.toNat).length) % 64 := absorbBytes_fill c _
  refine BitVec.eq_of_toNat_eq (fill.trans ?_)
  rw [BitVec.ofNat_eq_ofNat, BitVec.toNat_zero]
  omega

/-! ### The commands, case by case -/

@[simp] theorem State.done_sha (s : State) (op : Byte) (m : Bool) : (s.done op m).sha = s.sha := by simp [State.done]

@[simp] theorem State.done_digest (s : State) (op : Byte) (m : Bool) : (s.done op m).digest = s.digest := by
  simp [State.done]

theorem shaStatWord_shaStart : shaStatWord shaStart = 0x00000001 := by decide

theorem exec_shaInit (s : State) : exec .shaInit s = .next (({ s with sha := shaStart } : State).done 0x30 false) := rfl

section
variable {s : State}

theorem exec_shaUpdate_outside (outside : s.cfg.bufSize < s.argNat 0 + s.argNat 1) :
    exec .shaUpdate s = .next (s.raise 0x31 .badRange) := by
  have range : ¬ s.rangeOk (s.argNat 0) (s.argNat 1) = true := by rw [State.rangeOk_iff]; omega
  rw [exec, execShaUpdate, if_neg range]

theorem exec_shaUpdate_inactive (inside : s.argNat 0 + s.argNat 1 ≤ s.cfg.bufSize) (inactive : s.sha.phase ≠ .active) :
    exec .shaUpdate s = .next (s.raise 0x31 .shaState) := by
  rw [exec, execShaUpdate, if_pos ((s.rangeOk_iff _ _).mpr inside), if_neg inactive]

theorem exec_shaUpdate_tooLong (inside : s.argNat 0 + s.argNat 1 ≤ s.cfg.bufSize) (active : s.sha.phase = .active)
    (long : shaMaxBytes < s.sha.nbytes.toNat + s.argNat 1) : exec .shaUpdate s = .next (s.raise 0x31 .shaLength) := by
  rw [exec, execShaUpdate, if_pos ((s.rangeOk_iff _ _).mpr inside), if_pos active, if_pos long]

theorem exec_shaUpdate_absorbs (inside : s.argNat 0 + s.argNat 1 ≤ s.cfg.bufSize) (active : s.sha.phase = .active)
    (short : s.sha.nbytes.toNat + s.argNat 1 ≤ shaMaxBytes) : exec .shaUpdate s =
      .next (({ s with sha := absorb s.sha (s.bufRead (s.argNat 0) (s.argNat 1)) } : State).done 0x31 false) := by
  rw [exec, execShaUpdate, if_pos ((s.rangeOk_iff _ _).mpr inside), if_pos active, if_neg (by omega)]

theorem exec_shaFinal_inactive (inactive : s.sha.phase ≠ .active) :
    exec .shaFinal s = .next (s.raise 0x32 .shaState) := by
  rw [exec, execShaFinal, if_neg inactive]

theorem exec_shaFinal_active (active : s.sha.phase = .active) : exec .shaFinal s =
    .next (({ s with sha := shaFinish s.sha, digest := digestOf (shaFinish s.sha).h } : State).done 0x32 false) := by
  rw [exec, execShaFinal, if_pos active]

end

/-- Settles O35: SHA_INIT has one outcome, whatever the phase. -/
theorem shaInitStartsStream : Obligations.ShaInitStartsStream := by
  intro s
  have run := exec_shaInit s
  refine ⟨_, run, State.done_ownStatus _ _ _, commandFrame _ _ _ run, State.done_sha _ _ _, ?_⟩
  rw [State.readReg, State.done_sha, shaStatWord_shaStart]

/-- Settles O36: each clause's premises pick one case of the command; what is absorbed is `absorbBytes_blocks`, and
`absorbBytes_inside` while one block holds it. -/
theorem shaUpdateAbsorbsRange : Obligations.ShaUpdateAbsorbsRange := by
  intro s off len fill fed
  obtain ⟨t, run⟩ := exec_runs .shaUpdate s
  have answer {u : State} (h : exec .shaUpdate s = .next u) : t = u := Host.Outcome.next.inj (run.symm.trans h)
  refine ⟨t, run, fun outside => answer (exec_shaUpdate_outside outside),
    fun inside inactive => answer (exec_shaUpdate_inactive inside inactive),
    fun inside active => ⟨fun long => answer (exec_shaUpdate_tooLong inside active long), fun short => ?_⟩⟩
  have completed := answer (exec_shaUpdate_absorbs inside active short)
  have sha : t.sha = absorb s.sha (s.bufRead off len) := by rw [completed, State.done_sha]; rfl
  have size : (s.bufRead off len).length = len := s.bufRead_length off len
  obtain ⟨chained, rest⟩ := absorbBytes_blocks s.sha (s.bufRead off len)
  have count : t.sha.nbytes.toNat = s.sha.nbytes.toNat + len := by
    rw [sha, absorb_nbytes_toNat (by rwa [size]), size]
  have filled : t.sha.fill.toNat = (fill + len) % 64 := by
    rw [sha, absorb, absorbBytes_fill, size]
  rw [size] at chained rest
  refine ⟨by rw [completed, State.done_ownStatus]; rfl, commandFrame _ _ _ run, ?_, sha, count, filled, ?_, ?_,
    fun within => ?_⟩
  · rw [sha, absorb_phase, active]
  · rw [sha]
    exact chained
  · rw [sha]
    exact rest
  · obtain ⟨stored, hash⟩ := absorbBytes_inside s.sha (s.bufRead off len) (by rwa [size])
    rw [stored, size] at hash
    rw [size] at stored
    rw [sha]
    exact ⟨stored, hash⟩

/-- Settles O37: the two cases of the command, the digest read by `digestOf_getD_toNat`. -/
theorem shaFinalProducesDigest : Obligations.ShaFinalProducesDigest := by
  intro s
  by_cases active : s.sha.phase = .active
  · have run := exec_shaFinal_active active
    refine ⟨_, run, fun inactive => absurd active inactive, fun _ => ⟨State.done_ownStatus _ _ _,
      commandFrame _ _ _ run, ?_⟩⟩
    simp only [State.done_sha, State.done_digest]
    refine ⟨shaFinish_phase _, shaFinish_nbytes _, rfl, shaFinish_fill, fun i hi j hj => ?_⟩
    rw [digestOf_getD_toNat _ hi hj, hashWord_eq_getD _ hi]
  · exact ⟨_, exec_shaFinal_inactive active, fun _ => rfl, fun h => absurd h active⟩

/-! ### A stream of commands (R153) -/

/-- A SHA_UPDATE that ends with OK = 1 has absorbed its range, within R154's bound. -/
theorem exec_shaUpdate_absorbs_of_statusOk {s t : State} (run : exec .shaUpdate s = .next t)
    (ok : statusOk t.ownStatus = true) :
    s.sha.nbytes.toNat + s.argNat 1 ≤ shaMaxBytes ∧ t.sha = absorb s.sha (s.bufRead (s.argNat 0) (s.argNat 1)) := by
  rcases exec_cases run with ⟨e, -, rfl⟩ | ⟨u, m, completes, rfl⟩
  · rw [State.raise_ownStatus, statusOk_statusError] at ok
    cases ok
  · cases completes with
    | shaUpdate range active short => exact ⟨short, State.done_sha _ _ _⟩

theorem absorb_shaStart_nbytes_toNat {m : List Byte} (bound : m.length ≤ shaMaxBytes) :
    (absorb shaStart m).nbytes.toNat = m.length := by
  have empty : shaStart.nbytes.toNat = 0 := rfl
  rw [absorb_nbytes_toNat (by rwa [empty, Nat.zero_add]), empty, Nat.zero_add]

/-- Between its commands a stream's context is that of absorbing at once all it has been fed. -/
theorem StreamRun.sha_eq_absorb {m : List Byte} {s : State} (stream : StreamRun m s) :
    m.length ≤ shaMaxBytes ∧ s.sha = absorb shaStart m := by
  induction stream with
  | init s t run =>
    cases run
    exact ⟨Nat.zero_le _, State.done_sha _ _ _⟩
  | between m s t _ same ih => rwa [same]
  | update m s t _ run ok ih =>
    obtain ⟨bound, sha⟩ := ih
    obtain ⟨short, absorbed⟩ := exec_shaUpdate_absorbs_of_statusOk run ok
    rw [sha, absorb_shaStart_nbytes_toNat bound] at short
    refine ⟨by rwa [List.length_append, State.bufRead_length], ?_⟩
    rw [absorbed, sha, absorb_absorb]

/-- Padding a stream's context ends in the chaining value of the one-shot digest. -/
theorem digestOf_shaFinish_absorb {m : List Byte} (bound : m.length ≤ shaMaxBytes) :
    digestOf (shaFinish (absorb shaStart m)).h = sha256 m := by
  rw [shaFinish, absorb_shaStart_nbytes_toNat bound, absorbBytes_absorb, sha256]

/-- Settles O38: SHA_FINAL pads the context the stream has built up. -/
theorem shaStreamIsOneShot : Obligations.ShaStreamIsOneShot := by
  intro m s stream
  obtain ⟨bound, sha⟩ := stream.sha_eq_absorb
  have active : s.sha.phase = .active := by
    rw [sha, absorb_phase]
    rfl
  refine ⟨_, exec_shaFinal_active active, ?_, ?_, State.done_ownStatus _ _ _⟩
  · rw [State.done_digest, sha]
    exact digestOf_shaFinish_absorb bound
  · rw [State.done_sha]
    exact shaFinish_phase _

end Sys2Proof.Machine

/-! The HMAC-SHA256 controller: the function of R170 written out, and its two commands on every state
(spec/42_hmac.md). -/

namespace Sys2Proof.Machine

/-! ### The function and the comparison -/

/-- R170 written out: K0 is the key and 32 zero bytes, and ipad and opad are 0x36 and 0x5C. -/
theorem hmacSha256_eq_nested (key : Vector Byte 32) (m : List Byte) : hmacSha256 key m =
    sha256 ((key.toList ++ List.replicate 32 0#8).map (fun b => b ^^^ 0x5C#8) ++
      (sha256 ((key.toList ++ List.replicate 32 0#8).map (fun b => b ^^^ 0x36#8) ++ m)).toList) := rfl

theorem tagBytes_le (tag32 : Bool) : tagBytes tag32 ≤ 32 := by cases tag32 <;> decide

/-- MATCH of HMAC_VERIFY: every byte of the computed tag and of the one in BUF takes part (R173, R174). -/
theorem State.tagMatches_iff (s : State) (tag32 : Bool) : s.tagMatches tag32 = true ↔
    (hmacSha256 s.key (s.bufRead (s.argNat 0) (s.argNat 1))).toList.take (tagBytes tag32) =
      s.bufRead (s.argNat 2) (tagBytes tag32) := by
  have held : (s.bufRead (s.argNat 2) (tagBytes tag32)).length = tagBytes tag32 := s.bufRead_length _ _
  rw [State.tagMatches, ctEqual_iff _ _ _ (by rw [Vector.length_toList]; exact tagBytes_le tag32) held.ge,
    List.take_of_length_le held.le]

/-! ### The commands, case by case -/

theorem statusDone_hmacVerify (m : Bool) : statusDone 0x41 m = if m then 0x00410007 else 0x00410005 := by
  cases m <;> rfl

section
variable {s : State}

theorem State.not_rangeOk {off len : Nat} (outside : s.cfg.bufSize < off + len) : ¬ s.rangeOk off len = true := by
  rw [State.rangeOk_iff]
  omega

theorem exec_hmacCompute_outside (outside : s.cfg.bufSize < s.argNat 0 + s.argNat 1) :
    exec .hmacCompute s = .next (s.raise 0x40 .badRange) := by
  rw [exec, execHmacCompute, if_neg (State.not_rangeOk outside)]

theorem exec_hmacCompute_inside (inside : s.argNat 0 + s.argNat 1 ≤ s.cfg.bufSize) : exec .hmacCompute s =
    .next (({ s with sha := ShaCtx.reset,
                     digest := hmacSha256 s.key (s.bufRead (s.argNat 0) (s.argNat 1)) } : State).done 0x40 false) := by
  rw [exec, execHmacCompute, if_pos ((s.rangeOk_iff _ _).mpr inside)]
  rfl

/-- Both range errors of HMAC_VERIFY have the same effect, so their order does not show. -/
theorem exec_hmacVerify_outside {tag32 : Bool} (outside : s.cfg.bufSize < s.argNat 0 + s.argNat 1 ∨
    s.cfg.bufSize < s.argNat 2 + tagBytes tag32) :
    exec (.hmacVerify tag32) s = .next (s.raise 0x41 .badRange) := by
  rw [exec, execHmacVerify]
  rcases outside with message | tag
  · rw [if_neg (State.not_rangeOk message)]
  · rw [if_neg (State.not_rangeOk tag), ite_self]

theorem exec_hmacVerify_inside {tag32 : Bool} (message : s.argNat 0 + s.argNat 1 ≤ s.cfg.bufSize)
    (tag : s.argNat 2 + tagBytes tag32 ≤ s.cfg.bufSize) : exec (.hmacVerify tag32) s =
      .next (({ s with sha := ShaCtx.reset } : State).done 0x41 (s.tagMatches tag32)) := by
  rw [exec, execHmacVerify, if_pos ((s.rangeOk_iff _ _).mpr message), if_pos ((s.rangeOk_iff _ _).mpr tag)]
  rfl

end

/-- Settles O41: the two cases of the command, the digest by `hmacSha256_eq_nested`. -/
theorem hmacComputeWritesTag : Obligations.HmacComputeWritesTag := by
  intro s off len k0 inner
  rcases Nat.lt_or_ge s.cfg.bufSize (off + len) with outside | inside
  · exact ⟨_, exec_hmacCompute_outside outside, fun _ => rfl, fun inside => absurd outside inside.not_gt⟩
  · have run := exec_hmacCompute_inside inside
    exact ⟨_, run, fun outside => absurd outside inside.not_gt, fun _ => ⟨State.done_ownStatus _ _ _,
      commandFrame _ _ _ run, State.done_sha _ _ _, (State.done_digest _ _ _).trans (hmacSha256_eq_nested _ _)⟩⟩

/-- Settles O42: either range outside BUF is an error; else MATCH is `State.tagMatches_iff`. -/
theorem hmacVerifyComparesTag : Obligations.HmacVerifyComparesTag := by
  intro s tag32 moff mlen toff n
  by_cases outside : s.cfg.bufSize < moff + mlen ∨ s.cfg.bufSize < toff + n
  · exact ⟨_, exec_hmacVerify_outside outside, fun _ => rfl, fun message tag => by omega⟩
  · obtain ⟨message, tag⟩ : moff + mlen ≤ s.cfg.bufSize ∧ toff + n ≤ s.cfg.bufSize := by omega
    have run := exec_hmacVerify_inside message tag
    refine ⟨_, run, fun h => absurd h outside, fun _ _ => ⟨commandFrame _ _ _ run, State.done_sha _ _ _, ?_⟩⟩
    rw [State.done_ownStatus, statusDone_hmacVerify]
    exact if_congr (s.tagMatches_iff tag32) rfl rfl

end Sys2Proof.Machine

/-! The clock unit: NOW_RAW and WALL_SECONDS on every state, and runs of Timebase ticks and clock reads
(spec/43_clock.md). -/

namespace Sys2Proof.Machine

/-! ### The wrap extension over the naturals (R192) -/

/-- NowRaw()'s value from the extension after the parity step. -/
theorem nowRawValue_snd_toNat (e : BitVec 49) (prev : DWord) (c : BitVec 16) : (nowRawValue e prev c).2.toNat =
    if (halfWrapStep e c).toNat * 2 ^ 15 + c.toNat % 2 ^ 15 < prev.toNat
      then ((halfWrapStep e c).toNat * 2 ^ 15 + c.toNat % 2 ^ 15 + 0x10000) % 2 ^ 64
      else (halfWrapStep e c).toNat * 2 ^ 15 + c.toNat % 2 ^ 15 := by
  rw [halfWrapStep_toNat]
  exact (nowRawValue_toNat e prev c).2

/-- NowRaw() returns {E', c[14:0]}, after a recovery too. -/
theorem nowRawValue_concat (e : BitVec 49) (prev : DWord) (c : BitVec 16) :
    (nowRawValue e prev c).2.toNat = (nowRawValue e prev c).1.toNat * 2 ^ 15 + c.toNat % 2 ^ 15 := by
  have high := nowRawValue_linked e prev c
  have low : (nowRawValue e prev c).2.toNat % 2 ^ 15 = c.toNat % 2 ^ 15 := by
    rw [nowRawValue_snd_toNat]
    split <;> omega
  omega

theorem le_halfWrapStep {e : BitVec 49} (c : BitVec 16) (below : e.toNat < 2 ^ 49 - 1) :
    e.toNat ≤ (halfWrapStep e c).toNat := by
  rw [halfWrapStep_toNat]
  split <;> omega

/-- R194: below the end of the range no read returns less than the one before. -/
theorem le_nowRawValue {e : BitVec 49} {prev : DWord} (c : BitVec 16) (linked : prev.toNat / 2 ^ 15 = e.toNat)
    (below : prev.toNat < 2 ^ 64 - 2 ^ 16) : prev.toNat ≤ (nowRawValue e prev c).2.toNat := by
  have extended := le_halfWrapStep c (show e.toNat < 2 ^ 49 - 1 by omega)
  rw [nowRawValue_snd_toNat]
  split <;> omega

/-- R194: a read that returns the value before it took neither the parity step nor the recovery. -/
theorem eq_of_nowRawValue_eq {e : BitVec 49} {prev : DWord} {c : BitVec 16} (linked : prev.toNat / 2 ^ 15 = e.toNat)
    (same : (nowRawValue e prev c).2 = prev) :
    c.toNat / 2 ^ 15 = e.toNat % 2 ∧ c.toNat % 2 ^ 15 = prev.toNat % 2 ^ 15 := by
  have concat := nowRawValue_concat e prev c
  obtain ⟨extension, -⟩ := nowRawValue_toNat e prev c
  rw [same] at concat
  have kept : (nowRawValue e prev c).1.toNat = e.toNat := by omega
  rw [kept] at extension
  refine ⟨?_, by omega⟩
  by_contra differs
  rw [if_neg differs] at extension
  split at extension <;> omega

theorem wallSeconds_toNat (off v : DWord) :
    (wallSeconds off v).toNat = (v.toNat / 1000000 + off.toNat) % 2 ^ 64 := by
  simp [wallSeconds, BitVec.toNat_add, BitVec.toNat_udiv]

/-! ### The commands that read the clock -/

@[simp] theorem State.done_clk (s : State) (op : Byte) (m : Bool) : (s.done op m).clk = s.clk := by simp [State.done]

@[simp] theorem State.nowRawState_setRes_ownRes (s : State) (v : DWord) :
    (s.nowRawState.setRes s.port v).ownRes = v := by simp [State.ownRes]

theorem exec_nowRaw (s : State) :
    exec .nowRaw s = .next ((s.nowRawState.setRes s.port s.nowRawResult).done 0x01 false) := rfl

theorem exec_wallSeconds (s : State) : exec .wallSeconds s =
    .next ((s.nowRawState.setRes s.port (wallSeconds s.clk.off s.nowRawResult)).done 0x02 false) := rfl

/-- What follows NowRaw() in the three commands leaves CLK.E and CLK.PREV as it wrote them. -/
theorem exec_clockRead {i : Instr} (s : State) (read : isClockRead i = true) :
    ∃ t, exec i s = .next t ∧ t.clk.e = (nowRawValue s.clk.e s.clk.prev s.hwCnt).1 ∧
      t.clk.prev = (nowRawValue s.clk.e s.clk.prev s.hwCnt).2 := by
  cases i with
  | nowRaw => exact ⟨_, exec_nowRaw s, by simp, by simp [State.nowRawResult]⟩
  | wallSeconds => exact ⟨_, exec_wallSeconds s, by simp, by simp [State.nowRawResult]⟩
  | dcfSample lvl tsrc =>
    obtain rfl : tsrc = true := read
    have frame := (s.nowRawState.setRes s.port s.nowRawResult).dcfFrame_dcfSampleAt lvl s.nowRawResult
    exact ⟨_, rfl, by simp [frame.e], (State.done_clk _ _ _ ▸ frame.prev).trans (by simp [State.nowRawResult])⟩
  | _ => cases read

/-- Settles O14: the new clock by `nowRawValue_toNat`, and its link by `nowRawValue_concat`. -/
theorem nowRawExtendsCounter : Obligations.NowRawExtendsCounter := by
  intro s e c e1 v0 v e2
  obtain ⟨extension, value⟩ : (nowRawValue s.clk.e s.clk.prev s.hwCnt).1.toNat = e2 ∧
      (nowRawValue s.clk.e s.clk.prev s.hwCnt).2.toNat = v := nowRawValue_toNat s.clk.e s.clk.prev s.hwCnt
  have concat := nowRawValue_concat s.clk.e s.clk.prev s.hwCnt
  rw [extension, value] at concat
  refine ⟨concat, _, exec_nowRaw s, ?_, ?_, ?_, State.done_ownStatus _ _ _, commandFrame _ _ _ (exec_nowRaw s)⟩
  · rw [State.done_ownRes, State.nowRawState_setRes_ownRes]
    exact value
  · rw [State.done_clk, State.setRes_clk]
    exact value
  · rw [State.done_clk, State.setRes_clk]
    exact extension

/-- Settles O15: both commands leave NowRaw()'s clock, and RES differs by `wallSeconds`. -/
theorem wallSecondsAddsOffset : Obligations.WallSecondsAddsOffset := by
  intro s
  refine ⟨_, _, exec_wallSeconds s, exec_nowRaw s, by simp, ?_, State.done_ownStatus _ _ _,
    commandFrame _ _ _ (exec_wallSeconds s)⟩
  simp only [State.done_ownRes, State.nowRawState_setRes_ownRes]
  exact wallSeconds_toNat _ _

/-- Settles O17: NowRaw()'s value is CLK.PREV after each of the three commands. -/
theorem clockNeverDecreases : Obligations.ClockNeverDecreases := by
  intro i s read linked below
  obtain ⟨t, run, -, prev⟩ := exec_clockRead s read
  refine ⟨t, run, ?_, fun same => eq_of_nowRawValue_eq linked (prev.symm.trans same)⟩
  rw [prev]
  exact le_nowRawValue s.hwCnt linked below

/-! ### Runs of ticks and clock reads -/

/-- s after n Timebase ticks. -/
def State.ticked (s : State) (n : Nat) : State := { s with hwCnt := s.hwCnt + BitVec.ofNat 16 n }

theorem State.ticked_hwCnt_toNat (s : State) (n : Nat) : (s.ticked n).hwCnt.toNat = (s.hwCnt.toNat + n) % 2 ^ 16 := by
  simp [State.ticked, BitVec.toNat_add]

theorem State.ticked_ticked (s : State) (m n : Nat) : (s.ticked m).ticked n = s.ticked (m + n) := by
  simp [State.ticked, BitVec.ofNat_add, BitVec.add_assoc]

/-- Whole wraps of the counter leave no trace (R200). -/
theorem State.ticked_wraps (s : State) (k : Nat) : s.ticked (k * 2 ^ 16) = s := by
  have wrapped : BitVec.ofNat 16 (k * 2 ^ 16) = 0#16 := by
    apply BitVec.eq_of_toNat_eq
    simp
  rw [State.ticked, wrapped, BitVec.add_zero]

/-- Ticks taken from the inbox one by one. -/
theorem run_ticks (n k : Nat) (s : State) {rest : List Event} (pending : s.inbox = List.replicate n .tick ++ rest) :
    Host.Core.run Sys2Proof.core (n + k) s = Host.Core.run Sys2Proof.core k ((s.ticked n).withInbox rest) := by
  induction n generalizing s with
  | zero =>
    obtain rfl : s.inbox = rest := pending
    simp [State.ticked, State.withInbox]
  | succ n ih =>
    have first : step s = .next ((s.ticked 1).withInbox (List.replicate n .tick ++ rest)) := step_cons s _ _ pending
    have together : ((s.ticked 1).withInbox (List.replicate n .tick ++ rest)).ticked n =
        (s.ticked (n + 1)).withInbox (List.replicate n .tick ++ rest) := by
      rw [Nat.add_comm n 1, ← State.ticked_ticked]
      rfl
    rw [Nat.add_right_comm, run_succ_of_step _ first, ih _ rfl, together]
    rfl

/-- The step of a pending command that completes, and what no command changes. -/
theorem step_of_exec {s t : State} {m : Master} {p : Port} {i : Instr} {rest : List Event} (running : s.rst = false)
    (pending : s.inbox = cmdWrite s.cfg m p (encode i) :: rest) (run : exec i (s.taken m p rest) = .next t) :
    step s = .next t ∧ t.inbox = rest ∧ t.cfg = s.cfg ∧ t.rst = false ∧ t.hwCnt = s.hwCnt := by
  have keeps := commandFrame _ _ _ run
  exact ⟨(step_of_decode running pending (decode_encode i)).trans run, keeps.inbox, keeps.cfg,
    keeps.rst.trans running, keeps.hwCnt⟩

/-- The premises of R193 at the count n: the counter shows n, CLK.E is ⌊n / 2^15⌋, and no read has returned more than
n. They hold from the clock unit's reset at n = c_r, and after each exact read. -/
structure State.CountsAt (s : State) (n : Nat) : Prop where
  running : s.rst = false
  counter : s.hwCnt.toNat = n % 2 ^ 16
  extension : s.clk.e.toNat = n / 2 ^ 15
  prev : s.clk.prev.toNat ≤ n

/-- A clock read fewer than 2^15 ticks after the count n returns the count exactly (R193). -/
theorem State.CountsAt.run_clockRead {s : State} {n g : Nat} {p : Port} {i : Instr} {rest : List Event}
    (atCount : s.CountsAt n) (soon : g < 2 ^ 15) (read : isClockRead i = true) (bound : n + g < 2 ^ 64)
    (pending : s.inbox = List.replicate g .tick ++ cmdWrite s.cfg .main p (encode i) :: rest) (k : Nat) :
    ∃ t, Host.Core.run Sys2Proof.core (g + (k + 1)) s = Host.Core.run Sys2Proof.core k t ∧ t.inbox = rest ∧
      t.cfg = s.cfg ∧ t.clk.prev.toNat = n + g ∧ t.CountsAt (n + g) := by
  obtain ⟨running, counter, extension, prev⟩ := atCount
  have ticked : (s.ticked g).hwCnt.toNat = (n + g) % 2 ^ 16 := by
    rw [State.ticked_hwCnt_toNat, counter]
    omega
  obtain ⟨t, run, e, v⟩ :=
    exec_clockRead (((s.ticked g).withInbox (cmdWrite s.cfg .main p (encode i) :: rest)).taken .main p rest) read
  obtain ⟨command, inboxT, cfgT, runningT, counterT⟩ := step_of_exec (s := (s.ticked g).withInbox _) running rfl run
  obtain ⟨exactE, exactV⟩ : t.clk.e.toNat = (n + g) / 2 ^ 15 ∧ t.clk.prev.toNat = n + g := by
    rw [e, v]
    exact nowRawValue_exact _ _ _ n g extension prev soon ticked bound
  refine ⟨t, ?_, inboxT, cfgT, exactV, runningT, ?_, exactE, exactV.le⟩
  · rw [run_ticks g (k + 1) s pending, run_succ_of_step k command]
  · rw [counterT]
    exact ticked

/-- R193 along a schedule: each read returns the count exactly, and the next one starts from it. -/
theorem State.CountsAt.run_schedule {s : State} {n : Nat} {l : ClockSchedule} (atCount : s.CountsAt n)
    (soon : ∀ x ∈ l, x.1 < 2 ^ 15 ∧ isClockRead x.2.2 = true) (bound : n + clockTicks l < 2 ^ 64)
    (pending : s.inbox = clockEvents s.cfg l) :
    ∃ t, Host.Core.run Sys2Proof.core s.inbox.length s = .next t ∧ t.inbox = [] ∧ t.CountsAt (n + clockTicks l) ∧
      (l ≠ [] ∨ s.clk.prev.toNat = n → t.clk.prev.toNat = n + clockTicks l) := by
  induction l generalizing s n with
  | nil =>
    refine ⟨s, by rw [pending]; rfl, pending, atCount, ?_⟩
    rintro (nonempty | exactStart)
    · exact absurd rfl nonempty
    · exact exactStart
  | cons x l ih =>
    obtain ⟨g, p, i⟩ := x
    have ticks : n + clockTicks ((g, p, i) :: l) = n + g + clockTicks l := by simp [clockTicks, Nat.add_assoc]
    rw [ticks] at bound ⊢
    obtain ⟨⟨first, read⟩, later⟩ := List.forall_mem_cons.mp soon
    obtain ⟨u, run, inbox, cfg, prev, atNext⟩ :=
      atCount.run_clockRead first read (by omega) pending (clockEvents s.cfg l).length
    obtain ⟨t, rest, idle, atEnd, exactEnd⟩ := ih atNext later bound (by rw [inbox, cfg])
    refine ⟨t, ?_, idle, atEnd, fun _ => exactEnd (.inr prev)⟩
    rw [pending, clockEvents, List.length_append, List.length_replicate, List.length_cons, run, ← rest, inbox]

/-- Settles O18: at reset the clock unit stands at the count c_r, which is below 2^15. -/
theorem clockReadsAreExact : Obligations.ClockReadsAreExact := by
  intro s l running e prev small nonempty soon bound pending
  have atReset : s.CountsAt s.hwCnt.toNat := by
    refine ⟨running, by omega, ?_, ?_⟩
    · rw [e, Nat.div_eq_of_lt small]
      rfl
    · rw [prev]
      exact Nat.zero_le _
  obtain ⟨t, run, idle, atEnd, exactEnd⟩ := atReset.run_schedule soon bound pending
  exact ⟨t, run, idle, exactEnd (.inl nonempty), atEnd.extension⟩

/-- A read of a clock unit that NowRaw() has just written, with the counter as it was, changes nothing (R195). -/
theorem State.nowRawState_clk_again {s t : State} (clk : t.clk = s.nowRawState.clk) (counter : t.hwCnt = s.hwCnt) :
    t.nowRawState.clk = t.clk ∧ t.nowRawResult = s.nowRawResult := by
  have again : nowRawValue t.clk.e t.clk.prev t.hwCnt = nowRawValue s.clk.e s.clk.prev s.hwCnt := by
    rw [clk, counter]
    exact nowRawValue_again s.clk.e s.clk.prev s.hwCnt
  refine ⟨?_, congrArg Prod.snd again⟩
  rw [State.nowRawState, State.nowRawResult, again, clk]
  rfl

/-- NOW_RAW written to a port, with its value in RES. -/
theorem step_nowRaw {s : State} {p : Port} {rest : List Event} (running : s.rst = false)
    (pending : s.inbox = cmdWrite s.cfg .main p (encode .nowRaw) :: rest) :
    ∃ t, step s = .next t ∧ t.clk = s.nowRawState.clk ∧ t.ownRes = s.nowRawResult ∧ t.ownStatus = 0x00010005 ∧
      t.inbox = rest ∧ t.cfg = s.cfg ∧ t.rst = false ∧ t.hwCnt = s.hwCnt := by
  have run := exec_nowRaw (s.taken .main p rest)
  obtain ⟨stepped, kept⟩ := step_of_exec running pending run
  refine ⟨_, stepped, ?_, ?_, State.done_ownStatus _ _ _, kept⟩
  · rw [State.done_clk, State.setRes_clk]
    rfl
  · rw [State.done_ownRes, State.nowRawState_setRes_ownRes]
    rfl

/-- Settles O19: the wraps leave the counter as the first read found it. -/
theorem wholeWrapsAreLost : Obligations.WholeWrapsAreLost := by
  intro s p k running pending
  obtain ⟨u, first, clkU, resU, -, inboxU, cfgU, runningU, counterU⟩ := step_nowRaw running pending
  have wraps := run_ticks (k * 2 ^ 16) 1 u inboxU
  rw [u.ticked_wraps, ← cfgU] at wraps
  obtain ⟨t, second, clkT, resT, statusT, inboxT, -⟩ :=
    step_nowRaw (s := u.withInbox [cmdWrite u.cfg .main p (encode .nowRaw)]) runningU rfl
  obtain ⟨clkAgain, resAgain⟩ := State.nowRawState_clk_again clkU counterU
  refine ⟨u, t, first, ?_, inboxT, resT.trans (resAgain.trans resU.symm), clkT.trans clkAgain, statusT⟩
  rw [pending, List.length_cons, List.length_append, List.length_replicate, List.length_singleton,
    run_succ_of_step _ first, wraps, run_succ_of_step 0 second]
  rfl

end Sys2Proof.Machine

/-! The calendar: the length of a year, and the day after a date (spec/44_calendar.md). -/

namespace Sys2Proof.Machine

/-! ### DaysSinceEpoch -/

theorem isLeap_iff (y : Nat) : isLeap y = true ↔ y % 4 = 0 ∧ (y % 100 ≠ 0 ∨ y % 400 = 0) := by
  simp [isLeap]

/-- Days of a year (R210, R211). -/
def yearDays (y : Nat) : Nat := if isLeap y then 366 else 365

/-- How many of the years from 2000 to y - 1 the divisor k of 2000 divides. -/
def multiplesSince2000 (k y : Nat) : Nat := (y - 2000 + (k - 1)) / k

theorem multiplesSince2000_succ {k y : Nat} (pos : 0 < k) (divides : k ∣ 2000) (from2000 : 2000 ≤ y) :
    multiplesSince2000 k (y + 1) = multiplesSince2000 k y + (if y % k = 0 then 1 else 0) := by
  have shift : y + 1 - 2000 + (k - 1) = y - 2000 + (k - 1) + 1 := by omega
  have counted : k ∣ y - 2000 + (k - 1) + 1 ↔ y % k = 0 := by
    have sum : y - 2000 + (k - 1) + 1 = y - 2000 + k := by omega
    rw [sum, Nat.dvd_add_self_right, Nat.dvd_sub_iff_left from2000 divides, Nat.dvd_iff_mod_eq_zero]
  rw [multiplesSince2000, shift, Nat.succ_div, multiplesSince2000, if_congr counted rfl rfl]

/-- R211 without its truncated subtraction. -/
theorem daysSinceEpoch_add_centuries (y : Nat) :
    daysSinceEpoch y + multiplesSince2000 100 y =
      365 * (y - 2000) + multiplesSince2000 4 y + multiplesSince2000 400 y := by
  simp only [daysSinceEpoch, multiplesSince2000]
  omega

/-- R210 as a count: a year has a leap day when 4 divides it, less when 100 does, and again when 400 does. -/
theorem yearDays_eq (y : Nat) :
    yearDays y + (if y % 100 = 0 then 1 else 0) =
      365 + (if y % 4 = 0 then 1 else 0) + (if y % 400 = 0 then 1 else 0) := by
  simp only [yearDays, isLeap_iff]
  split_ifs <;> omega

theorem daysSinceEpoch_succ {y : Nat} (from2000 : 2000 ≤ y) :
    daysSinceEpoch (y + 1) = daysSinceEpoch y + yearDays y := by
  have after := daysSinceEpoch_add_centuries (y + 1)
  have before := daysSinceEpoch_add_centuries y
  have fourths := multiplesSince2000_succ (k := 4) (by decide) (by decide) from2000
  have centuries := multiplesSince2000_succ (k := 100) (by decide) (by decide) from2000
  have cycles := multiplesSince2000_succ (k := 400) (by decide) (by decide) from2000
  have year := yearDays_eq y
  omega

theorem daysSinceEpoch_add_400 {y : Nat} (from2000 : 2000 ≤ y) :
    daysSinceEpoch (y + 400) = daysSinceEpoch y + 146097 := by
  simp only [daysSinceEpoch]
  omega

/-- Settles O31: the year increment and the 400-year cycle, from the closed form of R211. -/
theorem daysSinceEpochCycle : Obligations.DaysSinceEpochCycle :=
  ⟨rfl, fun _ from2000 => ⟨daysSinceEpoch_succ from2000, daysSinceEpoch_add_400 from2000⟩⟩

/-! ### DayOfYear: the days of a year are counted from 1 without a gap -/

theorem dayOfYear_succ (y m d : Nat) : dayOfYear y m (d + 1) = dayOfYear y m d + 1 := by
  simp only [dayOfYear]
  omega

theorem dayOfYear_newYear (y : Nat) : dayOfYear y 1 1 = 1 := by
  simp [dayOfYear, cumDays]

/-- The table of R212 and the leap day of R213 agree with the lengths of the months. -/
theorem dayOfYear_nextMonth (y : Nat) {m : Nat} (first : 1 ≤ m) (last : m < 12) :
    dayOfYear y (m + 1) 1 = dayOfYear y m (monthDays y m) + 1 := by
  interval_cases m <;> cases leap : isLeap y <;> simp [dayOfYear, monthDays, cumDays, leap]

theorem dayOfYear_newYearsEve (y : Nat) : dayOfYear y 12 (monthDays y 12) = yearDays y := by
  cases leap : isLeap y <;> simp [dayOfYear, monthDays, cumDays, yearDays, leap]

theorem monthDays_pos (y : Nat) {m : Nat} (first : 1 ≤ m) (last : m ≤ 12) : 1 ≤ monthDays y m := by
  interval_cases m <;> cases leap : isLeap y <;> simp [monthDays, leap]

/-! ### The day after a date -/

/-- The day after a date is the next day of its month, the first of the next month, or New Year's Day. -/
theorem nextDate_cases {y m d : Nat} (valid : validDate y m d) :
    d < monthDays y m ∧ nextDate y m d = (y, m, d + 1) ∨
    d = monthDays y m ∧ m < 12 ∧ nextDate y m d = (y, m + 1, 1) ∨
    d = monthDays y m ∧ m = 12 ∧ nextDate y m d = (y + 1, 1, 1) := by
  obtain ⟨-, monthLe, -, dayLe⟩ := valid
  obtain inMonth | lastDay := Nat.lt_or_eq_of_le dayLe
  · exact .inl ⟨inMonth, if_pos inMonth⟩
  · have monthOver : ¬ d < monthDays y m := lastDay.not_lt
    obtain inYear | december := Nat.lt_or_eq_of_le monthLe
    · exact .inr (.inl ⟨lastDay, inYear, by rw [nextDate, if_neg monthOver, if_pos inYear]⟩)
    · exact .inr (.inr ⟨lastDay, december, by rw [nextDate, if_neg monthOver, if_neg december.not_lt]⟩)

theorem validDate_nextDate {y m d : Nat} (valid : validDate y m d) :
    validDate (nextDate y m d).1 (nextDate y m d).2.1 (nextDate y m d).2.2 := by
  obtain ⟨inMonth, next⟩ | ⟨-, inYear, next⟩ | ⟨-, -, next⟩ := nextDate_cases valid
  · obtain ⟨monthGe, monthLe, -⟩ := valid
    rw [next]
    exact ⟨monthGe, monthLe, Nat.le_add_left 1 d, inMonth⟩
  · rw [next]
    exact ⟨Nat.le_add_left 1 m, inYear, le_rfl, monthDays_pos y (Nat.le_add_left 1 m) inYear⟩
  · rw [next]
    exact ⟨le_rfl, Nat.one_le_ofNat, le_rfl, monthDays_pos (y + 1) le_rfl Nat.one_le_ofNat⟩

/-- R214 without its truncated subtraction. -/
theorem dayNumber_add_one {y m d : Nat} (dayGe : 1 ≤ d) :
    dayNumber y m d + 1 = daysSinceEpoch y + dayOfYear y m d := by
  have counted : 1 ≤ dayOfYear y m d := by
    simp only [dayOfYear]
    omega
  simp only [dayNumber]
  omega

theorem dayNumber_nextDate {y m d : Nat} (from2000 : 2000 ≤ y) (valid : validDate y m d) :
    dayNumber (nextDate y m d).1 (nextDate y m d).2.1 (nextDate y m d).2.2 = dayNumber y m d + 1 := by
  have ⟨monthGe, _, dayGe, _⟩ := valid
  obtain ⟨-, -, nextGe, -⟩ := validDate_nextDate valid
  have today := dayNumber_add_one (y := y) (m := m) dayGe
  apply Nat.add_right_cancel (m := 1)
  rw [dayNumber_add_one nextGe, today]
  obtain ⟨-, next⟩ | ⟨lastDay, inYear, next⟩ | ⟨lastDay, december, next⟩ := nextDate_cases valid
  · rw [next, dayOfYear_succ, Nat.add_assoc]
  · rw [next, dayOfYear_nextMonth y monthGe inYear, lastDay, Nat.add_assoc]
  · rw [next, dayOfYear_newYear, daysSinceEpoch_succ from2000, lastDay, december, dayOfYear_newYearsEve]

/-- Settles O30: the weekday and the timestamp follow the day number, which the next date raises by one. -/
theorem calendarCountsDays : Obligations.CalendarCountsDays := by
  refine ⟨by decide, fun y m d from2000 valid => ?_⟩
  have number := dayNumber_nextDate from2000 valid
  refine ⟨validDate_nextDate valid, number, ?_, ?_⟩
  · simp only [dayOfWeek, number]
    omega
  · simp only [timestamp, number]
    omega

end Sys2Proof.Machine

/-! The edges of the DCF77 signal (spec/45_dcf77.md R232 to R239): a sample case by case, and what one leaves
unchanged. -/

namespace Sys2Proof.Machine

/-! ### The command -/

theorem exec_dcfSample_arg (s : State) (lvl : Bool) :
    exec (.dcfSample lvl false) s = .next ((s.dcfSampleAt lvl s.argTime).done 0x10 false) := rfl

theorem exec_dcfSample_now (s : State) (lvl : Bool) : exec (.dcfSample lvl true) s =
    .next (((s.nowRawState.setRes s.port s.nowRawResult).dcfSampleAt lvl s.nowRawResult).done 0x10 false) := rfl

@[simp] theorem State.done_dcf (s : State) (op : Byte) (m : Bool) : (s.done op m).dcf = s.dcf := by simp [State.done]

section
variable (s : State) (lvl : Bool) (t : DWord)

/-! Liveness writes SYNC_ERR alone. -/

@[simp] theorem State.dcfSampleAt_event : (s.dcfSampleAt lvl t).dcf.event = (s.dcfStep lvl t).dcf.event := by
  rw [State.dcfSampleAt_dcf]
@[simp] theorem State.dcfSampleAt_count : (s.dcfSampleAt lvl t).dcf.count = (s.dcfStep lvl t).dcf.count := by
  rw [State.dcfSampleAt_dcf]
@[simp] theorem State.dcfSampleAt_bits : (s.dcfSampleAt lvl t).dcf.bits = (s.dcfStep lvl t).dcf.bits := by
  rw [State.dcfSampleAt_dcf]
@[simp] theorem State.dcfSampleAt_level : (s.dcfSampleAt lvl t).dcf.level = (s.dcfStep lvl t).dcf.level := by
  rw [State.dcfSampleAt_dcf]
@[simp] theorem State.dcfSampleAt_lastT : (s.dcfSampleAt lvl t).dcf.lastT = (s.dcfStep lvl t).dcf.lastT := by
  rw [State.dcfSampleAt_dcf]
@[simp] theorem State.dcfSampleAt_result : (s.dcfSampleAt lvl t).dcf.result = (s.dcfStep lvl t).dcf.result := by
  rw [State.dcfSampleAt_dcf]
@[simp] theorem State.dcfSampleAt_isSynced : (s.dcfSampleAt lvl t).dcf.synced = (s.dcfStep lvl t).dcf.synced := by
  rw [State.dcfSampleAt_dcf]
@[simp] theorem State.dcfSampleAt_lastOkT : (s.dcfSampleAt lvl t).dcf.lastOkT = (s.dcfStep lvl t).dcf.lastOkT := by
  rw [State.dcfSampleAt_dcf]
@[simp] theorem State.dcfSampleAt_lastTs : (s.dcfSampleAt lvl t).dcf.lastTs = (s.dcfStep lvl t).dcf.lastTs := by
  rw [State.dcfSampleAt_dcf]

theorem State.dcfSampleAt_syncErr : (s.dcfSampleAt lvl t).dcf.syncErr =
    if s.cfg.livenessUs < (t - (s.dcfStep lvl t).dcf.lastOkT).toNat then true else (s.dcfStep lvl t).dcf.syncErr := by
  rw [State.dcfSampleAt_dcf]

end

/-! ### The windows (R237) -/

/-- The low interval d is an ordinary gap. -/
def inGap (c : Config) (d : DWord) : Prop := c.tGapLo ≤ d.toNat ∧ d.toNat ≤ c.tGapHi

/-- The low interval d is a minute gap. -/
def inMinuteGap (c : Config) (d : DWord) : Prop := c.tMinLo ≤ d.toNat ∧ d.toNat ≤ c.tMinHi

/-- The pulse d is a bit of value v. -/
def inPulse (c : Config) (v : Bool) (d : DWord) : Prop :=
  if v then c.tBit1Lo ≤ d.toNat ∧ d.toNat ≤ c.tBit1Hi else c.tBit0Lo ≤ d.toNat ∧ d.toNat ≤ c.tBit0Hi

section
variable {c : Config} {d : DWord}

theorem not_inGap_of_inMinuteGap (h : inMinuteGap c d) : ¬ inGap c d := by
  have windows := config_windows c
  unfold inMinuteGap inGap at *
  omega

theorem not_inPulse_of_inPulse_not {v : Bool} (h : inPulse c v d) : ¬ inPulse c (!v) d := by
  have windows := config_windows c
  cases v <;> simp [inPulse] at * <;> omega

end

/-! ### The state after each kind of edge (R234 to R236) -/

/-- s with the bit v appended to its frame (R235). -/
def State.withBit (s : State) (v : Bool) : State :=
  { s with dcf := { s.dcf with
      bits := setFrameBit s.dcf.bits s.dcf.count.toNat v
      count := s.dcf.count + 1
      event := if v then .bit1 else .bit0 } }

section
variable {s : State} {t : DWord}

theorem State.dcfStep_gap (low : s.dcf.level = false) (window : inGap s.cfg (t - s.dcf.lastT)) :
    s.dcfStep true t = (s.edgeState true t).setDcfEvent .gap :=
  (s.dcfStep_rise t low).trans (if_pos ((inWin_iff _ _ _).mpr window))

theorem State.dcfStep_minute (low : s.dcf.level = false) (window : inMinuteGap s.cfg (t - s.dcf.lastT)) :
    s.dcfStep true t = (((s.edgeState true t).analyze t).discard).setDcfEvent .minute :=
  (s.dcfStep_rise t low).trans ((if_neg (mt (inWin_iff _ _ _).mp (not_inGap_of_inMinuteGap window))).trans
    (if_pos ((inWin_iff _ _ _).mpr window)))

theorem State.dcfStep_riseCorrupt (low : s.dcf.level = false) (noGap : ¬ inGap s.cfg (t - s.dcf.lastT))
    (noMinute : ¬ inMinuteGap s.cfg (t - s.dcf.lastT)) :
    s.dcfStep true t = (s.edgeState true t).discard.setDcfEvent .riseCorrupt :=
  (s.dcfStep_rise t low).trans ((if_neg (mt (inWin_iff _ _ _).mp noGap)).trans
    (if_neg (mt (inWin_iff _ _ _).mp noMinute)))

theorem State.dcfStep_pulse {v : Bool} (high : s.dcf.level = true) (window : inPulse s.cfg v (t - s.dcf.lastT)) :
    s.dcfStep false t = (s.edgeState false t).appendBit v := by
  rw [s.dcfStep_fall t high]
  cases v with
  | false => exact if_pos ((inWin_iff _ _ _).mpr window)
  | true =>
    have noZero : ¬ inPulse s.cfg false (t - s.dcf.lastT) := not_inPulse_of_inPulse_not window
    exact (if_neg (mt (inWin_iff _ _ _).mp noZero)).trans (if_pos ((inWin_iff _ _ _).mpr window))

theorem State.dcfStep_bit {v : Bool} (high : s.dcf.level = true) (window : inPulse s.cfg v (t - s.dcf.lastT))
    (room : s.dcf.count.toNat ≠ 60) : s.dcfStep false t = (s.edgeState false t).withBit v :=
  (State.dcfStep_pulse high window).trans (if_neg room)

theorem State.dcfStep_overflow {v : Bool} (high : s.dcf.level = true) (window : inPulse s.cfg v (t - s.dcf.lastT))
    (full : s.dcf.count.toNat = 60) : s.dcfStep false t = (s.edgeState false t).discard.setDcfEvent .overflow :=
  (State.dcfStep_pulse high window).trans (if_pos full)

theorem State.dcfStep_fallCorrupt (high : s.dcf.level = true) (noPulse : ∀ v, ¬ inPulse s.cfg v (t - s.dcf.lastT)) :
    s.dcfStep false t = (s.edgeState false t).discard.setDcfEvent .fallCorrupt :=
  (s.dcfStep_fall t high).trans ((if_neg (mt (inWin_iff _ _ _).mp (noPulse false))).trans
    (if_neg (mt (inWin_iff _ _ _).mp (noPulse true))))

end

/-- `s.EdgeCase t lvl u`: u is s after DcfStep(lvl, t), by the rows of R239's table. -/
inductive State.EdgeCase (s : State) (t : DWord) : Bool → State → Prop where
  | repeated : s.EdgeCase t s.dcf.level (s.setDcfEvent .none)
  | gap (low : s.dcf.level = false) (window : inGap s.cfg (t - s.dcf.lastT)) :
      s.EdgeCase t true ((s.edgeState true t).setDcfEvent .gap)
  | minute (low : s.dcf.level = false) (window : inMinuteGap s.cfg (t - s.dcf.lastT)) :
      s.EdgeCase t true ((((s.edgeState true t).analyze t).discard).setDcfEvent .minute)
  | riseCorrupt (low : s.dcf.level = false) (noGap : ¬ inGap s.cfg (t - s.dcf.lastT))
      (noMinute : ¬ inMinuteGap s.cfg (t - s.dcf.lastT)) :
      s.EdgeCase t true ((s.edgeState true t).discard.setDcfEvent .riseCorrupt)
  | bit (v : Bool) (high : s.dcf.level = true) (window : inPulse s.cfg v (t - s.dcf.lastT))
      (room : s.dcf.count.toNat ≠ 60) : s.EdgeCase t false ((s.edgeState false t).withBit v)
  | overflow (v : Bool) (high : s.dcf.level = true) (window : inPulse s.cfg v (t - s.dcf.lastT))
      (full : s.dcf.count.toNat = 60) : s.EdgeCase t false ((s.edgeState false t).discard.setDcfEvent .overflow)
  | fallCorrupt (high : s.dcf.level = true) (noPulse : ∀ v, ¬ inPulse s.cfg v (t - s.dcf.lastT)) :
      s.EdgeCase t false ((s.edgeState false t).discard.setDcfEvent .fallCorrupt)

/-- Everything DcfStep can do (R233 to R235): the rows of R239's table are all there are. -/
theorem State.dcfStep_cases (s : State) (lvl : Bool) (t : DWord) : s.EdgeCase t lvl (s.dcfStep lvl t) := by
  by_cases same : lvl = s.dcf.level
  · rw [same, State.dcfStep_same]
    exact .repeated
  · cases lvl with
    | true =>
      have low : s.dcf.level = false := by simpa using same
      by_cases gap : inGap s.cfg (t - s.dcf.lastT)
      · exact State.dcfStep_gap low gap ▸ .gap low gap
      · by_cases minute : inMinuteGap s.cfg (t - s.dcf.lastT)
        · exact State.dcfStep_minute low minute ▸ .minute low minute
        · exact State.dcfStep_riseCorrupt low gap minute ▸ .riseCorrupt low gap minute
    | false =>
      have high : s.dcf.level = true := by simpa using same
      by_cases pulse : ∃ v, inPulse s.cfg v (t - s.dcf.lastT)
      · obtain ⟨v, window⟩ := pulse
        by_cases full : s.dcf.count.toNat = 60
        · exact State.dcfStep_overflow high window full ▸ .overflow v high window full
        · exact State.dcfStep_bit high window full ▸ .bit v high window full
      · exact State.dcfStep_fallCorrupt high (not_exists.mp pulse) ▸ .fallCorrupt high (not_exists.mp pulse)

/-! ### What an edge changes and what stays (R239) -/

namespace State.EdgeCase

variable {s u : State} {lvl : Bool} {t : DWord} (h : s.EdgeCase t lvl u)
include h

theorem level : u.dcf.level = lvl := by
  cases h
  case minute low window =>
    obtain ⟨-, -, level, -⟩ := (s.edgeState true t).analyze_frame t
    exact level
  all_goals rfl

theorem lastT (edge : lvl ≠ s.dcf.level) : u.dcf.lastT = t := by
  cases h
  case repeated => exact absurd rfl edge
  case minute low window =>
    obtain ⟨-, -, -, lastT, -⟩ := (s.edgeState true t).analyze_frame t
    exact lastT
  all_goals rfl

/-- The frame's bits change where a bit is appended, and nowhere else. -/
theorem bits (noBit : ¬ (s.dcf.level = true ∧ lvl = false ∧ (∃ v, inPulse s.cfg v (t - s.dcf.lastT)) ∧
    s.dcf.count.toNat ≠ 60)) : u.dcf.bits = s.dcf.bits := by
  cases h
  case minute low window =>
    obtain ⟨bits, -⟩ := (s.edgeState true t).analyze_frame t
    exact bits
  case bit v high window room => exact absurd ⟨high, rfl, ⟨v, window⟩, room⟩ noBit
  all_goals rfl

/-- What an analysis writes stays outside a minute boundary (R234). -/
theorem outside_minute (noMinute : ¬ (s.dcf.level = false ∧ lvl = true ∧ inMinuteGap s.cfg (t - s.dcf.lastT))) :
    u.dcf.result = s.dcf.result ∧ u.clk.off = s.clk.off ∧ u.dcf.synced = s.dcf.synced ∧
      u.dcf.lastTs = s.dcf.lastTs ∧ u.dcf.lastOkT = s.dcf.lastOkT ∧ u.dcf.syncErr = s.dcf.syncErr := by
  cases h
  case minute low window => exact absurd ⟨low, rfl, window⟩ noMinute
  all_goals exact ⟨rfl, rfl, rfl, rfl, rfl, rfl⟩

theorem event_ne_minute (noMinute : ¬ (s.dcf.level = false ∧ lvl = true ∧ inMinuteGap s.cfg (t - s.dcf.lastT))) :
    u.dcf.event ≠ .minute := by
  cases h
  case minute low window => exact absurd ⟨low, rfl, window⟩ noMinute
  case bit v high window room => cases v <;> exact DcfEvent.noConfusion
  all_goals exact DcfEvent.noConfusion

theorem count_le (bound : s.dcf.count.toNat ≤ 60) : u.dcf.count.toNat ≤ 60 := by
  cases h
  case repeated => exact bound
  case gap low window => exact bound
  case bit v high window room =>
    have next : (s.dcf.count + 1).toNat = (s.dcf.count.toNat + 1) % 2 ^ 7 := BitVec.toNat_add _ _
    change (s.dcf.count + 1).toNat ≤ 60
    omega
  all_goals exact Nat.zero_le 60

end State.EdgeCase

/-- Settles O21: each clause is a row of R239's table, and what stays follows from there being no other row. -/
theorem dcfSampleClassifiesEdges : Obligations.DcfSampleClassifiesEdges := by
  intro s lvl time d isGap isMin isBit0 isBit1
  have operand : s.argTime = time := by
    apply BitVec.eq_of_toNat_eq
    rw [BitVec.toNat_ofNat, ← s.argTime_toNat, Nat.mod_eq_of_lt s.argTime.isLt]
  have elapsed : (s.argTime - s.dcf.lastT).toNat = d := by rw [elapsed_toNat, operand]
  have gap : inGap s.cfg (s.argTime - s.dcf.lastT) ↔ isGap := by rw [inGap, elapsed]
  have minute : inMinuteGap s.cfg (s.argTime - s.dcf.lastT) ↔ isMin := by rw [inMinuteGap, elapsed]
  have bit0 : inPulse s.cfg false (s.argTime - s.dcf.lastT) ↔ isBit0 := by simp [inPulse, elapsed, isBit0]
  have bit1 : inPulse s.cfg true (s.argTime - s.dcf.lastT) ↔ isBit1 := by simp [inPulse, elapsed, isBit1]
  have pulse : (∃ v, inPulse s.cfg v (s.argTime - s.dcf.lastT)) ↔ isBit0 ∨ isBit1 := by
    rw [Bool.exists_bool, bit0, bit1]
  have exclusive : isBit0 → ¬ isBit1 := fun h => bit1.not.mp (not_inPulse_of_inPulse_not (bit0.mpr h))
  have edge := s.dcfStep_cases lvl s.argTime
  refine ⟨_, exec_dcfSample_arg s lvl, State.done_ownStatus _ _ _, commandFrame _ _ _ (exec_dcfSample_arg s lvl), ?_⟩
  simp only [State.done_dcf, State.done_clk, State.dcfSampleAt_event, State.dcfSampleAt_count, State.dcfSampleAt_bits,
    State.dcfSampleAt_level, State.dcfSampleAt_lastT, State.dcfSampleAt_result, State.dcfSampleAt_isSynced,
    State.dcfSampleAt_lastOkT, State.dcfSampleAt_lastTs, State.dcfSampleAt_clk]
  refine ⟨edge.level, ?repeated, fun moved => (edge.lastT moved).trans operand, ?rise, ?fall, ?bits, ?analysis,
    edge.count_le⟩
  case repeated =>
    rintro rfl
    rw [State.dcfStep_same]
    exact ⟨rfl, rfl, rfl⟩
  case rise =>
    rintro low rfl
    refine ⟨fun window => ?_, fun window => ?_, fun noGap noMinute => ?_⟩
    · rw [State.dcfStep_gap low (gap.mpr window)]
      exact ⟨rfl, rfl⟩
    · rw [State.dcfStep_minute low (minute.mpr window)]
      exact ⟨rfl, rfl⟩
    · rw [State.dcfStep_riseCorrupt low (gap.not.mpr noGap) (minute.not.mpr noMinute)]
      exact ⟨rfl, rfl⟩
  case fall =>
    rintro high rfl
    refine ⟨fun window room => ?_, fun window room => ?_, fun window room k inFrame => ?_, fun window full => ?_,
      fun noZero noOne => ?_⟩
    · rw [State.dcfStep_bit high (bit0.mpr window) room]
      exact ⟨rfl, rfl⟩
    · rw [State.dcfStep_bit high (bit1.mpr window) room]
      exact ⟨rfl, rfl⟩
    · obtain zero | one := window
      · rw [State.dcfStep_bit high (bit0.mpr zero) room, decide_eq_false (exclusive zero)]
        exact frameBit_setFrameBit _ _ k false inFrame
      · rw [State.dcfStep_bit high (bit1.mpr one) room, decide_eq_true one]
        exact frameBit_setFrameBit _ _ k true inFrame
    · obtain ⟨v, window⟩ := pulse.mpr window
      rw [State.dcfStep_overflow high window full]
      exact ⟨rfl, rfl⟩
    · rw [State.dcfStep_fallCorrupt high (Bool.forall_bool.mpr ⟨bit0.not.mpr noZero, bit1.not.mpr noOne⟩)]
      exact ⟨rfl, rfl⟩
  case bits => exact fun noBit => edge.bits (by rwa [pulse])
  case analysis =>
    intro noMinute
    obtain ⟨result, off, synced, lastTs, lastOkT, -⟩ := edge.outside_minute (by rwa [minute])
    exact ⟨result, off, synced, lastTs, lastOkT⟩

end Sys2Proof.Machine

/-! DCF_SAMPLE as a whole (spec/45_dcf77.md R232, R238, R250, R251): the clock as the source of its time, the minute
boundary, and the liveness indicator. -/

namespace Sys2Proof.Machine

/-! ### What a sample depends on -/

/-- A sample reads and writes the DCF77 unit and the clock, and reads the parameters of R7; nothing else enters. -/
theorem State.dcfSampleAt_congr {s u : State} (dcf : u.dcf = s.dcf) (clk : u.clk = s.clk) (cfg : u.cfg = s.cfg)
    (lvl : Bool) (t : DWord) : (u.dcfSampleAt lvl t).dcf = (s.dcfSampleAt lvl t).dcf ∧
      (u.dcfSampleAt lvl t).clk = (s.dcfSampleAt lvl t).clk := by
  have moved : OutsideDcf fun x => { u with dcf := x.dcf, clk := x.clk, cfg := x.cfg } :=
    ⟨fun _ => rfl, fun _ _ _ => rfl⟩
  have same : u = { u with dcf := s.dcf, clk := s.clk, cfg := s.cfg } := by rw [← dcf, ← clk, ← cfg]
  rw [same, moved.dcfSampleAt s lvl t]
  exact ⟨rfl, rfl⟩

/-- Two stores make a port's ARG0 and ARG1 its 64-bit operand (R92). -/
theorem State.argTime_setArg (s : State) (v : DWord) :
    (s.setRegs s.port (((s.regs s.port).setArg 0 (lo32 v)).setArg 1 (hi32 v))).argTime = v := by
  simp only [State.argTime, State.arg, State.setRegs_port, State.setRegs_regs]
  exact hi32_append_lo32 v

/-- Settles O22: NOW_RAW leaves the clock and the DCF77 unit as DCF_SAMPLE finds them after its own clock read. -/
theorem dcfSampleNowReadsClock : Obligations.DcfSampleNowReadsClock := by
  intro s lvl
  have frame := (s.nowRawState.setRes s.port s.nowRawResult).dcfFrame_dcfSampleAt lvl s.nowRawResult
  have read : ((s.nowRawState.setRes s.port s.nowRawResult).done 0x01 false).ownRes = s.nowRawResult := by
    rw [State.done_ownRes, State.nowRawState_setRes_ownRes]
  refine ⟨_, _, _, exec_nowRaw s, exec_dcfSample_now s lvl, exec_dcfSample_arg _ lvl, ?_⟩
  rw [read, State.argTime_setArg]
  obtain ⟨dcf, clk⟩ := State.dcfSampleAt_congr (s := s.nowRawState.setRes s.port s.nowRawResult)
    (u := ((s.nowRawState.setRes s.port s.nowRawResult).done 0x01 false).setRegs _ _) (by simp) (by simp)
    (by simp [State.done]) lvl s.nowRawResult
  refine ⟨?_, ?_, State.done_ownStatus _ _ _, ?_, commandFrame _ _ _ (exec_dcfSample_now s lvl)⟩
  · rw [State.done_dcf, State.done_dcf]
    exact dcf.symm
  · rw [State.done_clk, State.done_clk]
    exact clk.symm
  · rw [State.done_ownRes, State.ownRes, frame.port, frame.regs]
    simp

/-! ### The minute boundary (R250, R251) -/

section
variable {s : State} {t : DWord}

theorem State.analyze_ok {ts : Nat} (h : analyzeFrame s.cfg.toParams s.dcf.count.toNat s.dcf.bits = .ok ts) :
    s.analyze t = s.acceptFrame t (BitVec.ofNat 64 ts) := by
  rw [State.analyze, h]

theorem State.analyze_error {r : DcfResult}
    (h : analyzeFrame s.cfg.toParams s.dcf.count.toNat s.dcf.bits = .error r) : s.analyze t = s.setDcfResult r := by
  rw [State.analyze, h]

/-- The state after the edge that ends a minute with a frame that passes. -/
theorem State.dcfStep_minute_ok {ts : Nat} (low : s.dcf.level = false)
    (window : inMinuteGap s.cfg (t - s.dcf.lastT))
    (h : analyzeFrame s.cfg.toParams s.dcf.count.toNat s.dcf.bits = .ok ts) : s.dcfStep true t =
      (((s.edgeState true t).acceptFrame t (BitVec.ofNat 64 ts)).discard).setDcfEvent .minute := by
  rw [State.dcfStep_minute low window, State.analyze_ok (s := s.edgeState true t) h]

/-- The state after the edge that ends a minute with a frame that fails. -/
theorem State.dcfStep_minute_error {r : DcfResult} (low : s.dcf.level = false)
    (window : inMinuteGap s.cfg (t - s.dcf.lastT))
    (h : analyzeFrame s.cfg.toParams s.dcf.count.toNat s.dcf.bits = .error r) : s.dcfStep true t =
      (((s.edgeState true t).setDcfResult r).discard).setDcfEvent .minute := by
  rw [State.dcfStep_minute low window, State.analyze_error (s := s.edgeState true t) h]

end

/-- R198: the wall clock shows the timestamp at the time it is set to. -/
theorem wallSeconds_setWallClock (ts t : DWord) : wallSeconds (ts - t / 1000000) t = ts := by
  rw [wallSeconds, BitVec.add_comm, BitVec.sub_add_cancel]

/-- A sample whose own time is the last success is in time (R238). -/
theorem liveness_now (c : Config) (t : DWord) (b : Bool) :
    (if c.livenessUs < (t - t).toNat then true else b) = b := by
  simp

/-- Settles O23: by the outcome of the analysis. -/
theorem minuteRunsAnalysis : Obligations.MinuteRunsAnalysis := by
  intro s time d low lo hi
  have window : inMinuteGap s.cfg (s.argTime - s.dcf.lastT) := ⟨lo, hi⟩
  refine ⟨_, exec_dcfSample_arg s true, ?_, ?_⟩
  · simp only [State.done_dcf, State.dcfSampleAt_count]
    rw [State.dcfStep_minute low window]
    rfl
  · simp only [State.done_dcf, State.done_clk, State.dcfSampleAt_bits, State.dcfSampleAt_result,
      State.dcfSampleAt_isSynced, State.dcfSampleAt_lastOkT, State.dcfSampleAt_lastTs, State.dcfSampleAt_clk,
      State.dcfSampleAt_syncErr]
    split
    next ts pass =>
      rw [State.dcfStep_minute_ok low window pass]
      refine ⟨rfl, rfl, rfl, rfl, liveness_now _ _ _, ?_, wallSeconds_setWallClock _ _⟩
      exact (elapsed_toNat _ _).trans (by rw [BitVec.toNat_ofNat, BitVec.toNat_udiv]; rfl)
    next r failed =>
      rw [State.dcfStep_minute_error low window failed]
      exact ⟨rfl, rfl, rfl, rfl, rfl, rfl, rfl⟩

/-! ### The liveness indicator (R238) -/

/-- An edge either ends a minute with a frame that passes, or leaves SYNC_ERR and LAST_OK_T. -/
theorem State.dcfStep_sync (s : State) (lvl : Bool) (t : DWord) :
    let u := s.dcfStep lvl t
    let accepted := s.dcf.level = false ∧ lvl = true ∧ u.dcf.event = .minute ∧ u.dcf.result = .ok
    accepted ∧ u.dcf.syncErr = false ∧ u.dcf.lastOkT = t ∨
    ¬ accepted ∧ u.dcf.syncErr = s.dcf.syncErr ∧ u.dcf.lastOkT = s.dcf.lastOkT := by
  dsimp only
  by_cases boundary : s.dcf.level = false ∧ lvl = true ∧ inMinuteGap s.cfg (t - s.dcf.lastT)
  · obtain ⟨low, rfl, window⟩ := boundary
    cases outcome : analyzeFrame s.cfg.toParams s.dcf.count.toNat s.dcf.bits with
    | ok ts =>
      rw [State.dcfStep_minute_ok low window outcome]
      exact .inl ⟨⟨low, rfl, rfl, rfl⟩, rfl, rfl⟩
    | error r =>
      rw [State.dcfStep_minute_error low window outcome]
      exact .inr ⟨fun ⟨_, _, _, result⟩ => analyzeFrame_error_ne_ok outcome result, rfl, rfl⟩
  · have edge := s.dcfStep_cases lvl t
    obtain ⟨-, -, -, -, lastOkT, syncErr⟩ := edge.outside_minute boundary
    exact .inr ⟨fun ⟨_, _, event, _⟩ => edge.event_ne_minute boundary event, syncErr, lastOkT⟩

/-- R238 for a sample at any time. -/
theorem State.dcfSampleAt_liveness (s : State) (lvl : Bool) (t : DWord) :
    let u := s.dcfSampleAt lvl t
    (s.dcf.level = false → lvl = true → u.dcf.event = .minute → u.dcf.result = .ok →
      u.dcf.syncErr = false ∧ u.dcf.lastOkT = t) ∧
    (¬ (s.dcf.level = false ∧ lvl = true ∧ u.dcf.event = .minute ∧ u.dcf.result = .ok) →
      u.dcf.syncErr = if s.cfg.livenessUs < (t - s.dcf.lastOkT).toNat then true else s.dcf.syncErr) := by
  simp only [State.dcfSampleAt_event, State.dcfSampleAt_result, State.dcfSampleAt_lastOkT, State.dcfSampleAt_syncErr]
  obtain ⟨accepted, syncErr, lastOkT⟩ | ⟨rejected, syncErr, lastOkT⟩ := s.dcfStep_sync lvl t
  · rw [syncErr, lastOkT]
    exact ⟨fun _ _ _ _ => ⟨liveness_now _ _ _, rfl⟩, fun rejected => absurd accepted rejected⟩
  · rw [syncErr, lastOkT]
    exact ⟨fun low high event result => absurd ⟨low, high, event, result⟩ rejected, fun _ => rfl⟩

/-- Settles O24: a clock read before the sample changes nothing that the liveness check reads. -/
theorem livenessIndicator : Obligations.LivenessIndicator := by
  intro s lvl tsrc time
  cases tsrc with
  | false =>
    refine ⟨_, exec_dcfSample_arg s lvl, rfl, ?_⟩
    rw [State.done_dcf]
    exact s.dcfSampleAt_liveness lvl s.argTime
  | true =>
    refine ⟨_, exec_dcfSample_now s lvl, rfl, ?_⟩
    rw [State.done_dcf]
    have sample := (s.nowRawState.setRes s.port s.nowRawResult).dcfSampleAt_liveness lvl s.nowRawResult
    rwa [State.setRes_dcf, State.setRes_cfg, State.nowRawState_dcf, State.nowRawState_cfg] at sample

end Sys2Proof.Machine

/-! A minute of pulses sent through a port by the host's `dcf` statements (spec/45_dcf77.md R254). -/

namespace Sys2Proof.Machine

/-! ### The host's `dcf` statement (spec/30_encoding.md R102) -/

/-- s with a 64-bit operand in ARG0 and ARG1 of a port, after the stores of `dcf` by a master, and then `rest`
pending. -/
def State.operandStored (s : State) (m : Master) (p : Port) (v : DWord) (rest : List Event) : State :=
  (((s.withArg p 0 (lo32 v)).withArg p 1 (hi32 v)).withReply (writeReply m)).withInbox rest

section
variable (s : State) (m : Master) (p : Port) (v : DWord) (rest : List Event)

theorem State.operandStored_argTime (l : List Event) : ((s.operandStored m p v l).taken m p rest).argTime = v := by
  cases p <;> exact hi32_append_lo32 v

theorem State.operandStored_cfg : (s.operandStored m p v rest).cfg = s.cfg := by cases p <;> rfl
theorem State.operandStored_rst : (s.operandStored m p v rest).rst = s.rst := by cases p <;> rfl
theorem State.operandStored_dcf : (s.operandStored m p v rest).dcf = s.dcf := by cases p <;> rfl
theorem State.operandStored_clk : (s.operandStored m p v rest).clk = s.clk := by cases p <;> rfl

variable {s m p v rest}

theorem State.withInbox_of_pending {l : List Event} (pending : s.inbox = l) : s.withInbox l = s := by
  rw [← pending]
  rfl

/-- The two stores of the timestamp. -/
theorem run_storeOperand (running : s.rst = false) (k : Nat) (pending : s.inbox =
      [store32 s.cfg m (argOffset p 0) (lo32 v), store32 s.cfg m (argOffset p 1) (hi32 v)] ++ rest) :
    Host.Core.run Sys2Proof.core (k + 2) s = Host.Core.run Sys2Proof.core k (s.operandStored m p v rest) := by
  have first : step s = .next (((s.withArg p 0 (lo32 v)).withReply (writeReply m)).withInbox
      (store32 s.cfg m (argOffset p 1) (hi32 v) :: rest)) := by
    have self : s = s.withInbox _ := (State.withInbox_of_pending pending).symm
    exact (congrArg step self).trans (step_storeArg m p 0 (lo32 v) _ running rfl)
  have second : step (((s.withArg p 0 (lo32 v)).withReply (writeReply m)).withInbox
      (store32 s.cfg m (argOffset p 1) (hi32 v) :: rest)) = .next (s.operandStored m p v rest) := by
    refine (step_storeArg m p 1 (hi32 v) rest ?_ ?_).trans ?_
    · cases p <;> exact running
    · cases p <;> rfl
    · cases p <;> rfl
  rw [run_succ_of_step (k + 1) first, run_succ_of_step k second]

/-- The three actions of `dcf P<p>, lvl, t` hand the sample (lvl, t) to the DCF77 unit. -/
theorem run_dcf {lvl : Bool} (running : s.rst = false) (pending : s.inbox = hostEvents s.cfg m (.dcf p lvl v) ++ rest)
    (k : Nat) : ∃ u : State, Host.Core.run Sys2Proof.core (k + 3) s = Host.Core.run Sys2Proof.core k u ∧
      u.inbox = rest ∧ u.cfg = s.cfg ∧ u.rst = false ∧ u.dcf = (s.dcfSampleAt lvl v).dcf := by
  let cmd := cmdWrite s.cfg m p (encode (.dcfSample lvl false))
  have stores : s.inbox = [store32 s.cfg m (argOffset p 0) (lo32 v), store32 s.cfg m (argOffset p 1) (hi32 v)] ++
      cmd :: rest := pending
  have run := exec_dcfSample_arg ((s.operandStored m p v (cmd :: rest)).taken m p rest) lvl
  have waiting : (s.operandStored m p v (cmd :: rest)).inbox =
      cmdWrite (s.operandStored m p v (cmd :: rest)).cfg m p (encode (.dcfSample lvl false)) :: rest := by
    rw [s.operandStored_cfg]
    rfl
  obtain ⟨command, inbox, cfg, runningU, -⟩ := step_of_exec ((s.operandStored_rst m p v _).trans running) waiting run
  refine ⟨_, (run_storeOperand running (k + 1) stores).trans (run_succ_of_step k command), inbox,
    cfg.trans (s.operandStored_cfg m p v _), runningU, ?_⟩
  obtain ⟨dcf, -⟩ := State.dcfSampleAt_congr (u := (s.operandStored m p v (cmd :: rest)).taken m p rest)
    (s.operandStored_dcf m p v (cmd :: rest)) (s.operandStored_clk m p v (cmd :: rest))
    (s.operandStored_cfg m p v (cmd :: rest)) lvl v
  rw [State.done_dcf, State.operandStored_argTime, dcf]

end

/-! ### A row of ordinary bits -/

/-- The unit in the midst of a minute: the level and time of the last edge, and exactly the bits sent so far. -/
structure State.Receiving (s : State) (c : Config) (level : Bool) (t : DWord) (sent : List Bool) : Prop where
  running : s.rst = false
  cfg : s.cfg = c
  level : s.dcf.level = level
  lastT : s.dcf.lastT = t
  count : s.dcf.count.toNat = sent.length
  bits : ∀ k (h : k < sent.length), frameBit s.dcf.bits k = sent[k]

section
variable {s : State} {c : Config} {m : Master} {p : Port} {t : DWord} {sent : List Bool} {rest : List Event}

/-- The elapsed time at an edge that comes d after the last. -/
theorem elapsed_add (t d : DWord) : t + d - t = d := by
  rw [BitVec.add_comm, BitVec.add_sub_cancel]

/-- A sample brings the unit where its edge does (R238 writes nothing that `Receiving` speaks of). -/
theorem run_dcf_receiving {lvl level : Bool} {t' : DWord} (running : s.rst = false)
    (pending : s.inbox = hostEvents s.cfg m (.dcf p lvl t) ++ rest)
    (edge : (s.dcfStep lvl t).Receiving c level t' sent) (k : Nat) :
    ∃ u, Host.Core.run Sys2Proof.core (k + 3) s = Host.Core.run Sys2Proof.core k u ∧ u.inbox = rest ∧
      u.Receiving c level t' sent := by
  obtain ⟨u, run, inbox, cfg, runningU, dcf⟩ := run_dcf running pending k
  obtain ⟨-, cfgEdge, levelEdge, lastT, count, bits⟩ := edge
  rw [← State.dcfSampleAt_level, ← dcf] at levelEdge
  rw [← State.dcfSampleAt_lastT, ← dcf] at lastT
  rw [← State.dcfSampleAt_count, ← dcf] at count
  simp only [← State.dcfSampleAt_bits, ← dcf] at bits
  have cfgU := cfg.trans ((s.dcfFrame_dcfStep lvl t).cfg.symm.trans cfgEdge)
  exact ⟨u, run, inbox, runningU, cfgU, levelEdge, lastT, count, bits⟩

/-- The bits sent, and one more appended to the frame (R235). -/
theorem frameBit_append {b : BitVec 60} (v : Bool) (room : sent.length < 60)
    (bits : ∀ k (h : k < sent.length), frameBit b k = sent[k]) (k : Nat) (hk : k < (sent ++ [v]).length) :
    frameBit (setFrameBit b sent.length v) k = (sent ++ [v])[k] := by
  have inRange : k < sent.length ∨ k = sent.length := Nat.lt_succ_iff_lt_or_eq.mp (by simpa using hk)
  rw [frameBit_setFrameBit b _ k v (by omega)]
  obtain earlier | rfl := inRange
  · rw [if_neg earlier.ne, List.getElem_append_left earlier, bits k earlier]
  · rw [if_pos rfl, List.getElem_concat_length rfl]

/-- The falling edge after a pulse appends its bit. -/
theorem State.Receiving.run_pulse {v : Bool} {pulse : DWord} (h : s.Receiving c true t sent)
    (window : inPulse c v pulse) (room : sent.length < 60)
    (pending : s.inbox = hostEvents c m (.dcf p false (t + pulse)) ++ rest) (k : Nat) :
    ∃ u, Host.Core.run Sys2Proof.core (k + 3) s = Host.Core.run Sys2Proof.core k u ∧ u.inbox = rest ∧
      u.Receiving c false (t + pulse) (sent ++ [v]) := by
  obtain ⟨running, rfl, level, rfl, count, bits⟩ := h
  refine run_dcf_receiving running pending ?_ k
  rw [State.dcfStep_bit level (by rwa [elapsed_add]) (by omega)]
  refine ⟨running, rfl, rfl, rfl, ?_, fun j hj => ?_⟩
  · change (s.dcf.count + 1).toNat = _
    rw [BitVec.toNat_add, count, List.length_append]
    exact Nat.mod_eq_of_lt (by change sent.length + 1 < 128; omega)
  · change frameBit (setFrameBit s.dcf.bits s.dcf.count.toNat v) j = _
    rw [count]
    exact frameBit_append v room bits j hj

/-- The rising edge after an ordinary gap changes no bit. -/
theorem State.Receiving.run_gap {low : DWord} (h : s.Receiving c false t sent) (window : inGap c low)
    (pending : s.inbox = hostEvents c m (.dcf p true (t + low)) ++ rest) (k : Nat) :
    ∃ u, Host.Core.run Sys2Proof.core (k + 3) s = Host.Core.run Sys2Proof.core k u ∧ u.inbox = rest ∧
      u.Receiving c true (t + low) sent := by
  obtain ⟨running, rfl, level, rfl, count, bits⟩ := h
  refine run_dcf_receiving running pending ?_ k
  rw [State.dcfStep_gap level (by rwa [elapsed_add])]
  exact ⟨running, rfl, rfl, rfl, count, bits⟩

/-- The unit after a minute boundary with nothing pending: the frame's bits have been analysed. -/
structure State.MinuteSeen (s : State) (c : Config) (t : DWord) (sent : List Bool) : Prop where
  idle : s.inbox = []
  event : s.dcf.event = .minute
  count : s.dcf.count = 0
  lastT : s.dcf.lastT = t
  bits : ∀ k (h : k < sent.length), frameBit s.dcf.bits k = sent[k]
  result : s.dcf.result = analysisCode (analyzeFrame c.toParams sent.length s.dcf.bits)

theorem State.analyze_result (s : State) (t : DWord) : (s.analyze t).dcf.result =
    analysisCode (analyzeFrame s.cfg.toParams s.dcf.count.toNat s.dcf.bits) := by
  cases outcome : analyzeFrame s.cfg.toParams s.dcf.count.toNat s.dcf.bits with
  | ok ts =>
    rw [State.analyze_ok outcome]
    rfl
  | error r =>
    rw [State.analyze_error outcome]
    rfl

/-- The rising edge after a minute gap runs the analysis on the bits sent. -/
theorem State.Receiving.run_minute {low : DWord} (h : s.Receiving c false t sent) (window : inMinuteGap c low)
    (pending : s.inbox = hostEvents c m (.dcf p true (t + low))) :
    ∃ u, Host.Core.run Sys2Proof.core 3 s = .next u ∧ u.MinuteSeen c (t + low) sent := by
  obtain ⟨running, rfl, level, rfl, count, bits⟩ := h
  obtain ⟨u, run, inbox, -, -, dcf⟩ := run_dcf running (pending.trans (List.append_nil _).symm) 0
  have edge := State.dcfStep_minute (t := s.dcf.lastT + low) level (by rwa [elapsed_add])
  obtain ⟨bitsKept, -, -, lastT, -⟩ := (s.edgeState true (s.dcf.lastT + low)).analyze_frame (s.dcf.lastT + low)
  have bitsU : u.dcf.bits = s.dcf.bits := by
    rw [dcf, State.dcfSampleAt_bits, edge]
    exact bitsKept
  refine ⟨u, run, inbox, ?_, ?_, ?_, ?_, ?_⟩
  · rw [dcf, State.dcfSampleAt_event, edge]
    rfl
  · rw [dcf, State.dcfSampleAt_count, edge]
    rfl
  · rw [dcf, State.dcfSampleAt_lastT, edge]
    exact lastT
  · rwa [bitsU]
  · rw [bitsU, ← count, dcf, State.dcfSampleAt_result, edge]
    exact State.analyze_result _ _

end

theorem minuteEvents_cons (c : Config) (p : Port) (t : DWord) (x : PulseBit) (xs : List PulseBit) :
    minuteEvents c p t (x :: xs) = hostEvents c .interrupt (.dcf p false (t + x.pulse)) ++
      (hostEvents c .interrupt (.dcf p true (t + x.pulse + x.low)) ++ minuteEvents c p (t + x.pulse + x.low) xs) :=
  List.append_assoc _ _ _

theorem minuteEvents_length_cons (c : Config) (p : Port) (t : DWord) (x : PulseBit) (xs : List PulseBit) :
    (minuteEvents c p t (x :: xs)).length = (minuteEvents c p (t + x.pulse + x.low) xs).length + 3 + 3 := by
  rw [minuteEvents_cons, List.length_append, List.length_append]
  simp only [hostEvents, List.length_append, List.length_cons, List.length_nil]
  omega

/-- R254, bit by bit: the row is appended to what was sent before it. -/
theorem State.Receiving.run_minuteEvents {s : State} {c : Config} {p : Port} {t : DWord} {sent : List Bool}
    {l : List PulseBit} {last : PulseBit} (h : s.Receiving c true t sent) (room : sent.length + l.length < 60)
    (pulses : ∀ x ∈ l ++ [last], x.pulseOk c) (gaps : ∀ x ∈ l, inGap c x.low) (minute : inMinuteGap c last.low)
    (pending : s.inbox = minuteEvents c p t (l ++ [last])) :
    ∃ u, Host.Core.run Sys2Proof.core s.inbox.length s = .next u ∧
      u.MinuteSeen c (minuteEnd t (l ++ [last])) (sent ++ (l ++ [last]).map PulseBit.bit) := by
  induction l generalizing s t sent with
  | nil =>
    obtain ⟨u, run, inbox, received⟩ := h.run_pulse (pulses last (List.mem_singleton_self _)) (by simpa using room)
      (pending.trans (minuteEvents_cons c p t last [])) 3
    obtain ⟨v, runMinute, seen⟩ := received.run_minute minute (inbox.trans (List.append_nil _))
    refine ⟨v, ?_, seen⟩
    rw [pending, List.nil_append, minuteEvents_length_cons]
    exact run.trans runMinute
  | cons x l ih =>
    obtain ⟨⟨pulse, pulses⟩, gap, gaps⟩ := And.intro (List.forall_mem_cons.mp pulses) (List.forall_mem_cons.mp gaps)
    rw [List.length_cons] at room
    obtain ⟨u, run, inboxU, received⟩ := h.run_pulse pulse (by omega)
      (pending.trans (minuteEvents_cons c p t x (l ++ [last]))) _
    obtain ⟨v, runGap, inboxV, received⟩ := received.run_gap gap inboxU _
    obtain ⟨w, runRest, seen⟩ :=
      ih received (by rw [List.length_append, List.length_singleton]; omega) pulses gaps inboxV
    refine ⟨w, ?_, ?_⟩
    · rw [inboxV] at runRest
      rw [pending, List.cons_append, minuteEvents_length_cons, run, runGap, runRest]
    · rwa [List.append_assoc] at seen

/-- Settles O25: a row sent into the empty frame. -/
theorem ordinaryMinuteIsAccumulated : Obligations.OrdinaryMinuteIsAccumulated := by
  intro s p l last running level count room pulses gaps lo hi pending
  have start : s.Receiving s.cfg true s.dcf.lastT [] :=
    ⟨running, rfl, level, rfl, by rw [count]; rfl, fun _ h => absurd h (Nat.not_lt_zero _)⟩
  obtain ⟨t, run, idle, event, countT, lastT, bits, result⟩ :=
    start.run_minuteEvents (by simpa using room) pulses gaps ⟨lo, hi⟩ pending
  refine ⟨t, run, idle, event, countT, lastT, fun k hk => ?_, ?_⟩
  · rw [bits k (by simpa using hk)]
    simp only [List.nil_append, List.getElem_map]
  · simpa using result

end Sys2Proof.Machine

/-! The frame analysis (spec/45_dcf77.md R240 to R252): the fields over the naturals, the checks in order, the century,
the range of a timestamp, and the effect of one flipped bit. -/

namespace Sys2Proof.Machine

/-! ### The century (R247) -/

section
variable (p : Params) (b : BitVec 60)

theorem resolveYear_eq : resolveYear p b = ((List.range 4).find? fun i =>
    dayOfWeek (p.baseYear + 100 * i + frameYear b) (frameMonth b) (frameDay b) == frameDow b).map
      fun i => p.baseYear + 100 * i + frameYear b :=
  List.find?_map

theorem resolveYear_eq_some_iff {y : Nat} : resolveYear p b = some y ↔ ∃ i < 4,
    y = p.baseYear + 100 * i + frameYear b ∧
    dayOfWeek (p.baseYear + 100 * i + frameYear b) (frameMonth b) (frameDay b) = frameDow b ∧
    ∀ j < i, ¬ dayOfWeek (p.baseYear + 100 * j + frameYear b) (frameMonth b) (frameDay b) = frameDow b := by
  rw [resolveYear_eq, Option.map_eq_some_iff]
  constructor
  · rintro ⟨i, found, rfl⟩
    obtain ⟨fits, inRange, first⟩ := List.find?_range_eq_some.mp found
    exact ⟨i, List.mem_range.mp inRange, rfl, beq_iff_eq.mp fits, fun j hj => by simpa using first j hj⟩
  · rintro ⟨i, inRange, rfl, fits, first⟩
    refine ⟨i, List.find?_range_eq_some.mpr ⟨beq_iff_eq.mpr fits, List.mem_range.mpr inRange, fun j hj => ?_⟩, rfl⟩
    simpa using first j hj

theorem resolveYear_eq_none_iff : resolveYear p b = none ↔ ∀ i < 4,
    ¬ dayOfWeek (p.baseYear + 100 * i + frameYear b) (frameMonth b) (frameDay b) = frameDow b := by
  rw [resolveYear_eq, Option.map_eq_none_iff, List.find?_eq_none]
  simp only [List.mem_range, beq_iff_eq]

end

/-- Settles O29: the candidates are tried in the order of i = 0, 1, 2, 3. -/
theorem centuryIsFirstMatch : Obligations.CenturyIsFirstMatch := fun p b =>
  ⟨fun _ => resolveYear_eq_some_iff p b, resolveYear_eq_none_iff p b⟩

/-! ### The fields by their weights (R242, R243) -/

theorem weightedBits_cons (b : BitVec 60) (i w : Nat) (ws : List Nat) :
    weightedBits b i (w :: ws) = w * (frameBit b i).toNat + weightedBits b (i + 1) ws := by
  rw [weightedBits]
  cases frameBit b i <;> simp

theorem weightedBits_nil (b : BitVec 60) (i : Nat) : weightedBits b i [] = 0 := rfl

section
variable (b : BitVec 60)

theorem frameDigit_eq_weighted (i : Nat) : frameDigit b i 4 = weightedBits b i [1, 2, 4, 8] := by
  simp only [frameDigit_succ, frameDigit_zero, weightedBits_cons, weightedBits_nil]
  ring

theorem frameMinute_eq_weighted : frameMinute b = weightedBits b 21 [1, 2, 4, 8, 10, 20, 40] := by
  simp only [frameMinute, frameDigit_succ, frameDigit_zero, weightedBits_cons, weightedBits_nil]
  ring

theorem frameHour_eq_weighted : frameHour b = weightedBits b 29 [1, 2, 4, 8, 10, 20] := by
  simp only [frameHour, frameDigit_succ, frameDigit_zero, weightedBits_cons, weightedBits_nil]
  ring

theorem frameDay_eq_weighted : frameDay b = weightedBits b 36 [1, 2, 4, 8, 10, 20] := by
  simp only [frameDay, frameDigit_succ, frameDigit_zero, weightedBits_cons, weightedBits_nil]
  ring

theorem frameDow_eq_weighted : frameDow b = weightedBits b 42 [1, 2, 4] := by
  simp only [frameDow, frameDigit_succ, frameDigit_zero, weightedBits_cons, weightedBits_nil]
  ring

theorem frameMonth_eq_weighted : frameMonth b = weightedBits b 45 [1, 2, 4, 8, 10] := by
  simp only [frameMonth, frameDigit_succ, frameDigit_zero, weightedBits_cons, weightedBits_nil]
  ring

theorem frameYear_eq_weighted : frameYear b = weightedBits b 50 [1, 2, 4, 8, 10, 20, 40, 80] := by
  simp only [frameYear, frameDigit_succ, frameDigit_zero, weightedBits_cons, weightedBits_nil]
  ring

theorem frameUtc_eq_weighted : frameUtc b = weightedBits b 17 [2, 1] := by
  simp only [frameUtc, weightedBits_cons, weightedBits_nil]
  ring

end

/-! ### The range checks over the naturals (R244, R245) -/

section
variable {p : Params} {b : BitVec 60}

theorem minuteOk_iff : minuteOk b = true ↔ frameDigit b 21 4 ≤ 9 ∧ frameMinute b ≤ 59 := by
  simp [minuteOk]

theorem hourOk_iff : hourOk b = true ↔ frameDigit b 29 4 ≤ 9 ∧ frameHour b ≤ 23 := by
  simp [hourOk]

theorem dayOk_iff : dayOk b = true ↔ frameDigit b 36 4 ≤ 9 ∧ 1 ≤ frameDay b ∧ frameDay b ≤ 31 := by
  simp [dayOk, Nat.one_le_iff_ne_zero, and_assoc]

theorem dowOk_iff : dowOk b = true ↔ 1 ≤ frameDow b := by
  simp [dowOk, Nat.one_le_iff_ne_zero]

theorem monthOk_iff : monthOk b = true ↔ frameDigit b 45 4 ≤ 9 ∧ 1 ≤ frameMonth b ∧ frameMonth b ≤ 12 := by
  simp [monthOk, Nat.one_le_iff_ne_zero, and_assoc]

theorem yearOk_iff : yearOk b = true ↔ frameDigit b 50 4 ≤ 9 ∧ frameDigit b 54 4 ≤ 9 := by
  simp [yearOk]

theorem utcOk_iff : utcOk p b = true ↔ (p.utcCheck = .strict → frameUtc b = 1 ∨ frameUtc b = 2) := by
  unfold utcOk
  split
  next strict => simp [strict]
  next lenient => simp [lenient]

end

/-! ### The first failing check (R240) -/

/-- A check of the chain and an entry of the list with the same outcome, before rests that report the same. -/
theorem analysisCode_check {c : Prop} [Decidable c] {ok : Bool} {e : DcfResult} {rest : Except DcfResult Nat}
    {checks : List (Bool × DcfResult)} (same : c ↔ ok = false) (tail : analysisCode rest = firstFailure checks) :
    analysisCode (if c then .error e else rest) = firstFailure ((ok, e) :: checks) := by
  cases ok with
  | false => rw [if_pos (same.mpr rfl)]; rfl
  | true => rw [if_neg (by simp [same]), tail]; rfl

theorem analysisCode_analyzeFrame (p : Params) (n : Nat) (b : BitVec 60) :
    analysisCode (analyzeFrame p n b) = firstFailure (frameChecks p n b) := by
  have parity (i j : Nat) : evenParity b i j = false ↔ (onesIn b i j % 2 == 0) = false := by
    rw [← Bool.not_eq_true, evenParity_iff, ← Bool.not_eq_true, beq_iff_eq]
  simp only [frameChecks, ← frameDigit_eq_weighted, ← frameMinute_eq_weighted, ← frameHour_eq_weighted,
    ← frameDay_eq_weighted, ← frameDow_eq_weighted, ← frameMonth_eq_weighted, ← frameYear_eq_weighted,
    ← frameUtc_eq_weighted, ← minuteOk_iff, ← hourOk_iff, ← dayOk_iff, ← dowOk_iff, ← monthOk_iff, ← yearOk_iff,
    ← utcOk_iff, Bool.decide_eq_true]
  unfold analyzeFrame
  refine analysisCode_check (by simp) ?_
  refine analysisCode_check (by simp) ?_
  refine analysisCode_check (by simp) ?_
  refine analysisCode_check Iff.rfl ?_
  refine analysisCode_check (parity _ _) ?_
  refine analysisCode_check (parity _ _) ?_
  refine analysisCode_check (parity _ _) ?_
  iterate 7 refine analysisCode_check Iff.rfl ?_
  have century : (resolveYear p b).isSome = (List.range 4).any fun i =>
      dayOfWeek (p.baseYear + 100 * i + frameYear b) (frameMonth b) (frameDay b) == frameDow b := by
    rw [resolveYear_eq, Option.isSome_map, Bool.eq_iff_iff, List.find?_isSome, List.any_eq_true]
  rw [← century]
  cases resolveYear p b <;> rfl

/-! ### Frames that pass (R240, R248) -/

/-- The checks of R240 before the UTC offset: 1 to 13. -/
structure FieldsPass (n : Nat) (b : BitVec 60) : Prop where
  count : n = 59 ∨ n = 60
  leap : n = 60 → frameBit b 59 = false
  start : frameBit b 0 = false
  time : frameBit b 20 = true
  parityMin : evenParity b 21 28 = true
  parityHour : evenParity b 29 35 = true
  parityDate : evenParity b 36 58 = true
  minute : minuteOk b = true
  hour : hourOk b = true
  day : dayOk b = true
  dow : dowOk b = true
  month : monthOk b = true
  year : yearOk b = true

theorem FieldsPass.analyzeFrame_eq {p : Params} {n : Nat} {b : BitVec 60} (h : FieldsPass n b) :
    analyzeFrame p n b = if utcOk p b = false then .error .utcOffset
      else (resolveYear p b).elim (.error .century) fun y => .ok (frameTimestamp y b) := by
  obtain ⟨count, leap, start, time, parityMin, parityHour, parityDate, minute, hour, day, dow, month, year⟩ := h
  unfold analyzeFrame
  rw [if_neg (by omega), if_neg (by simpa using leap)]
  simp only [start, time, parityMin, parityHour, parityDate, minute, hour, day, dow, month, year, Bool.true_eq_false,
    Bool.false_eq_true, if_false]
  cases resolveYear p b <;> rfl

/-- A check of a chain that answers a timestamp has passed. -/
theorem check_ok {c : Prop} [Decidable c] {e : DcfResult} {rest : Except DcfResult Nat} {ts : Nat} :
    (if c then .error e else rest) = .ok ts ↔ ¬ c ∧ rest = .ok ts := by
  split <;> simp [*]

/-- R240, R248: the frames that pass every check, and their timestamps. -/
theorem analyzeFrame_eq_ok_iff {p : Params} {n : Nat} {b : BitVec 60} {ts : Nat} : analyzeFrame p n b = .ok ts ↔
    FieldsPass n b ∧ utcOk p b = true ∧ ∃ y, resolveYear p b = some y ∧ ts = frameTimestamp y b := by
  constructor
  · intro h
    have pass : FieldsPass n b := by
      simp only [analyzeFrame, check_ok, Bool.not_eq_true, Bool.not_eq_false] at h
      obtain ⟨count, leap, start, time, pMin, pHour, pDate, minute, hour, day, dow, month, year, -⟩ := h
      exact ⟨by omega, by simpa using leap, start, time, pMin, pHour, pDate, minute, hour, day, dow, month, year⟩
    rw [pass.analyzeFrame_eq, check_ok, Bool.not_eq_false] at h
    obtain ⟨utc, resolved⟩ := h
    refine ⟨pass, utc, ?_⟩
    cases year : resolveYear p b with
    | none => simp [year] at resolved
    | some y => exact ⟨y, rfl, by simpa [year] using resolved.symm⟩
  · rintro ⟨pass, utc, y, year, rfl⟩
    rw [pass.analyzeFrame_eq, utc, year]
    rfl

theorem frameUtc_le (b : BitVec 60) : frameUtc b ≤ 3 := by
  unfold frameUtc
  cases frameBit b 17 <;> cases frameBit b 18 <;> decide

theorem epoch_le_timestamp (y m d : Nat) : 946684800 ≤ timestamp y m d := Nat.le_add_left _ _

/-- R248 without its truncated subtraction: a timestamp of the calendar is at least the epoch's (R216). -/
theorem frameTimestamp_add_utc (y : Nat) (b : BitVec 60) : frameTimestamp y b + frameUtc b * 3600 =
    timestamp y (frameMonth b) (frameDay b) + frameHour b * 3600 + frameMinute b * 60 := by
  have utc := frameUtc_le b
  have epoch := epoch_le_timestamp y (frameMonth b) (frameDay b)
  unfold frameTimestamp
  omega

/-- Settles O26: check by check against the list, and a passing frame by R247 and R248. -/
theorem analysisReportsFirstFailure : Obligations.AnalysisReportsFirstFailure := by
  intro p n b
  refine ⟨analysisCode_analyzeFrame p n b, ?_⟩
  simp only [← frameMinute_eq_weighted, ← frameHour_eq_weighted, ← frameDay_eq_weighted, ← frameDow_eq_weighted,
    ← frameMonth_eq_weighted, ← frameYear_eq_weighted, ← frameUtc_eq_weighted]
  intro ts h
  obtain ⟨-, -, y, year, rfl⟩ := analyzeFrame_eq_ok_iff.mp h
  obtain ⟨i, inRange, rfl, fits, first⟩ := (resolveYear_eq_some_iff p b).mp year
  exact ⟨i, inRange, fits, first, year, frameTimestamp_add_utc _ b⟩

/-! ### The range of a timestamp (R249) -/

/-- No date of a year passes its end, a day the month does not have included (R244). -/
theorem dayOfYear_le_yearDays (y : Nat) {m d : Nat} (monthGe : 1 ≤ m) (monthLe : m ≤ 12) (dayLe : d ≤ 31) :
    dayOfYear y m d ≤ yearDays y := by
  interval_cases m <;> cases leap : isLeap y <;> simp [dayOfYear, yearDays, cumDays, leap] <;> omega

theorem daysSinceEpoch_mono {x y : Nat} (from2000 : 2000 ≤ x) (le : x ≤ y) : daysSinceEpoch x ≤ daysSinceEpoch y := by
  induction y, le using Nat.le_induction with
  | base => exact le_rfl
  | succ y le ih =>
    rw [daysSinceEpoch_succ (from2000.trans le)]
    exact Nat.le_add_right_of_le ih

/-- Every day before 2400 has a day number below that of 2400-01-01. -/
theorem timestamp_lt_2400 {y m d : Nat} (from2000 : 2000 ≤ y) (before : y < 2400) (monthGe : 1 ≤ m) (monthLe : m ≤ 12)
    (dayGe : 1 ≤ d) (dayLe : d ≤ 31) : timestamp y m d + 86400 ≤ 13569465600 := by
  have number := dayNumber_add_one (y := y) (m := m) dayGe
  have inYear := dayOfYear_le_yearDays y monthGe monthLe dayLe
  have next := daysSinceEpoch_succ from2000
  have until2400 : daysSinceEpoch (y + 1) ≤ 146097 := daysSinceEpoch_mono (by omega) before
  simp only [timestamp, epochUnixSeconds]
  omega

/-- Settles O28: the UTC offset takes at most two hours, under `none` three, and a year below 2400 ends before 2400. -/
theorem decodedTimestampRange : Obligations.DecodedTimestampRange := by
  intro p n b ts from2000 h
  obtain ⟨pass, utc, y, year, rfl⟩ := analyzeFrame_eq_ok_iff.mp h
  have sum := frameTimestamp_add_utc y b
  have epoch := epoch_le_timestamp y (frameMonth b) (frameDay b)
  have utcLe := frameUtc_le b
  refine ⟨by omega, fun strict => ?_, fun base => ?_⟩
  · have := utcOk_iff.mp utc strict
    omega
  · obtain ⟨-, minuteLe⟩ := minuteOk_iff.mp pass.minute
    obtain ⟨-, hourLe⟩ := hourOk_iff.mp pass.hour
    obtain ⟨-, dayGe, dayLe⟩ := dayOk_iff.mp pass.day
    obtain ⟨-, monthGe, monthLe⟩ := monthOk_iff.mp pass.month
    obtain ⟨i, inRange, rfl, -⟩ := (resolveYear_eq_some_iff p b).mp year
    have yearLe : frameYear b ≤ 99 := by
      obtain ⟨ones, tens⟩ := yearOk_iff.mp pass.year
      unfold frameYear
      omega
    have before2400 := timestamp_lt_2400 (y := p.baseYear + 100 * i + frameYear b) (by omega) (by omega) monthGe monthLe
      dayGe dayLe
    omega

/-! ### One flipped bit (R252) -/

/-- b with bit k flipped. -/
def flipBit (b : BitVec 60) (k : Nat) : BitVec 60 := b ^^^ (1#60 <<< k)

section
variable (b : BitVec 60) {k : Nat} (inFrame : k < 60)
include inFrame

theorem frameBit_flipBit (j : Nat) : frameBit (flipBit b k) j = (frameBit b j ^^ decide (k = j)) := by
  unfold frameBit flipBit
  rw [BitVec.getLsbD_xor, BitVec.getLsbD_shiftLeft, BitVec.getLsbD_one]
  congr 1
  rw [Bool.eq_iff_iff]
  simp
  omega

/-- Flipping a bit flips the parity of every range that holds it (R241). -/
theorem evenParity_flipBit (i j : Nat) :
    evenParity (flipBit b k) i j = (evenParity b i j ^^ decide (i ≤ k ∧ k ≤ j)) := by
  have fold (m : Nat) : (List.range m).foldl (fun acc x => acc ^^ frameBit (flipBit b k) (i + x)) false =
      ((List.range m).foldl (fun acc x => acc ^^ frameBit b (i + x)) false ^^ decide (i ≤ k ∧ k < i + m)) := by
    induction m with
    | zero => simp
    | succ m ih =>
      have last : decide (i ≤ k ∧ k < i + (m + 1)) = (decide (i ≤ k ∧ k < i + m) ^^ decide (k = i + m)) := by
        by_cases here : k = i + m
        · simp [here]
        · have same : (i ≤ k ∧ k < i + (m + 1)) ↔ i ≤ k ∧ k < i + m := by omega
          simp [here, same]
      rw [List.range_succ, List.foldl_concat, List.foldl_concat, ih, frameBit_flipBit b inFrame, last]
      simp only [Bool.xor_assoc, Bool.xor_left_comm (decide _)]
  have range : (i ≤ k ∧ k < i + (j + 1 - i)) ↔ i ≤ k ∧ k ≤ j := by omega
  rw [evenParity, fold, evenParity, decide_eq_decide.mpr range, Bool.not_xor]

/-- A digit does not see a flip outside it (R243). -/
theorem frameDigit_flipBit {i m : Nat} (outside : k < i ∨ i + m ≤ k) :
    frameDigit (flipBit b k) i m = frameDigit b i m := by
  induction m generalizing i with
  | zero => simp
  | succ m ih =>
    have elsewhere : decide (k = i) = false := by simp; omega
    rw [frameDigit_succ, frameDigit_succ, ih (by omega), frameBit_flipBit b inFrame, elsewhere, Bool.xor_false]

end

/-- A bit that neither a marker, a parity nor a date field reads (R242): 1 to 19, and bit 59 of a 59-bit frame. -/
def OutsideTime (n k : Nat) : Prop := 1 ≤ k ∧ k < 20 ∨ n = 59 ∧ k = 59

section
variable {n k : Nat} {b : BitVec 60} (outside : OutsideTime n k)
include outside

theorem OutsideTime.inFrame : k < 60 := by
  unfold OutsideTime at outside
  omega

theorem OutsideTime.frameDigit_eq {i m : Nat} (low : 20 ≤ i) (high : i + m ≤ 59) :
    frameDigit (flipBit b k) i m = frameDigit b i m := by
  refine frameDigit_flipBit b outside.inFrame ?_
  unfold OutsideTime at outside
  omega

theorem OutsideTime.evenParity_eq {i j : Nat} (low : 20 ≤ i) (high : j ≤ 58) :
    evenParity (flipBit b k) i j = evenParity b i j := by
  have elsewhere : ¬ (i ≤ k ∧ k ≤ j) := by unfold OutsideTime at outside; omega
  rw [evenParity_flipBit b outside.inFrame, decide_eq_false elsewhere, Bool.xor_false]

theorem OutsideTime.frameBit_eq {j : Nat} (elsewhere : k ≠ j) : frameBit (flipBit b k) j = frameBit b j := by
  rw [frameBit_flipBit b outside.inFrame, decide_eq_false elsewhere, Bool.xor_false]

theorem OutsideTime.resolveYear_eq (p : Params) : resolveYear p (flipBit b k) = resolveYear p b := by
  simp only [resolveYear, frameYear, frameMonth, frameDay, frameDow, outside.frameDigit_eq, Nat.reduceLeDiff]

theorem OutsideTime.frameUtc_eq (noZone : k ≠ 17 ∧ k ≠ 18) : frameUtc (flipBit b k) = frameUtc b := by
  rw [frameUtc, outside.frameBit_eq noZone.1, outside.frameBit_eq noZone.2, frameUtc]

theorem OutsideTime.utcOk_eq (p : Params) (noZone : k ≠ 17 ∧ k ≠ 18) : utcOk p (flipBit b k) = utcOk p b := by
  simp only [utcOk, outside.frameUtc_eq noZone]

theorem OutsideTime.frameTimestamp_eq (y : Nat) (noZone : k ≠ 17 ∧ k ≠ 18) :
    frameTimestamp y (flipBit b k) = frameTimestamp y b := by
  simp only [frameTimestamp, frameMinute, frameHour, frameMonth, frameDay, outside.frameUtc_eq noZone,
    outside.frameDigit_eq, Nat.reduceLeDiff]

theorem OutsideTime.fieldsPass (pass : FieldsPass n b) : FieldsPass n (flipBit b k) where
  count := pass.count
  leap long := by
    rw [outside.frameBit_eq (by unfold OutsideTime at outside; omega)]
    exact pass.leap long
  start := by
    rw [outside.frameBit_eq (by unfold OutsideTime at outside; omega)]
    exact pass.start
  time := by
    rw [outside.frameBit_eq (by unfold OutsideTime at outside; omega)]
    exact pass.time
  parityMin := (outside.evenParity_eq (by decide) (by decide)).trans pass.parityMin
  parityHour := (outside.evenParity_eq (by decide) (by decide)).trans pass.parityHour
  parityDate := (outside.evenParity_eq (by decide) (by decide)).trans pass.parityDate
  minute := by simpa only [minuteOk_iff, frameMinute, outside.frameDigit_eq, Nat.reduceLeDiff] using pass.minute
  hour := by simpa only [hourOk_iff, frameHour, outside.frameDigit_eq, Nat.reduceLeDiff] using pass.hour
  day := by simpa only [dayOk_iff, frameDay, outside.frameDigit_eq, Nat.reduceLeDiff] using pass.day
  dow := by simpa only [dowOk_iff, frameDow, outside.frameDigit_eq, Nat.reduceLeDiff] using pass.dow
  month := by simpa only [monthOk_iff, frameMonth, outside.frameDigit_eq, Nat.reduceLeDiff] using pass.month
  year := by simpa only [yearOk_iff, frameYear, outside.frameDigit_eq, Nat.reduceLeDiff] using pass.year

end

/-- Flipping one zone bit makes u = 0 or u = 3 of u = 1 or u = 2 (R245). -/
theorem utcOk_flipBit {p : Params} {b : BitVec 60} {k : Nat} (strict : p.utcCheck = .strict) (zone : k = 17 ∨ k = 18)
    (utc : utcOk p b = true) : utcOk p (flipBit b k) = false := by
  have u := utcOk_iff.mp utc strict
  rw [← Bool.not_eq_true, utcOk_iff]
  unfold frameUtc at *
  rw [frameBit_flipBit b (by omega), frameBit_flipBit b (by omega)]
  have flipped (x : Bool) : (x ^^ true).toNat + x.toNat = 1 := by cases x <;> rfl
  have z1 := flipped (frameBit b 17)
  have z2 := flipped (frameBit b 18)
  intro u'
  obtain rfl | rfl := zone
  · have only17 := u' strict
    simp only [decide_true, Nat.reduceEqDiff, decide_false, Bool.xor_false] at only17
    omega
  · have only18 := u' strict
    simp only [decide_true, Nat.reduceEqDiff, decide_false, Bool.xor_false] at only18
    omega

/-- The first checks on a passing frame with one bit flipped: each fails exactly when it reads the bit. -/
theorem FieldsPass.analyzeFrame_flipBit {p : Params} {n k : Nat} {b : BitVec 60} (pass : FieldsPass n b)
    (inFrame : k < 60) : ∃ rest, analyzeFrame p n (flipBit b k) =
      if n = 60 ∧ k = 59 then .error .leapBit
      else if k = 0 then .error .startMarker
      else if k = 20 then .error .timeMarker
      else if 21 ≤ k ∧ k ≤ 28 then .error .parityMin
      else if 29 ≤ k ∧ k ≤ 35 then .error .parityHour
      else if 36 ≤ k ∧ k ≤ 58 then .error .parityDate
      else rest := by
  have bit (j : Nat) := frameBit_flipBit b inFrame j
  have parity (i j : Nat) := evenParity_flipBit b inFrame i j
  have leap : n = 60 ∧ frameBit (flipBit b k) 59 = true ↔ n = 60 ∧ k = 59 :=
    and_congr_right fun long => by simp [bit, pass.leap long]
  have start : frameBit (flipBit b k) 0 = true ↔ k = 0 := by simp [bit, pass.start]
  have time : frameBit (flipBit b k) 20 = false ↔ k = 20 := by simp [bit, pass.time]
  have minute : evenParity (flipBit b k) 21 28 = false ↔ 21 ≤ k ∧ k ≤ 28 := by simp [parity, pass.parityMin]
  have hour : evenParity (flipBit b k) 29 35 = false ↔ 29 ≤ k ∧ k ≤ 35 := by simp [parity, pass.parityHour]
  have date : evenParity (flipBit b k) 36 58 = false ↔ 36 ≤ k ∧ k ≤ 58 := by simp [parity, pass.parityDate]
  have count : ¬ (n ≠ 59 ∧ n ≠ 60) := by have := pass.count; omega
  simp only [analyzeFrame, count, leap, start, time, minute, hour, date, if_false]
  exact ⟨_, rfl⟩

/-- Settles O27: a flip that a marker, a parity or the UTC offset sees fails the first check that reads the bit; another
changes nothing that is read. -/
theorem singleBitFlipIsCaught : Obligations.SingleBitFlipIsCaught := by
  intro p n b ts k h inFrame strict
  obtain ⟨pass, utc, y, year, rfl⟩ := analyzeFrame_eq_ok_iff.mp h
  have count := pass.count
  change analyzeFrame p n (flipBit b k) = _
  by_cases zone : k = 17 ∨ k = 18
  · have outside : OutsideTime n k := .inl (by omega)
    rw [(outside.fieldsPass pass).analyzeFrame_eq, utcOk_flipBit (strict zone) zone utc, if_pos rfl, if_neg (by omega),
      if_neg (by omega), if_pos zone]
  · by_cases outside : OutsideTime n k
    · have kept : analyzeFrame p n (flipBit b k) = .ok (frameTimestamp y b) :=
        analyzeFrame_eq_ok_iff.mpr ⟨outside.fieldsPass pass, (outside.utcOk_eq p (not_or.mp zone)).trans utc, y,
          (outside.resolveYear_eq p).trans year, (outside.frameTimestamp_eq y (not_or.mp zone)).symm⟩
      unfold OutsideTime at outside
      rw [kept, if_neg zone]
      grind
    · obtain ⟨rest, eq⟩ := pass.analyzeFrame_flipBit (p := p) inFrame
      unfold OutsideTime at outside
      rw [eq, if_neg zone]
      grind

end Sys2Proof.Machine

/-! NOP (spec/46_nop.md R280). -/

namespace Sys2Proof.Machine

theorem exec_nop (s : State) : exec .nop s = .next (s.done 0x00 false) := rfl

/-- NOP uses no flag: beside its opcode, every set bit of the word is an F0, an F1 or a reserved bit that R100 rejects. -/
theorem decode_badFlags_of_nop_opcode {w : Word} (op : w.toNat % 256 = 0) (upper : w.toNat / 256 ≠ 0) :
    decode w = .error .badFlags := by
  have legal : fieldOp w ∈ legalOps := (fieldOp_mem_legalOps_iff w).mpr (by simp [op])
  have bad : flagsBad w = true := (flagsBad_iff w).mpr (by omega)
  exact decode_badFlags legal bad

/-- Settles O13: NOP writes `Done(0x00, 0, 0)` and nothing else; the decoder rejects opcode 0x00 below a set bit. -/
theorem nopSetsStatus : Obligations.NopSetsStatus := by
  intro s
  refine ⟨?_, fun p w op upper => ?_⟩
  · have done : statusDone 0x00 false = 0x00000005 := by decide
    rw [exec_nop, State.done, done]
  · rw [command_of_error p s (decode_badFlags_of_nop_opcode op upper), statusError_eq_ofNat, op]
    rfl

end Sys2Proof.Machine

/-! Nothing is fatal (spec/60_exceptions.md R306, R307), and a power cycle is a reset (R315). -/

namespace Sys2Proof.Machine

/-! ### Every step answers a next state -/

/-- BusError is an answer to the master, and what a write reaches always answers (R304). -/
theorem busAccess_runs (m : Master) (a : Access) (s : State) : runs (busAccess m a s) := by
  cases level : s.rst with
  | true => exact ⟨_, busAccess_inReset m a level⟩
  | false =>
    cases a with
    | read addr n =>
      cases reached : busTarget s.cfg addr n with
      | none => exact ⟨_, busAccess_readError m level reached⟩
      | some tg => exact ⟨_, busAccess_read m level rfl reached⟩
    | write addr n v =>
      cases reached : busTarget s.cfg addr n with
      | none => exact ⟨_, busAccess_writeError m v level reached⟩
      | some tg =>
        rw [busAccess_write m v level reached]
        exact (s.respond m .written).writeTarget_runs tg n v

theorem deliver_runs (e : Event) (s : State) : runs (deliver e s) := by
  cases e with
  | bus m a => exact busAccess_runs m a s
  | tick => exact ⟨s.tick, rfl⟩
  | rst level => exact ⟨s.driveRst level, rfl⟩
  | powerCycle => exact ⟨s.powerCycle, rfl⟩

theorem step_runs (s : State) : runs (step s) := by
  cases pending : s.inbox with
  | nil => exact ⟨s, step_nil s pending⟩
  | cons e rest =>
    rw [step_cons s e rest pending]
    exact deliver_runs e _

/-- Settles O8: every command answers, hence every bus access, every action and every step. -/
theorem stepNeverStops : Obligations.StepNeverStops := ⟨exec_runs, step_runs⟩

/-! ### Power cycle -/

/-- The inputs `rst` and `hw_cnt` are no elements of R340's table. -/
theorem State.AtReset.setInputs {s : State} (h : s.AtReset) (level : Bool) (c : BitVec 16) :
    ({ s with rst := level, hwCnt := c } : State).AtReset :=
  ⟨h.p0, h.p1, h.clk, h.dcf, h.sha, h.digest, h.key, h.buf⟩

theorem State.powerCycle_atReset (s : State) : s.powerCycle.AtReset := s.loadReset_atReset.setInputs _ _

/-- Settles O57: the power cycle is taken from the inbox and loads the reset values. -/
theorem powerCycleIsReset : Obligations.PowerCycleIsReset := by
  intro s rest pending
  exact ⟨_, step_cons s .powerCycle rest pending, State.powerCycle_atReset _, rfl, rfl, rfl⟩

end Sys2Proof.Machine

/-! Reset by `rst` (spec/70_reset_and_hazards.md R340, R343), and the work of the SHA-256 and HMAC commands (R360, R361). -/

namespace Sys2Proof.Machine

/-! ### Reset -/

theorem State.reset_atReset : State.reset.AtReset := ⟨rfl, rfl, rfl, rfl, rfl, rfl, rfl, rfl⟩

/-- Settles O58: reset values meet the invariant. -/
theorem resetStateMeetsInvariant : Obligations.ResetStateMeetsInvariant :=
  ⟨State.reset_atReset, rfl, State.reset_atReset.inv⟩

/-- Settles O55: the access is taken from the inbox and only answered. -/
theorem accessInResetHasNoEffect : Obligations.AccessInResetHasNoEffect := by
  intro s m a rest inReset pending
  rw [step_cons s _ rest pending]
  exact busAccess_inReset (s := { s with inbox := rest }) m a inReset

/-- Both edges of `rst` load the reset values; the second one also leaves the input deasserted. -/
theorem State.driveRst_pulse (s : State) :
    (s.driveRst true).driveRst false = { s.loadReset.loadReset with rst := false } := rfl

/-- A pulse of `rst` loads R340's whole table; the counter is an input and stays (R343). -/
theorem State.driveRst_pulse_atReset (s : State) : ((s.driveRst true).driveRst false).AtReset := by
  rw [State.driveRst_pulse]
  exact s.loadReset.loadReset_atReset.setInputs false s.hwCnt

/-- R39's output follows DCF.SYNC_ERR. -/
theorem State.AtReset.dcfSyncErrOut {s : State} (h : s.AtReset) : s.dcfSyncErrOut = false := by
  rw [State.dcfSyncErrOut, h.dcf]
  rfl

/-- Settles O54: the two pending edges are the two steps, and together they are a pulse of `rst`. -/
theorem resetLoadsEveryElement : Obligations.ResetLoadsEveryElement := by
  intro s rest pending
  have asserted := step_cons s (.rst true) (.rst false :: rest) pending
  have released := step_cons (({ s with inbox := .rst false :: rest } : State).driveRst true) (.rst false) rest rfl
  have reset := State.driveRst_pulse_atReset { s with inbox := rest }
  exact ⟨_, (run_succ_of_step 1 asserted).trans (run_succ_of_step 0 released), reset, rfl, rfl, rfl, rfl,
    reset.dcfSyncErrOut⟩

/-! ### Compressions (R360) -/

/-- Padding adds 9 to 72 bytes, so a hash of n bytes takes ⌊(n + 72)/64⌋ blocks. -/
theorem sha256Blocks_eq (n : Nat) : sha256Blocks n = (n + 72) / 64 := by
  rw [sha256Blocks, blocksDone_eq 0 _ (by omega), shaPad_length]
  split <;> omega

/-- The inner hash has one block more than that for the key, the outer one has two. -/
theorem hmacBlocks_eq (n : Nat) : hmacBlocks n = (n + 72) / 64 + 3 := by
  rw [hmacBlocks, sha256Blocks_eq, sha256Blocks_eq]
  omega

/-- A command that ends with OK = 1 has completed. -/
theorem exec_completes_of_statusOk {i : Instr} {s t : State} (run : exec i s = .next t)
    (ok : statusOk t.ownStatus = true) : ∃ u m, s.Completes i u m ∧ t = u.done (opcode i) m := by
  rcases exec_cases run with ⟨e, -, rfl⟩ | completed
  · rw [State.raise_ownStatus, statusOk_statusError] at ok
    cases ok
  · exact completed

/-- A SHA_UPDATE that completes compresses each time its bytes fill the block. -/
theorem compressions_shaUpdate {s u : State} {m : Bool} (completes : s.Completes .shaUpdate u m) :
    compressions .shaUpdate s = (s.sha.fill.toNat + s.argNat 1) / 64 := by
  cases completes with
  | shaUpdate range active short =>
    rw [compressions, if_pos ⟨range, active, short⟩, blocksDone_eq _ _ s.sha.fill.isLt]

theorem compressions_shaFinal {s : State} (active : s.sha.phase = .active) : compressions .shaFinal s =
    (s.sha.fill.toNat + (shaPad s.sha.nbytes.toNat).length) / 64 := by
  rw [compressions, if_pos active, blocksDone_eq _ _ s.sha.fill.isLt]

/-- Both HMAC commands, when they complete, hash a message of ARG1 bytes. -/
theorem compressions_hmac {i : Instr} {s t : State} (hmac : i = .hmacCompute ∨ ∃ b, i = .hmacVerify b)
    (run : exec i s = .next t) (ok : statusOk t.ownStatus = true) : compressions i s = hmacBlocks (s.argNat 1) := by
  obtain ⟨u, m, completes, -⟩ := exec_completes_of_statusOk run ok
  rcases hmac with rfl | ⟨b, rfl⟩
  · cases completes with
    | hmacCompute range => rw [compressions, if_pos range]
  · cases completes with
    | hmacVerify _ range tagRange => rw [compressions, if_pos ⟨range, tagRange⟩]

/-- Settles O43: the counts are those of `blocksDone_eq`, and `absorbBytes_blocks` folds over as many blocks. -/
theorem compressionCounts : Obligations.CompressionCounts := by
  intro s len
  refine ⟨fun t run ok => ?update, fun active linked => ⟨?count, _, exec_shaFinal_active active, ?final⟩,
    fun t run ok => (compressions_hmac (.inl rfl) run ok).trans (hmacBlocks_eq _),
    fun t b run ok => (compressions_hmac (.inr ⟨b, rfl⟩) run ok).trans (hmacBlocks_eq _)⟩
  case update =>
    obtain ⟨u, m, completes, -⟩ := exec_completes_of_statusOk run ok
    have count : compressions .shaUpdate s = (s.sha.fill.toNat + len) / 64 := compressions_shaUpdate completes
    obtain ⟨-, absorbed⟩ := exec_shaUpdate_absorbs_of_statusOk run ok
    obtain ⟨chained, -⟩ := absorbBytes_blocks s.sha (s.bufRead (s.argNat 0) len)
    rw [State.bufRead_length, ← count] at chained
    refine ⟨count, ?_⟩
    rw [absorbed]
    exact chained
  case count =>
    rw [compressions_shaFinal active, shaPad_length, linked]
    split <;> omega
  case final =>
    rw [State.done_sha, compressions_shaFinal active]
    exact (absorbBytes_blocks s.sha (shaPad s.sha.nbytes.toNat)).1

/-! ### Constant time (R361) -/

/-- The counts of the HMAC commands look at the ranges and the length alone. -/
theorem compressions_hmac_congr {s t : State} (cfg : s.cfg = t.cfg) (args : ∀ k, s.arg k = t.arg k) :
    compressions .hmacCompute s = compressions .hmacCompute t ∧
      ∀ b, compressions (.hmacVerify b) s = compressions (.hmacVerify b) t := by
  have operand (k : Fin 4) : s.argNat k = t.argNat k := congrArg BitVec.toNat (args k)
  have range (off len : Nat) : s.rangeOk off len = t.rangeOk off len := by rw [State.rangeOk, State.rangeOk, cfg]
  simp only [compressions, operand, range, implies_true, and_self]

theorem State.comparedPairs_eq (s : State) (tag32 : Bool) : s.comparedPairs tag32 = tagBytes tag32 := by
  rw [State.comparedPairs, ctCompare_eq]

/-- CtEqual as a statement about each byte pair (R173). -/
theorem ctEqual_iff_getD (x y : List Byte) (n : Nat) : ctEqual x y n = true ↔ ∀ i < n, x.getD i 0 = y.getD i 0 := by
  rw [ctEqual, ctCompare_eq, beq_iff_eq, ctFold_eq_zero]
  simp only [true_and, List.mem_range]

/-- One cycle for each compression and each compared pair, as ARG1 and TAG32 give them. -/
def workCycles : Instr → State → Nat
  | .hmacCompute, s => hmacBlocks (s.argNat 1)
  | .hmacVerify tag32, s => hmacBlocks (s.argNat 1) + tagBytes tag32
  | _, _ => 0

theorem workCycles_constantTime : ConstantTime workCycles := by
  intro s t _ length
  simp only [workCycles, length, implies_true, and_self]

/-- Settles O60: every count is a function of ARG1 and TAG32, and `workCycles` takes exactly that long. -/
theorem hmacWorkIsConstantTime : Obligations.HmacWorkIsConstantTime := by
  refine ⟨fun s t => compressions_hmac_congr, fun s t s' t' i hmac length runS runT okS okT => ?equal,
    State.comparedPairs_eq, fun x y n _ _ => ⟨?pairs, ctEqual_iff_getD x y n⟩,
    ⟨workCycles, workCycles_constantTime⟩, fun s t => ⟨fun run ok => ?compute, fun b run ok => ?verify⟩⟩
  case equal => rw [compressions_hmac hmac runS okS, compressions_hmac hmac runT okT, length]
  case pairs => rw [ctCompare_eq]
  case compute => exact (compressions_hmac (.inl rfl) run ok).symm
  case verify =>
    rw [compressions_hmac (.inr ⟨b, rfl⟩) run ok, State.comparedPairs_eq]
    rfl

end Sys2Proof.Machine
